-- ==== Sys2Proof/Word.lean ====
section
/-! DEFINITION. The word types of YZE (spec 00_scope R8, R10): everything is unsigned; a byte is 8 bits. -/

namespace Sys2Proof

/-- A byte, `0..255` (R8). -/
abbrev Byte := BitVec 8

end Sys2Proof
end

