-- ==== Sys2Proof/Config.lean ====
section
/-! DEFINITION. What an implementation of YZE fixes (spec 00_scope R7, 42_compress R127) and the free values: opaque
constants that stand for what the spec leaves unspecified, about which nothing can be proved. -/

namespace Sys2Proof

/-- One item of a parse (R112): a literal byte, or a back-reference of distance `d` and length `l`. -/
inductive Item where
  | lit (b : Byte)
  | ref (d l : Nat)
deriving DecidableEq, Repr, Inhabited

/-- Which parse `COMP` emits (R127): the reference engine's (the default), or the one that some other conforming
compressor, here only a number, picks. -/
inductive Chooser where
  | reference
  | other (id : Nat)
deriving DecidableEq, Repr

/-- The open parameters of R7 and R127. DESIGN CHOICE (log 1): they stand beside the state and no step changes them, so
that a statement about every state holds for every choice of them. -/
structure Config where
  /-- `SRC_MAX`, the capacity of SRC in bytes. -/
  srcMax : Nat
  /-- `DST_MAX`, the capacity of DST in bytes; `none` is unbounded. -/
  dstMax : Option Nat
  /-- The chooser of `COMP`. -/
  chooser : Chooser
deriving DecidableEq, Repr

/-- The constraints R7 puts on the capacities. -/
def Config.wf (c : Config) : Bool :=
  decide (c.srcMax ≤ 2 ^ 32 - 1) && (match c.dstMax with
    | none => true
    | some m => decide (16 ≤ m))

/-- FREE VALUE (log 3): the byte at address `a` of SRC, after `resets` resets, while nothing has written it (R27, U8). -/
opaque Config.unwrittenSrc (resets a : Nat) : Byte

/-- FREE VALUE (log 3): the byte at address `a` of DST, after `resets` resets, while nothing has written it (R27, U1). -/
opaque Config.unwrittenDst (resets a : Nat) : Byte

/-- FREE VALUE (log 4): what the host reads at address `a` of DST where the spec leaves the content unspecified to the
host (R18, R153, R171, U1), after `resets` resets and `runs` accepted commands. -/
opaque Config.unspecifiedDst (resets runs a : Nat) : Byte

/-- FREE VALUE (log 18): the item that the conforming compressor number `id` would like to emit at position `pos` of the
data `x`. The engine takes it only where R112 makes it valid there (R127). -/
opaque Config.freeItem (id : Nat) (x : List Byte) (pos : Nat) : Item

end Sys2Proof
end

