-- ==== Sys2Proof/Syntax.lean ====
section
/-! DEFINITION. The instructions of YZE: one constructor for each row of spec/opcode_table.json. Operands are the fields
of the spec's encodings (30_encoding R57 to R61, R71, R72), not yet assembled. -/

namespace Sys2Proof

/-- The tokens of a Yaz0 body, the control byte that opens a group, and the commands of `CMD[2:0]`. -/
inductive Instr where
  /-- `LIT`: the literal byte `d` (R59, R94). -/
  | lit (d : BitVec 8)
  /-- `REF`: short back-reference, `A = n:h`, `B = l`, `n` not zero (R60, R95). -/
  | ref (n h : BitVec 4) (l : BitVec 8)
  /-- `REFX`: long back-reference, `A = 0:h`, `B = l`, `C = c` (R61, R96). -/
  | refx (h : BitVec 4) (l c : BitVec 8)
  /-- `CTLF`: the control byte `k` of a group (R57, R92). -/
  | ctlf (k : BitVec 8)
  /-- `ISCOMP`, command code 1 (R71, R84). -/
  | iscomp
  /-- `DECOMP`, command code 2 (R71, R101). -/
  | decomp
  /-- `COMP`, command code 3 (R71, R128). -/
  | comp
  /-- `CRC16`, command code 4 (R71, R141). -/
  | crc16
  /-- `RESERVED_CMD`: command code `c`, one of 0, 5, 6, 7 (R72, R150). -/
  | reservedCmd (c : BitVec 3)
deriving DecidableEq, Repr

end Sys2Proof
end

