-- ==== Sys2Proof/Machine/State.lean ====
section
/-! DEFINITION. The state of YZE (spec 10_state), plain data: host-visible registers (R19), working registers (R22), the
two buffers (R17, R18), the configuration and the model's own fields. Also the reasons a step can stop, and reset (R27). -/

namespace Sys2Proof.Machine

/-- `STATUS[1:0]` (R19, R20). -/
inductive Status where
  | idle
  | busy
  | done
  | fault
deriving DecidableEq, Repr

/-- The fault recorded in `FAULT[2:0]` (R145). Code 7 is never produced and has no constructor (U5). -/
inductive FaultCode where
  | none
  | formatError
  | truncatedInput
  | badDistance
  | dstOverflow
  | badCommand
  | badLength
deriving DecidableEq, Repr

/-- The host-visible registers (R19). -/
inductive HostReg where
  | cmd
  | status
  | fault
  | srcLen
  | dstLen
  | result
deriving DecidableEq, Repr

/-- What the host can do (R16, R19, R51, R165 to R167, R170), and `tick`: the host lets the engine take one step. -/
inductive HostMove where
  /-- The engine takes one step. -/
  | tick
  /-- Writes a register; the value is as wide as the widest register. -/
  | writeReg (r : HostReg) (v : BitVec 33)
  /-- Reads a register. -/
  | readReg (r : HostReg)
  /-- Writes one byte of SRC. -/
  | writeSrc (a : Nat) (v : Byte)
  /-- Reads one byte of SRC. -/
  | readSrc (a : Nat)
  /-- Writes one byte of DST. -/
  | writeDst (a : Nat) (v : Byte)
  /-- Reads one byte of DST. -/
  | readDst (a : Nat)
  /-- Resets the block. -/
  | reset
deriving DecidableEq, Repr

/-- The contents of a buffer: (address, byte) cells, addresses strictly rising. An address that is not listed holds no
value here; `State.srcByte` and `State.dstByte` say what reading it gives (log 3). -/
abbrev Memory := List Host.Cell

/-- Why the model stops with a fault. None of these is a fault of YZE's own (those are next states, R153). -/
inductive Fault where
  /-- Raised by the meanings of DECOMP, COMP and CRC16 in a state in which no rule of R82's table applies (for example
  DECOMP running with `DP` past `DSIZE`). Safe: `State.Inv` rules it out in every state a run reaches. -/
  | noStep
  /-- Raised by the engine's writes of DST at an address that does not exist, where R9 defines no write. Safe:
  `State.Inv` rules it out in every state a run reaches. -/
  | dstAddress
  /-- Raised by a host move that names an address at or beyond the buffer's capacity (R17, R18). Safe. -/
  | hostAddress
deriving DecidableEq, Repr

/-- Why the model refuses to go on. -/
inductive Refusal where
  /-- Raised by `exec` for an instruction that has no meaning yet. Safe. No instruction is left without one. -/
  | notModelled (mnemonic : String)
  /-- Raised by host moves on SRC, DST or SRC_LEN while `STATUS = BUSY`, where the spec leaves the outcome unspecified and
  says to refuse (R51, R170, U3). Unsafe in the spec's own judgement: a host that breaks the protocol has no move in the
  model (log 8). -/
  | hostAccessWhileBusy
deriving DecidableEq, Repr

/-- How a rule's pseudocode can leave off: `raise` as the spec means it (R9, R153), or a stop of the model's own. -/
inductive Stop where
  | raise (f : FaultCode)
  | halt (f : Fault)
deriving DecidableEq, Repr

/-- The state of one YZE. -/
structure State where
  /-- Capacities and chooser (R7, R127); no step changes them. -/
  cfg : Config
  /-- `CMD` (R19). -/
  cmd : BitVec 3
  /-- `STATUS` (R19, R20). -/
  status : Status
  /-- `FAULT` (R19, R145). -/
  fault : FaultCode
  /-- `SRC_LEN` (R19). -/
  srcLen : BitVec 32
  /-- `DST_LEN` (R19). -/
  dstLen : BitVec 33
  /-- `RESULT` (R19). -/
  result : BitVec 16
  /-- `OP` (R22). -/
  op : BitVec 3
  /-- `SP` (R22, R23). -/
  sp : BitVec 32
  /-- `DP` (R22). -/
  dp : BitVec 33
  /-- `DSIZE` (R22). -/
  dsize : BitVec 32
  /-- `CTL` (R22). -/
  ctl : BitVec 8
  /-- `CNT` (R22). -/
  cnt : BitVec 4
  /-- `EP` (R22). -/
  ep : BitVec 32
  /-- `CTLPOS` (R22). -/
  ctlpos : BitVec 33
  /-- `NBITS` (R22). -/
  nbits : BitVec 3
  /-- `DEFER_V` (R22, R25). -/
  deferV : Bool
  /-- `DEFER_LEN` (R22, R25). -/
  deferLen : BitVec 9
  /-- `DEFER_POS` (R22, R25). -/
  deferPos : BitVec 32
  /-- `CRC` (R22). -/
  crc : BitVec 16
  /-- SRC (R17). -/
  src : Memory
  /-- DST (R18). -/
  dst : Memory
  /-- DEDUCED (log 6): CRC16's `SP` has run past `2^32 - 1`, on its way to `SRC_LEN + 2` (R22, R28). -/
  spCarry : Bool
  /-- DEDUCED (log 5): false from acceptance until the operation's start rule has run (R80, R82). -/
  started : Bool
  /-- MODEL (log 7): the host's moves still to come, in order. -/
  moves : List HostMove
  /-- MODEL (log 12): the value the host's last read returned. -/
  rdata : BitVec 33
  /-- MODEL (log 3): how many resets there have been; selects the free values of unwritten bytes. -/
  resets : Nat
  /-- MODEL (log 4): how many commands have been accepted; selects the free values the host reads. -/
  runs : Nat
deriving DecidableEq, Repr

/-- The state right after reset (R27, R165). DESIGN CHOICE (log 1): the capacities R7 suggests. DESIGN CHOICE (log 2):
the working registers other than `DEFER_V`, which R27 leaves unspecified, are zero. -/
def State.reset : State where
  cfg := { srcMax := 2 ^ 32 - 1, dstMax := none, chooser := .reference }
  cmd := 0
  status := .idle
  fault := .none
  srcLen := 0
  dstLen := 0
  result := 0
  op := 0
  sp := 0
  dp := 0
  dsize := 0
  ctl := 0
  cnt := 0
  ep := 0
  ctlpos := 0
  nbits := 0
  deferV := false
  deferLen := 0
  deferPos := 0
  crc := 0
  src := []
  dst := []
  spCarry := false
  started := false
  moves := []
  rdata := 0
  resets := 0
  runs := 0

end Sys2Proof.Machine
end

