-- ==== Sys2Proof/Machine/Ops.lean ====
section
/-! DEFINITION. The operations every meaning shares: reading and writing the buffers (spec 20_memory), fault entry (R153),
the way out of a fault (R155), completion (R83). -/

namespace Sys2Proof.Machine

/-! ## Memory -/

/-- The byte listed at an address, if one is. -/
def Memory.read : Memory → Nat → Option Byte
  | [], _ => none
  | (b, w) :: m, a => if a = b then some w else Memory.read m a

/-- Writing one byte keeps the addresses strictly rising. -/
def Memory.write (a : Nat) (v : Byte) : Memory → Memory
  | [] => [(a, v)]
  | (b, w) :: m =>
    if a < b then (a, v) :: (b, w) :: m
    else if a = b then (a, v) :: m
    else (b, w) :: Memory.write a v m

/-- The canonical form: addresses strictly rising. An unlisted address holds no value, so no entry can equal one. -/
def Memory.wf : Memory → Bool
  | [] => true
  | [_] => true
  | c :: d :: m => decide (c.1 < d.1) && Memory.wf (d :: m)

/-! ## Reading and writing the buffers -/

/-- `MemRead(SRC, a, 1)` (R9). A byte that nothing has written is a free value (log 3). -/
def State.srcByte (s : State) (a : Nat) : Byte :=
  match Memory.read s.src a with
  | some v => v
  | none => Config.unwrittenSrc s.resets a

/-- `MemRead(DST, a, 1)` (R9). A byte that nothing has written is a free value (log 3). -/
def State.dstByte (s : State) (a : Nat) : Byte :=
  match Memory.read s.dst a with
  | some v => v
  | none => Config.unwrittenDst s.resets a

/-- The operation's input, `SRC[0..SRC_LEN)` (R17). -/
def State.input (s : State) : List Byte := (List.range s.srcLen.toNat).map s.srcByte

/-- The first `n` bytes of DST. -/
def State.output (s : State) (n : Nat) : List Byte := (List.range n).map s.dstByte

/-- At most `k` bytes of the input from address `a` on: those below `SRC_LEN` (R49). -/
def State.window (s : State) : Nat → Nat → List Byte
  | _, 0 => []
  | a, k + 1 => if a < s.srcLen.toNat then s.srcByte a :: State.window s (a + 1) k else []

/-- Whether `DST[a]` exists (R18). -/
def State.inDst (s : State) (a : Nat) : Bool :=
  match s.cfg.dstMax with
  | none => true
  | some m => decide (a < m)

/-- `DST[a]` becomes `v`. -/
def State.storeDst (s : State) (a : Nat) (v : Byte) : State := { s with dst := Memory.write a v s.dst }

/-- `SRC[a]` becomes `v`. -/
def State.storeSrc (s : State) (a : Nat) (v : Byte) : State := { s with src := Memory.write a v s.src }

/-- `MemWrite(DST, a, 1, v)`, defined only below `DST_MAX` (R9). -/
def writeDst (a : Nat) (v : Byte) (s : State) : Except Stop State :=
  if s.inDst a then .ok (s.storeDst a v) else .error (.halt .dstAddress)

/-- Writes a sequence of bytes to DST from address `a` on, lowest address first (R50). -/
def writeDstList : Nat → List Byte → State → Except Stop State
  | _, [], s => .ok s
  | a, v :: vs, s => (writeDst a v s).bind (writeDstList (a + 1) vs)

/-! ## Faults, their end, and completion -/

/-- Fault entry (R153): the fault's code, `STATUS`, and no result. -/
def State.raise (s : State) (f : FaultCode) : State :=
  { s with fault := f, status := .fault, dstLen := 0, result := 0 }

/-- What an accepted command write does before its checks (R80): it latches the code and clears the last operation's
results; this is the only way out of a fault but for reset (R155). -/
def State.latchCommand (s : State) (c : BitVec 3) : State :=
  { s with cmd := c, op := c, fault := .none, dstLen := 0, result := 0, started := false, runs := s.runs + 1 }

/-- Completion (R83). -/
def State.complete (s : State) (dstLen : BitVec 33) (result : BitVec 16) : State :=
  { s with dstLen := dstLen, result := result, status := .done }

/-- The outcome of an engine step that began in `s`: a raised fault replaces the step's whole effect by fault entry
(R98, R122, R153). -/
def finish (s : State) : Except Stop State → Host.Outcome State Fault Refusal
  | .ok t => .next t
  | .error (.raise f) => .next (s.raise f)
  | .error (.halt f) => .fault f

end Sys2Proof.Machine
end

