-- ==== Sys2Proof/WellFormed.lean ====
section
/-! DEFINITION. Which terms of `Instr` are instructions of YZE. -/

namespace Sys2Proof

/-- A short back-reference has a length nibble other than 0, which would select the long form (R60, R65). The reserved
command codes are 0, 5, 6 and 7 (R72). Every other operand is free (R66). -/
def Instr.wf : Instr → Bool
  | .ref n _ _ => n != 0
  | .reservedCmd c => c == 0 || c == 5 || c == 6 || c == 7
  | .lit _ => true
  | .refx _ _ _ => true
  | .ctlf _ => true
  | .iscomp => true
  | .decomp => true
  | .comp => true
  | .crc16 => true

end Sys2Proof
end

