-- ==== Sys2Proof/Decode.lean ====
section
/-! DEFINITION. Decoding (spec 30_encoding R57 to R66, R71, R72) and encoding. YZE's instructions stand in three places: a
token is a control bit and the bytes that follow, a control byte is a byte of the body, a command is the value written to
`CMD[2:0]`. `Code` says which. -/

namespace Sys2Proof

/-- Where an instruction's bits stand. -/
inductive Code where
  /-- A token: the control bit taken from `CTL[7]` and the bytes of SRC from `SP` on (R64, R65). -/
  | token (ctl : Bool) (bytes : List Byte)
  /-- The bytes of SRC from `SP` on where a control byte is due (R57). -/
  | control (bytes : List Byte)
  /-- The value of `CMD[2:0]` (R71). -/
  | command (c : BitVec 3)
deriving DecidableEq, Repr

/-- Why bytes do not decode. No bit pattern is illegal (R66); bytes can only be missing (R147). -/
inductive DecodeError where
  /-- No byte where a control byte is due (R147 b). -/
  | missingControl
  /-- No byte for a literal (R147 c). -/
  | missingLiteral
  /-- Fewer than two bytes for a back-reference (R147 d). -/
  | missingReference
  /-- No third byte for a long back-reference (R147 e). -/
  | missingLength
deriving DecidableEq, Repr

/-- The high nibble `A[7:4]` of a back-reference's first byte. -/
def highNibble (a : Byte) : BitVec 4 := a.extractLsb' 4 4

/-- The low nibble `A[3:0]` of a back-reference's first byte. -/
def lowNibble (a : Byte) : BitVec 4 := a.extractLsb' 0 4

/-- A back-reference from its bytes (R60, R61, R64): the high nibble of A tells the long form from the short one. -/
def decodeReference : List Byte → Except DecodeError (Instr × List Byte)
  | a :: b :: rest =>
    if highNibble a = 0 then
      match rest with
      | c :: rest' => .ok (.refx (lowNibble a) b c, rest')
      | [] => .error .missingLength
    else .ok (.ref (highNibble a) (lowNibble a) b, rest)
  | _ => .error .missingReference

/-- A token from its control bit and the bytes that follow (R58, R59, R64), with the bytes left over. -/
def decodeToken (ctl : Bool) (bytes : List Byte) : Except DecodeError (Instr × List Byte) :=
  match ctl, bytes with
  | true, d :: rest => .ok (.lit d, rest)
  | true, [] => .error .missingLiteral
  | false, bytes => decodeReference bytes

/-- A control byte: any value (R57, R92). -/
def decodeControl : List Byte → Except DecodeError (Instr × List Byte)
  | k :: rest => .ok (.ctlf k, rest)
  | [] => .error .missingControl

/-- A command code (R71, R72): total, since every other value of `CMD[2:0]` is a reserved command. -/
def decodeCommand (c : BitVec 3) : Instr :=
  if c = 1 then .iscomp
  else if c = 2 then .decomp
  else if c = 3 then .comp
  else if c = 4 then .crc16
  else .reservedCmd c

/-- The instruction that stands in a code, with the bytes left over. -/
def decode : Code → Except DecodeError (Instr × List Byte)
  | .token ctl bytes => decodeToken ctl bytes
  | .control bytes => decodeControl bytes
  | .command c => .ok (decodeCommand c, [])

/-- The code of an instruction, from the same tables: R59 to R61 for the tokens, R57 for the control byte, R71 and R72
for the commands. -/
def encode : Instr → Code
  | .lit d => .token true [d]
  | .ref n h l => .token false [n ++ h, l]
  | .refx h l c => .token false [(0 : BitVec 4) ++ h, l, c]
  | .ctlf k => .control [k]
  | .iscomp => .command 1
  | .decomp => .command 2
  | .comp => .command 3
  | .crc16 => .command 4
  | .reservedCmd c => .command c

/-- The bytes of a code; a command has none. -/
def Code.bytes : Code → List Byte
  | .token _ bs => bs
  | .control bs => bs
  | .command _ => []

/-- A code followed by further bytes of the stream; a command stands alone. -/
def Code.followedBy : Code → List Byte → Code
  | .token ctl bs, more => .token ctl (bs ++ more)
  | .control bs, more => .control (bs ++ more)
  | .command c, _ => .command c

/-- The bytes of the stream that are left after a code's instruction when `more` follows it. -/
def Code.leftover : Code → List Byte → List Byte
  | .token _ _, more => more
  | .control _, more => more
  | .command _, _ => []

/-- The 8 bits of `w` from bit `8 * k` on. -/
def tableByte (w k : Nat) : Byte := BitVec.ofNat 8 (w >>> (8 * k))

/-- A word of the opcode table as a code. DESIGN CHOICE (log 22): a word of 9 to 16, 17 to 24 or 25 to 32 bits is a token
word (R65), its control bit above its bytes and the first byte highest. Of the words of at most 8 bits, which the table
gives to commands and to control bytes alike, the values 1 to 7 are commands and so is 0 in fewer than 8 bits; the others
are control bytes. Bytes the word has no bits for are zero. -/
def tableCode (nbits w : Nat) : Option Code :=
  if nbits ≤ 8 then
    if w < 8 ∧ (w ≠ 0 ∨ nbits < 8) then some (.command (BitVec.ofNat 3 w))
    else if w < 256 then some (.control [tableByte w 0])
    else none
  else if nbits ≤ 16 then some (.token (w.testBit 8) [tableByte w 0, 0, 0])
  else if nbits ≤ 24 then some (.token (w.testBit 16) [tableByte w 1, tableByte w 0, 0])
  else if nbits ≤ 32 then some (.token (w.testBit 24) [tableByte w 2, tableByte w 1, tableByte w 0])
  else none

/-- The instruction the decoder reads from a word numbered as spec/opcode_table.json numbers it. -/
def decodeTableWord (nbits w : Nat) : Option Instr :=
  match tableCode nbits w with
  | none => none
  | some c =>
    match decode c with
    | .ok (i, _) => some i
    | .error _ => none

end Sys2Proof
end

