-- ==== Sys2Proof/Machine/Operands.lean ====
section
/-! DEFINITION. Operand assembly (spec 30_encoding R62, R63), its inverse, and the byte layout of the header (R41, R56). -/

namespace Sys2Proof.Machine

/-- The distance of a back-reference, `((A & 0xF) << 8 | B) + 1` (R62). -/
def distance (h : BitVec 4) (l : BitVec 8) : Nat := (h ++ l).toNat + 1

/-- The length of a short back-reference, `(A >> 4) + 2` (R63). -/
def shortLength (n : BitVec 4) : Nat := n.toNat + 2

/-- The length of a long back-reference, `C + 0x12` (R63). -/
def longLength (c : BitVec 8) : Nat := c.toNat + 0x12

/-- The greatest length of the two-byte form, `SHORT_MAX` (R6). -/
def shortMax : Nat := 0x11

/-- The instruction that says a distance and a length, the encoding direction of R62 and R63. DESIGN CHOICE (log 28): a
distance outside `1..4096` or a length outside `3..273` cannot be encoded (R62, R63), so it has no bytes in the spec; this total
function then cuts the fields to their 4 and 8 bits, and answers a term that stands for another reference or is ill-formed. -/
def referenceInstr (d l : Nat) : Instr :=
  let f := d - 1
  if l ≤ shortMax then .ref (BitVec.ofNat 4 (l - 2)) (BitVec.ofNat 4 (f >>> 8)) (BitVec.ofNat 8 (f &&& 0xFF))
  else .refx (BitVec.ofNat 4 (f >>> 8)) (BitVec.ofNat 8 (f &&& 0xFF)) (BitVec.ofNat 8 (l - 0x12))

/-- The token of a parse item (R114). -/
def itemInstr : Item → Instr
  | .lit b => .lit b
  | .ref d l => referenceInstr d l

/-- How many bytes of the data an item covers (R112). -/
def itemSpan : Item → Nat
  | .lit _ => 1
  | .ref _ l => l

/-- The token bytes of a parse item (R114, R119, R120). -/
def itemBytes (it : Item) : List Byte := (encode (itemInstr it)).bytes

/-- The magic "Yaz0", `59 61 7A 30`. UNVERIFIED (log 17, G4): the ASCII codes. -/
def magic : List Byte := [0x59, 0x61, 0x7A, 0x30]

/-- `BE32` of four bytes (R9, R41): the first byte is the most significant. -/
def readBE32 (b0 b1 b2 b3 : Byte) : BitVec 32 := b0 ++ b1 ++ b2 ++ b3

/-- `be32` (R9, R41). -/
def be32 (v : BitVec 32) : List Byte :=
  [v.extractLsb' 24 8, v.extractLsb' 16 8, v.extractLsb' 8 8, v.extractLsb' 0 8]

/-- The header of a stream for data of length `m`, `Hdr(m)` (R56, R115): magic, size, eight reserved zero bytes. -/
def header (m : BitVec 32) : List Byte := magic ++ be32 m ++ List.replicate 8 0

/-- The length of a header, `HDR_LEN` (R6). -/
def headerLength : Nat := 16

end Sys2Proof.Machine
end

