-- ==== Sys2Proof/Machine/Search.lean ====
section
/-! DEFINITION. The compressor's choice of tokens (spec 42_compress): valid items (R112), the reference engine's search
and choice (R116, R117), and any other conforming compressor's (R127). -/

namespace Sys2Proof.Machine

/-- The greatest distance, `WINDOW` (R6). -/
def windowSize : Nat := 0x1000

/-- The least length of a back-reference, `MIN_LEN` (R6). -/
def minLength : Nat := 3

/-- The greatest length of a back-reference, `MAX_LEN` (R6). -/
def maxLength : Nat := 0x111

/-- How much longer the deferred match must be, `LAZY_GAIN` (R6). -/
def lazyGain : Nat := 2

/-- Whether an item may stand at position `pos` of a parse of `x` (R112). -/
def validAt (x : List Byte) (pos : Nat) : Item → Bool
  | .lit b => x[pos]? == some b
  | .ref d l =>
    decide (minLength ≤ l) && decide (l ≤ maxLength) && decide (1 ≤ d) && decide (d ≤ windowSize) && decide (d ≤ pos)
      && decide (pos + l ≤ x.length) && (List.range l).all fun k => x[pos + k]? == x[pos - d + k]?

/-- How many of the first `cap` bytes of two sequences agree (the inner loop of R116). -/
def matchLength : Nat → List Byte → List Byte → Nat
  | cap + 1, a :: as, b :: bs => if a = b then matchLength cap as bs + 1 else 0
  | _, _, _ => 0

/-- The length of the match that starts at `i` for the data at `pos` (R116). -/
def matchAt (x : List Byte) (pos i : Nat) : Nat :=
  matchLength (min (x.length - pos) maxLength) (x.drop i) (x.drop pos)

/-- `Search(pos)` (R116): the candidates in ascending order, a longer match replacing the best so far. The answer is the
length and the start of the best match. -/
def search (x : List Byte) (pos : Nat) : Nat × Nat :=
  let lo := pos - windowSize
  (List.range' lo (pos - lo)).foldl
    (fun best i => let j := matchAt x pos i; if best.1 < j then (j, i) else best) (0, 0)

/-- The literal at a position of the data; past the data, where R117 chooses nothing, it is `Lit(0)` (DESIGN CHOICE, log 28). -/
def literalAt (x : List Byte) (pos : Nat) : Item := .lit (x.getD pos 0)

/-- The item for a match of length `l` that starts at `q`: a literal where the match is too short (R117). DESIGN CHOICE
(log 28): a match that starts after `pos`, which no search answers, gets distance 0. -/
def takeMatch (x : List Byte) (pos l q : Nat) : Item :=
  if minLength ≤ l then .ref (pos - q) l else literalAt x pos

/-- `Choose` of the reference engine (R117): the item for position `pos` and the deferred match to carry, given the one
that was carried here. -/
def chooseReference (x : List Byte) (pos : Nat) : Option (Nat × Nat) → Item × Option (Nat × Nat)
  | some (l, q) => (takeMatch x pos l q, none)
  | none =>
    let best := search x pos
    if minLength ≤ best.1 then
      let next := search x (pos + 1)
      if best.1 + lazyGain ≤ next.1 then (literalAt x pos, some next)
      else (takeMatch x pos best.1 best.2, none)
    else (literalAt x pos, none)

/-- Another conforming compressor's choice (R127): any valid item, a free value (log 18); a literal where the free item is
not valid. -/
def chooseOther (id : Nat) (x : List Byte) (pos : Nat) : Item :=
  let it := Config.freeItem id x pos
  if validAt x pos it then it else literalAt x pos

/-- The item for position `pos` and the deferred match to carry. -/
def choose (ch : Chooser) (x : List Byte) (pos : Nat) (carried : Option (Nat × Nat)) : Item × Option (Nat × Nat) :=
  match ch with
  | .reference => chooseReference x pos carried
  | .other id => (chooseOther id x pos, none)

end Sys2Proof.Machine
end

