-- ==== Sys2Proof/Machine/Comp.lean ====
section
/-! DEFINITION. COMP (spec 42_compress): the start step R110 and the token step R122 with the emission of R119 to R121. -/

namespace Sys2Proof.Machine

/-- The deferred match that is being carried, if one is (R25). -/
def State.deferred (s : State) : Option (Nat × Nat) :=
  if s.deferV then some (s.deferLen.toNat, s.deferPos.toNat) else none

/-- Sets or clears the deferred match (R117); clearing leaves `DEFER_LEN` and `DEFER_POS` as they are. -/
def State.setDeferred (s : State) : Option (Nat × Nat) → State
  | some (l, q) => { s with deferV := true, deferLen := BitVec.ofNat 9 l, deferPos := BitVec.ofNat 32 q }
  | none => { s with deferV := false }

/-- The encoder's write of the next output byte (R119 to R121): DstOverflow where it does not fit (R123). -/
def putByte (v : Byte) (s : State) : Except Stop State :=
  if s.inDst s.dp.toNat then .ok { s.storeDst s.dp.toNat v with dp := s.dp + 1 }
  else .error (.raise .dstOverflow)

/-- Puts several bytes, in order (R120). -/
def putBytes : List Byte → State → Except Stop State
  | [], s => .ok s
  | v :: vs, s => (putByte v s).bind (putBytes vs)

/-- `OpenGroupIfNeeded` (R121). -/
def openGroup (s : State) : Except Stop State :=
  if s.nbits = 0 then putByte 0 { s with ctlpos := s.dp } else .ok s

/-- `SetLiteralBit` (R121). -/
def setLiteralBit (s : State) : Except Stop State :=
  writeDst s.ctlpos.toNat (s.dstByte s.ctlpos.toNat ||| ((0x80 : Byte) >>> s.nbits.toNat)) s

/-- `EP` past the bytes covered, and `CloseToken` (R119 to R121). -/
def State.closeToken (s : State) (span : Nat) : State :=
  { s with ep := s.ep + BitVec.ofNat 32 span, nbits := s.nbits + 1 }

/-- Emission of `Lit(b)` (R119). -/
def emitLit (b : Byte) (s : State) : Except Stop State :=
  (openGroup s).bind fun s => (setLiteralBit s).bind fun s => (putByte b s).map fun s => s.closeToken 1

/-- Emission of `Ref(d, l)` (R120). -/
def emitRef (d l : Nat) (s : State) : Except Stop State :=
  (openGroup s).bind fun s => (putBytes (itemBytes (.ref d l)) s).map fun s => s.closeToken l

/-- Emission of an item (R122). -/
def emitItem : Item → State → Except Stop State
  | .lit b, s => emitLit b s
  | .ref d l, s => emitRef d l s

/-- The start step (R110): the header, the encoder's registers, no deferred match (R118); done at once for empty input. -/
def compStart (s : State) : Except Stop State :=
  (writeDstList 0 (header s.srcLen) s).map fun s =>
    let s := { s with dp := 16, ep := 0, nbits := 0, ctlpos := 0, deferV := false, started := true }
    if s.srcLen = 0 then s.complete 16 0 else s

/-- One token step (R122), taken while `EP < SRC_LEN`. -/
def compStep (s : State) : Except Stop State :=
  if s.ep.toNat < s.srcLen.toNat then
    let pick := choose s.cfg.chooser s.input s.ep.toNat s.deferred
    (emitItem pick.1 (s.setDeferred pick.2)).map fun s =>
      if s.ep = s.srcLen then s.complete s.dp 0 else s
  else .error (.halt .noStep)

/-- The meaning of `COMP`: one engine step of the operation (R82), the start step first, then token steps (R128). -/
def execComp (s : State) : Host.Outcome State Fault Refusal :=
  finish s (if s.started then compStep s else compStart s)

end Sys2Proof.Machine
end

