-- ==== Sys2Proof/Machine/Crc16.lean ====
section
/-! DEFINITION. CRC16 (spec 43_crc16): the start step R136 and the byte step R138. -/

namespace Sys2Proof.Machine

/-- The register's value before the first bit, `CRC_SEED` (R6, R136). -/
def crcSeed : BitVec 16 := 0x8000

/-- The feedback constant, `CRC_POLY` (R6, R138). UNVERIFIED (log 16, G1). -/
def crcPoly : BitVec 16 := 0x8408

/-- How many virtual zero bytes follow the data, `CRC_AUG` (R6, R137). -/
def crcAugment : Nat := 2

/-- One bit-step (R138). UNVERIFIED (log 16, G2): the data bit enters at bit 15, the feedback is the bit shifted out. -/
def crcBit (crc : BitVec 16) (inbit : Bool) : BitVec 16 :=
  let shifted := (crc >>> 1) ||| (if inbit then 0x8000 else 0)
  if crc.getLsbD 0 then shifted ^^^ crcPoly else shifted

/-- The eight bit-steps of a byte (R138, R139). UNVERIFIED (log 16, G2): least significant bit first. -/
def crcByte (crc : BitVec 16) (v : Byte) : BitVec 16 :=
  (List.range 8).foldl (fun c k => crcBit c (v.getLsbD k)) crc

/-- The start step (R136). -/
def crcStart (s : State) : State := { s with crc := crcSeed, sp := 0, spCarry := false, started := true }

/-- The number that R138 calls `SP`: the register, and the carry out of its 32 bits (log 6). -/
def State.crcIndex (s : State) : Nat := s.sp.toNat + (if s.spCarry then 2 ^ 32 else 0)

/-- `SP <- SP + 1` in CRC16 (R138), its carry kept (log 6). -/
def State.advanceCrc (s : State) : State :=
  { s with sp := s.sp + 1, spCarry := s.spCarry || s.sp == BitVec.allOnes 32 }

/-- The byte that the byte step takes (R137, R138): past the data the engine supplies zero. -/
def State.crcInput (s : State) : Byte := if s.crcIndex < s.srcLen.toNat then s.srcByte s.crcIndex else 0

/-- The byte step (R138), taken while `SP < SRC_LEN + 2`, and completion (R140). -/
def crcStep (s : State) : Except Stop State :=
  if s.crcIndex < s.srcLen.toNat + crcAugment then
    let t := { s.advanceCrc with crc := crcByte s.crc s.crcInput }
    .ok (if t.crcIndex = t.srcLen.toNat + crcAugment then t.complete 0 t.crc else t)
  else .error (.halt .noStep)

/-- The meaning of `CRC16`: one engine step of the operation (R82), the start step first, then byte steps (R141). -/
def execCrc16 (s : State) : Host.Outcome State Fault Refusal :=
  finish s (if s.started then crcStep s else .ok (crcStart s))

end Sys2Proof.Machine
end

