-- ==== Sys2Proof/Machine/Flags.lean ====
section
/-! DEFINITION. YZE has no arithmetic condition codes; its only status bits are STATUS, FAULT, bit 0 of RESULT after ISCOMP
and DEFER_V (spec 10_state R24). This file gives their numbers (R19, R20, R145) and how a host read sees a register. -/

namespace Sys2Proof.Machine

/-- The value of `STATUS[1:0]` (R19). -/
def Status.code : Status → BitVec 2
  | .idle => 0
  | .busy => 1
  | .done => 2
  | .fault => 3

/-- The value of `FAULT[2:0]` (R145). -/
def FaultCode.code : FaultCode → BitVec 3
  | .none => 0
  | .formatError => 1
  | .truncatedInput => 2
  | .badDistance => 3
  | .dstOverflow => 4
  | .badCommand => 5
  | .badLength => 6

/-- The number of a register on the host interface (R19). -/
def HostReg.number : HostReg → Nat
  | .cmd => 0
  | .status => 1
  | .fault => 2
  | .srcLen => 3
  | .dstLen => 4
  | .result => 5

/-- `RESULT` after ISCOMP: bit 0 is the answer, bits 15:1 are 0 (R19, R84). -/
def answer (b : Bool) : BitVec 16 := if b then 1 else 0

/-- What the host reads from a register (R19): `CMD` is write-only and reads as 0. -/
def State.readReg (s : State) : HostReg → BitVec 33
  | .cmd => 0
  | .status => s.status.code.setWidth 33
  | .fault => s.fault.code.setWidth 33
  | .srcLen => s.srcLen.setWidth 33
  | .dstLen => s.dstLen
  | .result => s.result.setWidth 33

end Sys2Proof.Machine
end

