-- ==== Sys2Proof/Machine/Commands.lean ====
section
/-! DEFINITION. Command acceptance (spec 40_commands R80, R81), ISCOMP (R84) and the reserved command codes (R72, R150). -/

namespace Sys2Proof.Machine

/-- The first four bytes of SRC are the magic; the caller has checked that there are four (R84, R90). -/
def State.hasMagic (s : State) : Bool := [s.srcByte 0, s.srcByte 1, s.srcByte 2, s.srcByte 3] == magic

/-- A host write of `c` to `CMD` (R80, R81): ignored while BUSY; otherwise BadCommand, BadLength or BUSY, in that order
(R152). -/
def acceptCommand (c : BitVec 3) (s : State) : State :=
  if s.status = .busy then s
  else if ¬ (c = 1 ∨ c = 2 ∨ c = 3 ∨ c = 4) then (s.latchCommand c).raise .badCommand
  else if s.cfg.srcMax < s.srcLen.toNat then (s.latchCommand c).raise .badLength
  else { s.latchCommand c with status := .busy }

/-- ISCOMP's question (R84): the length test is strict, and no byte is read unless it holds. -/
def isCompStep (s : State) : State :=
  s.complete 0 (answer (if 16 < s.srcLen.toNat then s.hasMagic else false))

/-- The meaning of `ISCOMP`: the whole operation is one step (R82, R84). -/
def execIscomp (s : State) : Host.Outcome State Fault Refusal := .next (isCompStep s)

/-- The meaning of `RESERVED_CMD` (R72, R81, R150): written while the engine is not BUSY it raises BadCommand at once. -/
def execReservedCmd (c : BitVec 3) (s : State) : Host.Outcome State Fault Refusal :=
  .next (if s.status = .busy then s else (s.latchCommand c).raise .badCommand)

end Sys2Proof.Machine
end

