-- ==== Sys2Proof/Machine/Tokens.lean ====
section
/-! DEFINITION. The tokens of a Yaz0 body and the control byte (spec 41_decompress R91 to R97). The control bit belongs to
the token (R65), so a token's meaning takes it (R93), and ends with the stop rule's test (R91, R98). -/

namespace Sys2Proof.Machine

/-- `CBIT` (R93): the control bits shift up by one and one fewer is left. The bit taken is `CTL[7]` before. -/
def State.takeBit (s : State) : State := { s with ctl := s.ctl <<< 1, cnt := s.cnt - 1 }

/-- Moves `SP` past `k` fetched bytes (R23). -/
def State.advanceSp (s : State) (k : BitVec 32) : State := { s with sp := s.sp + k }

/-- The stop rule's test after a token (R91, R98): DECOMP is complete when `DP = DSIZE`. -/
def stopIfFull (s : State) : State :=
  if s.dp.toNat = s.dsize.toNat then s.complete (s.dsize.setWidth 33) 0 else s

/-- Appends a byte to the output: `DST[DP]`, then `DP` (R94, R97). -/
def appendDst (v : Byte) (s : State) : Except Stop State :=
  (writeDst s.dp.toNat v s).map fun t => { t with dp := t.dp + 1 }

/-- `CopyBack(dist, len)` (R97): one byte read, one byte written, `len` times or until `DP = DSIZE`. -/
def copyBack (dist : Nat) : Nat → State → Except Stop State
  | 0, s => .ok s
  | k + 1, s =>
    if s.dp.toNat = s.dsize.toNat then .ok s
    else (appendDst (s.dstByte (s.dp.toNat - dist)) s).bind (copyBack dist k)

/-- Fails with TruncatedInput unless `k` more bytes of SRC remain from `SP` on (R92, R94 to R96, R147). -/
def needBytes (k : Nat) (s : State) : Except Stop State :=
  if s.sp.toNat + k ≤ s.srcLen.toNat then .ok s else .error (.raise .truncatedInput)

/-- Copies back from the output, which must reach back that far (R95, R96, R148). -/
def copyChecked (dist len : Nat) (s : State) : Except Stop State :=
  if s.dp.toNat < dist then .error (.raise .badDistance) else copyBack dist len s

/-- `CTLF` (R92): only when `CNT = 0` is a control byte due, and then it must be there. -/
def controlByte (k : Byte) (s : State) : Except Stop State :=
  if s.cnt = 0 then
    (needBytes 1 s).map fun s => { s.advanceSp 1 with ctl := k, cnt := 8 }
  else .ok s

/-- `LIT` (R93, R94, R91). -/
def litToken (d : Byte) (s : State) : Except Stop State :=
  ((needBytes 1 s.takeBit).bind fun s => appendDst d (s.advanceSp 1)).map stopIfFull

/-- `REF` (R93, R95, R91). -/
def refToken (n h : BitVec 4) (l : BitVec 8) (s : State) : Except Stop State :=
  ((needBytes 2 s.takeBit).bind fun s =>
    copyChecked (distance h l) (shortLength n) (s.advanceSp 2)).map stopIfFull

/-- `REFX` (R93, R96, R91): bytes A and B are fetched first, then C, and only then is the distance judged (R152). -/
def refxToken (h : BitVec 4) (l c : BitVec 8) (s : State) : Except Stop State :=
  ((needBytes 2 s.takeBit).bind fun s =>
    (needBytes 1 (s.advanceSp 2)).bind fun s =>
      copyChecked (distance h l) (longLength c) (s.advanceSp 1)).map stopIfFull

/-- The effect of a decoded token; only the three token forms can stand where a token is due (R58, R66). -/
def tokenEffect : Instr → State → Except Stop State
  | .lit d, s => litToken d s
  | .ref n h l, s => refToken n h l s
  | .refx h l c, s => refxToken h l c s
  | _, _ => .error (.halt .noStep)

/-- The meaning of `LIT`. -/
def execLit (d : BitVec 8) (s : State) : Host.Outcome State Fault Refusal := finish s (litToken d s)

/-- The meaning of `REF`. -/
def execRef (n h : BitVec 4) (l : BitVec 8) (s : State) : Host.Outcome State Fault Refusal :=
  finish s (refToken n h l s)

/-- The meaning of `REFX`. -/
def execRefx (h : BitVec 4) (l c : BitVec 8) (s : State) : Host.Outcome State Fault Refusal :=
  finish s (refxToken h l c s)

/-- The meaning of `CTLF`. -/
def execCtlf (k : BitVec 8) (s : State) : Host.Outcome State Fault Refusal := finish s (controlByte k s)

end Sys2Proof.Machine
end

