-- ==== Sys2Proof/Machine/Decomp.lean ====
section
/-! DEFINITION. DECOMP (spec 41_decompress): the start step R90 and the token step R98. -/

namespace Sys2Proof.Machine

/-- The declared size (R41, R90). -/
def State.declaredSize (s : State) : BitVec 32 := readBE32 (s.srcByte 4) (s.srcByte 5) (s.srcByte 6) (s.srcByte 7)

/-- Whether `n` bytes fit DST (R90, R149). -/
def State.fitsDst (s : State) (n : Nat) : Bool :=
  match s.cfg.dstMax with
  | none => true
  | some m => decide (n ≤ m)

/-- The start step (R90): FormatError, TruncatedInput, DstOverflow in that order, then the interpreter's registers, then
the stop rule's test (R91). -/
def decompStart (s : State) : Except Stop State :=
  if s.srcLen.toNat < 4 ∨ s.hasMagic = false then .error (.raise .formatError)
  else if s.srcLen.toNat < 16 then .error (.raise .truncatedInput)
  else if s.fitsDst s.declaredSize.toNat = false then .error (.raise .dstOverflow)
  else .ok (stopIfFull
    { s with dsize := s.declaredSize, sp := 16, dp := 0, ctl := 0, cnt := 0, started := true })

/-- The control-byte fetch at the head of a token step (R92, R98): the byte at `SP`, if one is due. -/
def controlFetch (s : State) : Except Stop State :=
  if s.cnt = 0 then
    match decodeControl (s.window s.sp.toNat 1) with
    | .ok (.ctlf k, _) => controlByte k s
    | _ => .error (.raise .truncatedInput)
  else .ok s

/-- The token at `SP` (R64, R98), from the next control bit and the bytes that are left; bytes that are missing are
TruncatedInput (R147). -/
def fetchToken (s : State) : Except Stop Instr :=
  match decodeToken s.ctl.msb (s.window s.sp.toNat 3) with
  | .ok (i, _) => .ok i
  | .error _ => .error (.raise .truncatedInput)

/-- One token step (R98), taken while `DP < DSIZE`, also where the body is empty: the step then faults by R92. On that one input
(`SRC_LEN = 16`, a size above 0) DECOMP takes one step more than the bound that R174 and R102(a) infer (DEDUCED, log 29). -/
def decompStep (s : State) : Except Stop State :=
  if s.dp.toNat < s.dsize.toNat then
    (controlFetch s).bind fun s => (fetchToken s).bind fun i => tokenEffect i s
  else .error (.halt .noStep)

/-- The meaning of `DECOMP`: one engine step of the operation (R82), the start step first, then token steps (R101). -/
def execDecomp (s : State) : Host.Outcome State Fault Refusal :=
  finish s (if s.started then decompStep s else decompStart s)

end Sys2Proof.Machine
end

