-- ==== Sys2Proof/Machine/Dispatch.lean ====
section
/-! DEFINITION. One meaning for each row of spec/opcode_table.json. -/

namespace Sys2Proof.Machine

/-- What one instruction does: a token or control byte that DECOMP has fetched, one engine step of the command in `OP`
(spec 40_commands R82), or a reserved code written to `CMD`. -/
def exec (i : Instr) (s : State) : Host.Outcome State Fault Refusal :=
  match i with
  | .lit d => Sys2Proof.Machine.execLit d s
  | .ref n h l => Sys2Proof.Machine.execRef n h l s
  | .refx h l c => Sys2Proof.Machine.execRefx h l c s
  | .ctlf k => Sys2Proof.Machine.execCtlf k s
  | .iscomp => Sys2Proof.Machine.execIscomp s
  | .decomp => Sys2Proof.Machine.execDecomp s
  | .comp => Sys2Proof.Machine.execComp s
  | .crc16 => Sys2Proof.Machine.execCrc16 s
  | .reservedCmd c => Sys2Proof.Machine.execReservedCmd c s

end Sys2Proof.Machine
end

