-- ==== Sys2Proof/Machine/HostMoves.lean ====
section
/-! DEFINITION. What each of the host's moves does (spec 10_state R19, 20_memory R51, 70_reset R165 to R171). -/

namespace Sys2Proof.Machine

/-- Reset, in any state (R27, R165, R166): every field as after reset but the configuration, the host's later moves, and
the counters of free values, which go on so that unspecified contents are drawn afresh (log 2, log 3). -/
def State.resetMove (s : State) : State :=
  { State.reset with cfg := s.cfg, moves := s.moves, resets := s.resets + 1, runs := s.runs }

/-- A host write of a register (R19, R80, R81). Writes to read-only registers are ignored. -/
def hostWriteReg (r : HostReg) (v : BitVec 33) (s : State) : Host.Outcome State Fault Refusal :=
  match r with
  | .cmd =>
    match decodeCommand (v.setWidth 3) with
    | .reservedCmd c => execReservedCmd c s
    | _ => .next (acceptCommand (v.setWidth 3) s)
  | .srcLen =>
    if s.status = .busy then .refused .hostAccessWhileBusy else .next { s with srcLen := v.setWidth 32 }
  | .status => .next s
  | .fault => .next s
  | .dstLen => .next s
  | .result => .next s

/-- A host read of a register (R19). `SRC_LEN` may not be read while BUSY (R51). -/
def hostReadReg (r : HostReg) (s : State) : Host.Outcome State Fault Refusal :=
  if s.status = .busy ∧ r = .srcLen then .refused .hostAccessWhileBusy
  else .next { s with rdata := s.readReg r }

/-- What the host reads from DST (R18, R171): only `DST[0..DST_LEN)` while DONE is a result; any other byte is
unspecified to the host, a free value (log 4). -/
def State.hostDstByte (s : State) (a : Nat) : Byte :=
  if s.status = .done ∧ a < s.dstLen.toNat then s.dstByte a else Config.unspecifiedDst s.resets s.runs a

/-- A host access to a buffer: refused while BUSY (R51, R170, U3), a fault where the address does not exist. -/
def hostBuffer (s : State) (present : Bool) (t : State) : Host.Outcome State Fault Refusal :=
  if s.status = .busy then .refused .hostAccessWhileBusy
  else if present then .next t
  else .fault .hostAddress

/-- Whether `SRC[a]` exists (R17). -/
def State.inSrc (s : State) (a : Nat) : Bool := decide (a < s.cfg.srcMax)

/-- The effect of a host move other than `tick`; `tick` itself changes nothing here, `step` runs the engine for it. -/
def hostMove (m : HostMove) (s : State) : Host.Outcome State Fault Refusal :=
  match m with
  | .tick => .next s
  | .writeReg r v => hostWriteReg r v s
  | .readReg r => hostReadReg r s
  | .writeSrc a v => hostBuffer s (s.inSrc a) (s.storeSrc a v)
  | .readSrc a => hostBuffer s (s.inSrc a) { s with rdata := (s.srcByte a).setWidth 33 }
  | .writeDst a v => hostBuffer s (s.inDst a) (s.storeDst a v)
  | .readDst a => hostBuffer s (s.inDst a) { s with rdata := (s.hostDstByte a).setWidth 33 }
  | .reset => .next s.resetMove

end Sys2Proof.Machine
end

