-- ==== Sys2Proof/Machine/Step.lean ====
section
/-! DEFINITION. One step of the machine: the host's next move, or one engine step (spec 40_commands R82). -/

namespace Sys2Proof.Machine

/-- The engine's turn: while BUSY one step of the operation in `OP` (R82), otherwise nothing (R27, R154). -/
def engineStep (s : State) : Host.Outcome State Fault Refusal :=
  if s.status = .busy then exec (decodeCommand s.op) s else .next s

/-- One step: the first of the host's pending moves, or the engine's turn when the host lets it run or has no move. -/
def step (s : State) : Host.Outcome State Fault Refusal :=
  match s.moves with
  | [] => engineStep s
  | .tick :: rest => engineStep { s with moves := rest }
  | m :: rest => hostMove m { s with moves := rest }

/-- The state in which DECOMP is about to take a token step at `SP = 17` with the given control bit and bytes there. -/
def State.withBody (s : State) (sp : BitVec 32) (cnt : BitVec 4) (ctl : Byte) (bytes : List Byte) : State :=
  { s with
    moves := []
    status := .busy
    cmd := 2
    op := 2
    fault := .none
    started := true
    sp := sp
    cnt := cnt
    ctl := ctl
    dsize := if s.dp.toNat < s.dsize.toNat then s.dsize else s.dp.setWidth 32 + 1
    srcLen := 20
    src := (List.range bytes.length).foldl
      (fun m k => Memory.write (sp.toNat + k) (bytes.getD k 0) m) s.src }

/-- `s` with the instruction of a table word where the next step takes it from (log 21): a token or a control byte in SRC
at `SP` of a running DECOMP, a command latched in `OP` with the engine BUSY, a reserved code in the host's next write of
`CMD`. -/
def State.withFetchWord (s : State) (nbits w : Nat) : State :=
  match tableCode nbits w with
  | some (.token ctl bytes) => s.withBody 17 8 (if ctl then 0x80 else 0) bytes
  | some (.control bytes) => s.withBody 16 0 0 (bytes ++ [0, 0, 0])
  | some (.command c) =>
    match decodeCommand c with
    | .reservedCmd c => { s with status := .idle, moves := [.writeReg .cmd (c.setWidth 33)] }
    | _ => { s.latchCommand c with status := .busy, moves := [] }
  | none => s

end Sys2Proof.Machine
end

