-- ==== Sys2Proof/Machine/Functional.lean ====
section
/-! DEFINITION. The functional summaries of the four operations (spec R84, R85, R101, R128, R141) and the level-1 notions
of 42_compress (R112 to R115, R70): what a whole run computes, as functions of the input. `step` does not use them. -/

namespace Sys2Proof.Machine

/-- `IsCompressed(src)` (R84, R85). -/
def isCompressed (x : List Byte) : Bool := decide (16 < x.length) && x.take 4 == magic

/-- Appends `out[len(out) - dist]` `len` times, stopping early at `size` bytes (R97, R101). -/
def copyOut (size dist : Nat) : Nat → List Byte → List Byte
  | 0, out => out
  | k + 1, out =>
    if out.length = size then out else copyOut size dist k (out ++ [out.getD (out.length - dist) 0])

/-- What a token appends to the output (R94 to R96, R101); BadDistance where it reaches back too far. An instruction that is no
token, which `decodeToken` never gives, appends nothing (DESIGN CHOICE, log 28). -/
def tokenOutput (size : Nat) (out : List Byte) : Instr → Except FaultCode (List Byte)
  | .lit d => .ok (out ++ [d])
  | .ref n h l =>
    if out.length < distance h l then .error .badDistance else .ok (copyOut size (distance h l) (shortLength n) out)
  | .refx h l c =>
    if out.length < distance h l then .error .badDistance else .ok (copyOut size (distance h l) (longLength c) out)
  | _ => .ok out

/-- The loop of R101 over the bytes `rest` of the body that are still unread. `fuel` bounds the rounds; each round
appends at least one byte, so `size` rounds are enough. -/
def decompressLoop (size : Nat) : Nat → List Byte → Byte → Nat → List Byte → Except FaultCode (List Byte)
  | 0, _, _, _, out => .ok out
  | fuel + 1, rest, ctl, cnt, out =>
    if out.length < size then
      match (if cnt = 0 then
          (match rest with
            | k :: rest => Except.ok (k, 8, rest)
            | [] => Except.error FaultCode.truncatedInput)
        else Except.ok (ctl, cnt, rest)) with
      | .error e => .error e
      | .ok (ctl, cnt, rest) =>
        match decodeToken ctl.msb rest with
        | .error _ => .error .truncatedInput
        | .ok (i, rest) =>
          match tokenOutput size out i with
          | .error e => .error e
          | .ok out => decompressLoop size fuel rest (ctl <<< 1) (cnt - 1) out
    else .ok out

/-- The declared size of a stream (R41, R101). DESIGN CHOICE (log 28): of fewer than 8 bytes, which declare none, the bytes that
are missing count as 0. -/
def declaredSizeOf (x : List Byte) : BitVec 32 := readBE32 (x.getD 4 0) (x.getD 5 0) (x.getD 6 0) (x.getD 7 0)

/-- Whether `n` bytes fit a capacity. -/
def fits (dstMax : Option Nat) (n : Nat) : Bool :=
  match dstMax with
  | none => true
  | some m => decide (n ≤ m)

/-- `Decompress(src)` (R101). -/
def decompress (dstMax : Option Nat) (x : List Byte) : Except FaultCode (List Byte) :=
  if x.length < 4 ∨ x.take 4 ≠ magic then .error .formatError
  else if x.length < 16 then .error .truncatedInput
  else
    let size := (declaredSizeOf x).toNat
    if fits dstMax size = false then .error .dstOverflow
    else decompressLoop size size (x.drop 16) 0 0 []

/-- A parse is valid for `x` from position `pos` on (R112): each item at its position, and the spans end at the end. -/
def validFrom (x : List Byte) : Nat → List Item → Bool
  | pos, [] => decide (pos = x.length)
  | pos, it :: p => validAt x pos it && validFrom x (pos + itemSpan it) p

/-- `Expand(p)` (R113), appended to what is already there. DESIGN CHOICE (log 28): where a `Ref(d, l)` has `d = 0` or reaches
before the output, `out[len(out) - d]` does not exist and the spec gives no byte (N4); this total function then appends the
first byte of the output, or 0 where `d = 0` or there is none. No valid parse has such an item. -/
def expandFrom : List Byte → List Item → List Byte
  | out, [] => out
  | out, .lit b :: p => expandFrom (out ++ [b]) p
  | out, .ref d l :: p =>
    expandFrom ((List.range l).foldl (fun o _ => o ++ [o.getD (o.length - d) 0]) out) p

/-- `Expand(p)` (R113); for an item that reaches before the output see `expandFrom` (log 28). -/
def expand (p : List Item) : List Byte := expandFrom [] p

/-- The loop of `Emit` (R114): `i` items are placed, `ctlpos` is where the open group's control byte stands. -/
def emitFrom : Nat → Nat → List Byte → List Item → List Byte
  | _, _, out, [] => out
  | i, ctlpos, out, it :: p =>
    let ctlpos' := if i % 8 = 0 then out.length else ctlpos
    let opened := if i % 8 = 0 then out ++ [0] else out
    let marked := match it with
      | .lit _ => opened.set ctlpos' (opened.getD ctlpos' 0 ||| ((0x80 : Byte) >>> (i % 8)))
      | .ref _ _ => opened
    emitFrom (i + 1) ctlpos' (marked ++ itemBytes it) p

/-- `Emit(p)`, the body bytes of a parse (R114); for an item that cannot be encoded see `referenceInstr` (log 28). -/
def emit (p : List Item) : List Byte := emitFrom 0 0 [] p

/-- The stream of a parse of data of length `m` (R115), `m < 2^32`. DESIGN CHOICE (log 27): longer data, for which R115 has no
header, gets the remainder of its length; no run of the engine makes such a stream. -/
def streamOf (m : Nat) (p : List Item) : List Byte := header (BitVec.ofNat 32 m) ++ emit p

/-- `s` is a well-formed stream for `x` (R70, R115). Data of 2^32 bytes or more has none, because `be32` of its length does not
exist (R9; log 27). -/
def WellFormedStream (s x : List Byte) : Prop :=
  x.length < 2 ^ 32 ∧ ∃ p, validFrom x 0 p = true ∧ s = streamOf x.length p

/-- The parse that a chooser makes from position `pos` on (the loop of R128); `fuel` bounds the rounds. -/
def parseFrom (ch : Chooser) (x : List Byte) : Nat → Nat → Option (Nat × Nat) → List Item
  | 0, _, _ => []
  | fuel + 1, pos, carried =>
    if pos < x.length then
      let pick := choose ch x pos carried
      pick.1 :: parseFrom ch x fuel (pos + itemSpan pick.1) pick.2
    else []

/-- The parse that a chooser makes of `x` (R127, R128). -/
def parseOf (ch : Chooser) (x : List Byte) : List Item := parseFrom ch x x.length 0 none

/-- `Compress(x)` (R128), for any chooser (R127); its header for data of 2^32 bytes or more is `streamOf`'s choice (log 27). -/
def compress (cfg : Config) (x : List Byte) : Except FaultCode (List Byte) :=
  let s := streamOf x.length (parseOf cfg.chooser x)
  if fits cfg.dstMax s.length then .ok s else .error .dstOverflow

/-- The bit-steps of R138 over a sequence of bytes. -/
def crcBytes (crc : BitVec 16) (data : List Byte) : BitVec 16 := data.foldl crcByte crc

/-- `Crc16(data)` (R137, R141). -/
def crc16 (data : List Byte) : BitVec 16 := crcBytes crcSeed (data ++ List.replicate crcAugment 0)

end Sys2Proof.Machine
end

