-- ==== Sys2Proof/Safety.lean ====
section
/-! DEFINITION. What a run's end means (spec 70_reset R176), and the invariant of the machine (10_state R28 with what the
other rules add), in the terms the statements use. -/

namespace Sys2Proof.Machine

/-- `k` steps, stopping at the first fault or refusal of the model. -/
def runFor : Nat → State → Host.Outcome State Fault Refusal
  | 0, s => .next s
  | k + 1, s =>
    match step s with
    | .next t => runFor k t
    | .fault r => .fault r
    | .refused r => .refused r

/-- A run has ended: `STATUS` is DONE or FAULT (R176). -/
def State.Ended (s : State) : Prop := s.status = .done ∨ s.status = .fault

/-- A run that ended is successful (R154, R176). -/
def State.Successful (s : State) : Prop := s.status = .done ∧ s.fault = .none

/-- Fault entry as R153 gives it: the code, `STATUS`, no result, and SRC and its length unchanged. (It promises nothing of DST
and the working registers; that the model leaves them as they were is log 14.) -/
structure State.FaultEntered (s : State) (f : FaultCode) (t : State) : Prop where
  code : t.fault = f
  status : t.status = .fault
  dstLen : t.dstLen = 0
  result : t.result = 0
  src : t.src = s.src
  srcLen : t.srcLen = s.srcLen

/-- What DECOMP or COMP delivered: `DST[0..DST_LEN)` when DONE, otherwise the fault (R85, R171). -/
def State.delivered (s : State) : Except FaultCode (List Byte) :=
  if s.status = .done then .ok (s.output s.dstLen.toNat) else .error s.fault

/-- Every address below `n` of DST has been written. -/
def State.DstWritten (s : State) (n : Nat) : Prop := ∀ a, a < n → (Memory.read s.dst a).isSome = true

/-- R28 for a DECOMP whose start step has run; `DP < DSIZE` because DECOMP is complete at equality (R91). -/
structure State.DecompInv (s : State) : Prop where
  spLow : 16 ≤ s.sp.toNat
  spHigh : s.sp.toNat ≤ s.srcLen.toNat
  dpHigh : s.dp.toNat < s.dsize.toNat
  fits : s.fitsDst s.dsize.toNat = true
  cntHigh : s.cnt.toNat ≤ 8
  ctlLow : s.ctl.toNat % 2 ^ (8 - s.cnt.toNat) = 0
  written : s.DstWritten s.dp.toNat

/-- R28 for a COMP whose start step has run. `tokens` counts the tokens emitted so far, of which `NBITS` is the remainder
modulo 8; it makes R28's bound on `DP` inductive. -/
structure State.CompInv (s : State) : Prop where
  epHigh : s.ep.toNat < s.srcLen.toNat
  dpLow : 16 ≤ s.dp.toNat
  fits : s.fitsDst s.dp.toNat = true
  group : s.nbits ≠ 0 → 16 ≤ s.ctlpos.toNat ∧ s.ctlpos.toNat < s.dp.toNat
  size : ∃ tokens, tokens ≤ s.ep.toNat ∧ tokens % 8 = s.nbits.toNat ∧
    s.dp.toNat ≤ 16 + s.ep.toNat + (tokens + 7) / 8
  deferLength : s.deferV = true →
    5 ≤ s.deferLen.toNat ∧ s.deferLen.toNat ≤ maxLength ∧ s.ep.toNat + s.deferLen.toNat ≤ s.srcLen.toNat
  deferDistance : s.deferV = true →
    s.deferPos.toNat < s.ep.toNat ∧ s.ep.toNat ≤ s.deferPos.toNat + windowSize
  written : s.DstWritten s.dp.toNat

/-- The invariant of the machine: capacities within R7's constraints, memories in their canonical form, the status
registers agreeing with each other (R20, R80, R83, R153), and R28 while an operation runs. -/
structure State.Inv (s : State) : Prop where
  cfg : s.cfg.wf = true
  src : Memory.wf s.src = true
  dst : Memory.wf s.dst = true
  faultCode : s.status = .fault ↔ s.fault ≠ .none
  noResult : s.status = .busy ∨ s.status = .fault → s.dstLen = 0 ∧ s.result = 0
  resultFits : s.status = .done → s.fitsDst s.dstLen.toNat = true
  opLegal : s.status = .busy → s.op = 1 ∨ s.op = 2 ∨ s.op = 3 ∨ s.op = 4
  lengthLegal : s.status = .busy → s.srcLen.toNat ≤ s.cfg.srcMax
  decomp : s.status = .busy → s.op = 2 → s.started = true → s.DecompInv
  comp : s.status = .busy → s.op = 3 → s.started = true → s.CompInv
  crc : s.status = .busy → s.op = 4 → s.started = true → s.crcIndex < s.srcLen.toNat + crcAugment

end Sys2Proof.Machine
end

