-- ==== Sys2Proof/Certificates/Slice0/Obligations.lean ====
section
/-! DEFINITION. The statements about YZE, from the numbered rules of the spec. Each docstring names the rules; where a
statement rests on the model's own choice it names the entry of notes/assumptions (log). -/

open Sys2Proof Sys2Proof.Machine

/-! ## Encoding -/

/-- Every well-formed instruction decodes from its own code, whatever bytes follow it, and leaves exactly those bytes
(R59 to R61, R64, R69, R71, R72). -/
def Obligations.DecodeOfEncode : Prop :=
  ∀ i : Instr, i.wf = true → ∀ more : List Byte,
    decode ((encode i).followedBy more) = .ok (i, (encode i).leftover more)

/-- What decodes is well-formed and encodes back to the same code: each code has one reading, and no bit of it is
dropped (R66, R69). -/
def Obligations.EncodeOfDecode : Prop :=
  ∀ (c : Code) (i : Instr) (rest : List Byte), decode c = .ok (i, rest) →
    i.wf = true ∧ (encode i).followedBy rest = c

/-- Words written out from the spec's examples decode to what they stand for: `41` after control bit 1, `40 01` (R95),
`00 00 0D` (R96), control byte `80` (R92), the command codes (R71, R72). -/
def Obligations.SpecWordsDecode : Prop :=
  decode (.token true [0x41]) = .ok (.lit 0x41, []) ∧
  decode (.token false [0x40, 0x01]) = .ok (.ref 4 0 1, []) ∧
  decode (.token false [0x00, 0x00, 0x0D]) = .ok (.refx 0 0 0x0D, []) ∧
  decode (.control [0x80]) = .ok (.ctlf 0x80, []) ∧
  decode (.command 1) = .ok (.iscomp, []) ∧ decode (.command 2) = .ok (.decomp, []) ∧
  decode (.command 3) = .ok (.comp, []) ∧ decode (.command 4) = .ok (.crc16, []) ∧
  decode (.command 0) = .ok (.reservedCmd 0, []) ∧ decode (.command 7) = .ok (.reservedCmd 7, [])

/-- R64: control bit 1 is a literal of one byte; control bit 0 with a high nibble of A that is not zero is a REF of two
bytes, otherwise a REFX of three. The operands are the fields of R59 to R61. -/
def Obligations.TokenFormByControlBitAndNibble : Prop :=
  ∀ (a b c : Byte) (rest : List Byte),
    decodeToken true (a :: rest) = .ok (.lit a, rest) ∧
    (a.extractLsb 7 4 ≠ 0 →
      decodeToken false (a :: b :: rest) = .ok (.ref (a.extractLsb 7 4) (a.extractLsb 3 0) b, rest)) ∧
    (a.extractLsb 7 4 = 0 →
      decodeToken false (a :: b :: c :: rest) = .ok (.refx (a.extractLsb 3 0) b c, rest))

/-- R62 and R63, both ways. Decoding: the distance is `((A & 0xF) << 8 | B) + 1`, in 1 to 4096; the length is `(A >> 4) + 2`,
in 3 to 17, for a REF, and `C + 0x12`, in 18 to 273, for a REFX. Encoding: for every such distance and length, the bytes,
and that they decode to that distance and that length in the form the length asks for. -/
def Obligations.ReferenceOperands : Prop :=
  (∀ a b c : Byte,
    distance (lowNibble a) b = (((a.toNat &&& 0xF) <<< 8) ||| b.toNat) + 1 ∧
    1 ≤ distance (lowNibble a) b ∧ distance (lowNibble a) b ≤ 4096 ∧
    shortLength (highNibble a) = (a.toNat >>> 4) + 2 ∧
    (highNibble a ≠ 0 → 3 ≤ shortLength (highNibble a) ∧ shortLength (highNibble a) ≤ 17) ∧
    longLength c = c.toNat + 0x12 ∧ 18 ≤ longLength c ∧ longLength c ≤ 273) ∧
  (∀ d l : Nat, 1 ≤ d → d ≤ 4096 → 3 ≤ l → l ≤ 273 →
    itemBytes (.ref d l) =
      (if l ≤ 17 then [BitVec.ofNat 8 ((l - 2) * 16 + (d - 1) / 256), BitVec.ofNat 8 ((d - 1) % 256)]
       else [BitVec.ofNat 8 ((d - 1) / 256), BitVec.ofNat 8 ((d - 1) % 256), BitVec.ofNat 8 (l - 18)]) ∧
    ∃ h lo, distance h lo = d ∧
      (if l ≤ 17 then ∃ n, n ≠ 0 ∧ shortLength n = l ∧ decodeToken false (itemBytes (.ref d l)) = .ok (.ref n h lo, [])
       else ∃ c, longLength c = l ∧ decodeToken false (itemBytes (.ref d l)) = .ok (.refx h lo c, [])))

/-! ## Reset, the host and command acceptance -/

/-- R165: the values the spec states for reset. R166: the same after a reset in any state, a running operation included; the
engine then does nothing until the host moves. The host's later moves and the configuration stay. -/
def Obligations.ResetLeavesStatedValues : Prop :=
  (State.reset.cmd = 0 ∧ State.reset.status = .idle ∧ State.reset.fault = .none ∧ State.reset.srcLen = 0 ∧
    State.reset.dstLen = 0 ∧ State.reset.result = 0 ∧ State.reset.deferV = false ∧
    step State.reset = .next State.reset) ∧
  ∀ (s : State) (later : List HostMove), s.moves = .reset :: later →
    ∃ t, step s = .next t ∧ t.cmd = 0 ∧ t.status = .idle ∧ t.fault = .none ∧ t.srcLen = 0 ∧ t.dstLen = 0 ∧
      t.result = 0 ∧ t.deferV = false ∧ t.moves = later ∧ t.cfg = s.cfg ∧ (later = [] → step t = .next t)

/-- The invariant holds at reset. -/
def Obligations.InvariantAtReset : Prop := State.reset.Inv

/-- Every step keeps the invariant (R28, with the canonical form of both memories, R7's capacities and the agreement of
the status registers), from every state that meets it and whatever the host does. -/
def Obligations.InvariantKeptByStep : Prop :=
  ∀ s t : State, s.Inv → step s = .next t → t.Inv

/-- From every state that meets the invariant the engine's turn always gives a next state: no rule is ever left without
its condition and no write leaves DST (R49, R174). -/
def Obligations.EngineNeverStopsUnderInvariant : Prop :=
  ∀ s : State, s.Inv → (s.moves = [] ∨ s.moves.head? = some .tick) → ∃ t, step s = .next t

/-- R154 and R165: while the engine is not BUSY its turn changes nothing, whether the host has no move or gives it the turn;
after a fault, `STATUS` and `FAULT` keep their values under every host move but a command and a reset. -/
def Obligations.NothingHappensUnlessBusy : Prop :=
  (∀ s : State, s.status ≠ .busy →
    (s.moves = [] → step s = .next s) ∧
    (∀ later, s.moves = .tick :: later → step s = .next { s with moves := later })) ∧
  ∀ (s t : State) (m : HostMove) (later : List HostMove), s.moves = m :: later → s.status = .fault →
    m ≠ .reset → (∀ v, m ≠ .writeReg .cmd v) → step s = .next t → t.status = .fault ∧ t.fault = s.fault

/-- R20: the transitions of `STATUS`, for every move and the engine's own turn. -/
def Obligations.StatusTransitions : Prop :=
  ∀ s t : State, step s = .next t →
    match s.moves with
    | .reset :: _ => t.status = .idle
    | .writeReg .cmd v :: _ =>
      (s.status = .busy → t.status = .busy) ∧
      (s.status ≠ .busy → t.status =
        (if (decodeCommand (v.setWidth 3) = .reservedCmd (v.setWidth 3) ∨ s.cfg.srcMax < s.srcLen.toNat)
          then .fault else .busy))
    | [] => if s.status = .busy then t.status ≠ .idle else t.status = s.status
    | .tick :: _ => if s.status = .busy then t.status ≠ .idle else t.status = s.status
    | _ => t.status = s.status

/-- R80 and R151: what an accepted write of `c` to `CMD` leaves, BadCommand first, then BadLength. Where the command starts,
of the rest only `CMD` itself, the model's run counter (log 4) and its phase bit (log 5) may differ; where it faults, fault
entry is all that is said here. -/
def Obligations.CommandAcceptance : Prop :=
  ∀ (s : State) (v : BitVec 33) (later : List HostMove), s.moves = .writeReg .cmd v :: later → s.status ≠ .busy →
    ∃ t, step s = .next t ∧
      (if v.toNat % 8 ∈ [1, 2, 3, 4] then
        (if s.cfg.srcMax < s.srcLen.toNat then s.FaultEntered .badLength t
         else t.op = v.setWidth 3 ∧ t.status = .busy ∧ t.fault = .none ∧ t.dstLen = 0 ∧ t.result = 0 ∧
           t = { s with cmd := t.cmd, op := t.op, dstLen := 0, result := 0, status := .busy, fault := .none,
                        started := t.started, moves := later, runs := t.runs })
       else s.FaultEntered .badCommand t)

/-- R81: a write to `CMD` while BUSY changes no register and does not disturb the operation. -/
def Obligations.CommandIgnoredWhileBusy : Prop :=
  ∀ (s : State) (v : BitVec 33) (later : List HostMove), s.moves = .writeReg .cmd v :: later → s.status = .busy →
    step s = .next { s with moves := later }

/-- R72 and R150: writing a reserved code while the engine is not BUSY raises BadCommand; `STATUS` goes straight to FAULT, and
the host's write is that meaning, with no engine step. -/
def Obligations.ReservedCommandRaisesBadCommand : Prop :=
  ∀ (s : State) (c : BitVec 3), c = 0 ∨ c = 5 ∨ c = 6 ∨ c = 7 → s.status ≠ .busy →
    (∃ t, exec (.reservedCmd c) s = .next t ∧ s.FaultEntered .badCommand t) ∧
    ∀ later, s.moves = .writeReg .cmd (c.setWidth 33) :: later → step s = exec (.reservedCmd c) { s with moves := later }

/-- R19: what the host reads from each register, `CMD` as 0 and `FAULT` by the numbers of R145, and that reading changes nothing else; writes to read-only
registers are ignored; `SRC_LEN` takes any 32-bit value while the engine is not BUSY. The port `rdata` is the model's
(log 12). -/
def Obligations.HostRegisterAccess : Prop :=
  ∀ (s : State) (later : List HostMove),
    (∀ r, s.moves = .readReg r :: later → (r = .srcLen → s.status ≠ .busy) →
      ∃ t, step s = .next t ∧ t = { s with moves := later, rdata := t.rdata } ∧
        t.rdata.toNat =
          match r with
          | .cmd => 0
          | .status => (match s.status with | .idle => 0 | .busy => 1 | .done => 2 | .fault => 3)
          | .fault => (match s.fault with
            | .none => 0 | .formatError => 1 | .truncatedInput => 2 | .badDistance => 3 | .dstOverflow => 4
            | .badCommand => 5 | .badLength => 6)
          | .srcLen => s.srcLen.toNat
          | .dstLen => s.dstLen.toNat
          | .result => s.result.toNat) ∧
    (∀ r v, s.moves = .writeReg r v :: later → r ≠ .cmd → r ≠ .srcLen → step s = .next { s with moves := later }) ∧
    (∀ v, s.moves = .writeReg .srcLen v :: later → s.status ≠ .busy →
      step s = .next { s with moves := later, srcLen := v.setWidth 32 })

/-- The host's accesses to the buffers while the engine is not BUSY (R17, R18, R48): a byte of SRC that is written reads
back and no other byte changes, and a byte of the result is read as it lies in DST (R171). The model's choices: the moves
themselves (log 7), that the host may write a byte of DST (log 10) and read one of SRC (log 11), and that an access at or
above the buffer's capacity stops with `hostAddress` (log 9). -/
def Obligations.HostBufferAccess : Prop :=
  ∀ (s : State) (a : Nat) (later : List HostMove), s.status ≠ .busy →
    (∀ v, a < s.cfg.srcMax → s.moves = .writeSrc a v :: later →
      ∃ t, step s = .next t ∧ Memory.read t.src a = some v ∧ (∀ b, b ≠ a → Memory.read t.src b = Memory.read s.src b) ∧
        t = { s with moves := later, src := t.src }) ∧
    (a < s.cfg.srcMax → s.moves = .readSrc a :: later →
      ∃ t, step s = .next t ∧ t.rdata.toNat = (s.srcByte a).toNat ∧ t = { s with moves := later, rdata := t.rdata }) ∧
    (∀ v, (∀ m, s.cfg.dstMax = some m → a < m) → s.moves = .writeDst a v :: later →
      ∃ t, step s = .next t ∧ Memory.read t.dst a = some v ∧ (∀ b, b ≠ a → Memory.read t.dst b = Memory.read s.dst b) ∧
        t = { s with moves := later, dst := t.dst }) ∧
    (s.status = .done → a < s.dstLen.toNat → (∀ m, s.cfg.dstMax = some m → a < m) → s.moves = .readDst a :: later →
      ∃ t, step s = .next t ∧ t.rdata.toNat = (s.dstByte a).toNat ∧ t = { s with moves := later, rdata := t.rdata }) ∧
    (s.cfg.srcMax ≤ a → ((∃ v, s.moves = .writeSrc a v :: later) ∨ s.moves = .readSrc a :: later) →
      step s = .fault .hostAddress) ∧
    (∀ m, s.cfg.dstMax = some m → m ≤ a → ((∃ v, s.moves = .writeDst a v :: later) ∨ s.moves = .readDst a :: later) →
      step s = .fault .hostAddress)

/-- The model's choice (log 8, after R51, R170 and U3): while BUSY the host has no move on SRC, DST or SRC_LEN. -/
def Obligations.HostBufferAccessRefusedWhileBusy : Prop :=
  ∀ (s : State) (m : HostMove) (later : List HostMove), s.moves = m :: later → s.status = .busy →
    ((∃ a v, m = .writeSrc a v ∨ m = .writeDst a v) ∨ (∃ a, m = .readSrc a ∨ m = .readDst a) ∨
      m = .readReg .srcLen ∨ ∃ v, m = .writeReg .srcLen v) →
    step s = .refused .hostAccessWhileBusy

/-! ## The step -/

/-- R82: while BUSY the engine's turn is one step of the command in `OP`, whether the host lets it run or has no move; an
accepted command's first step is its start step, and no later one is. Which step is next is the model's phase bit (log 5):
acceptance clears it, and a start step of DECOMP, COMP or CRC16 that does not fault sets it. -/
def Obligations.StepRunsCommandInOp : Prop :=
  (∀ s : State, s.status = .busy →
    (s.moves = [] → step s = exec (decodeCommand s.op) s) ∧
    (∀ later, s.moves = .tick :: later → step s = exec (decodeCommand s.op) { s with moves := later })) ∧
  (∀ (s t : State) (v : BitVec 33) (later : List HostMove), s.moves = .writeReg .cmd v :: later → s.status ≠ .busy →
    step s = .next t → t.started = false) ∧
  ∀ (s t : State) (i : Instr), i = .decomp ∨ i = .comp ∨ i = .crc16 → s.started = false →
    exec i s = .next t → t.status ≠ .fault → t.started = true

/-- R98 where no control byte is due: while DECOMP runs, the step is the meaning of the token that the control bit and the
bytes from `SP` up to `SRC_LEN` decode to; where bytes are missing it raises TruncatedInput. That DST and the working
registers are then as before the step, which R153 leaves unspecified, is the model's choice (log 14). -/
def Obligations.StepRunsDecodedToken : Prop :=
  ∀ s : State, s.moves = [] → s.status = .busy → s.op = 2 → s.started = true → s.dp.toNat < s.dsize.toNat →
    s.cnt ≠ 0 →
    (∀ i rest, decodeToken s.ctl.msb (s.input.drop s.sp.toNat) = .ok (i, rest) → step s = exec i s) ∧
    (∀ e, decodeToken s.ctl.msb (s.input.drop s.sp.toNat) = .error e →
      step s = .next { s with fault := .truncatedInput, status := .fault, dstLen := 0, result := 0 })

/-- R98 where a control byte is due: the control byte at `SP` is taken by the meaning of CTLF and the token behind it runs
in the same step; a fault in either part replaces the step's whole effect by fault entry. That DST and the working registers
are then as before the step, which R153 leaves unspecified, is the model's choice (log 14). -/
def Obligations.StepTakesControlByteThenToken : Prop :=
  ∀ s : State, s.moves = [] → s.status = .busy → s.op = 2 → s.started = true → s.dp.toNat < s.dsize.toNat →
    s.cnt = 0 →
    (s.srcLen.toNat ≤ s.sp.toNat →
      step s = .next { s with fault := .truncatedInput, status := .fault, dstLen := 0, result := 0 }) ∧
    (s.sp.toNat < s.srcLen.toNat →
      ∃ u, exec (.ctlf (s.srcByte s.sp.toNat)) s = .next u ∧
        ∀ i rest, decodeToken u.ctl.msb (u.input.drop u.sp.toNat) = .ok (i, rest) →
          ∀ t, exec i u = .next t →
            step s = .next (if t.status = .fault
              then { s with fault := t.fault, status := .fault, dstLen := 0, result := 0 } else t)) ∧
    (s.sp.toNat < s.srcLen.toNat →
      ∀ e, decodeToken (s.srcByte s.sp.toNat).msb (s.input.drop (s.sp.toNat + 1)) = .error e →
        step s = .next { s with fault := .truncatedInput, status := .fault, dstLen := 0, result := 0 })

/-! ## ISCOMP -/

/-- R84: the answer, the strict length test, and that nothing else changes. -/
def Obligations.IscompAnswers : Prop :=
  ∀ s : State, exec .iscomp s =
    .next { s with
      result := if 16 < s.srcLen.toNat ∧ s.input.take 4 = [0x59, 0x61, 0x7A, 0x30] then 1 else 0
      dstLen := 0
      status := .done }

/-! ## DECOMP -/

/-- R90. Where every check passes the declared size is read big-endian and the interpreter's registers are set, and a
declared size of 0 completes at once. Nothing else changes but the model's phase bit (log 5, left open here; see
StepRunsCommandInOp) and, where it completes, RESULT, which R90 does not name (it is R91's write; see DecompFrame and log 23).
Where a check fails, in this order: FormatError, TruncatedInput, DstOverflow. -/
def Obligations.DecompStart : Prop :=
  ∀ s : State, s.started = false →
    (16 ≤ s.srcLen.toNat → s.input.take 4 = [0x59, 0x61, 0x7A, 0x30] →
      ∀ size : Nat,
        size = (s.srcByte 4).toNat * 2 ^ 24 + (s.srcByte 5).toNat * 2 ^ 16 + (s.srcByte 6).toNat * 2 ^ 8 +
          (s.srcByte 7).toNat →
        (s.fitsDst size = true →
          ∃ t, exec .decomp s = .next t ∧
            (let u := { s with dsize := BitVec.ofNat 32 size, sp := 16, dp := 0, ctl := 0, cnt := 0, started := t.started }
             t = if size = 0 then { u with dstLen := 0, result := t.result, status := .done } else u)) ∧
        (s.fitsDst size = false → ∃ t, exec .decomp s = .next t ∧ s.FaultEntered .dstOverflow t)) ∧
    (s.srcLen.toNat < 4 ∨ s.input.take 4 ≠ [0x59, 0x61, 0x7A, 0x30] →
      ∃ t, exec .decomp s = .next t ∧ s.FaultEntered .formatError t) ∧
    (4 ≤ s.srcLen.toNat → s.srcLen.toNat < 16 → s.input.take 4 = [0x59, 0x61, 0x7A, 0x30] →
      ∃ t, exec .decomp s = .next t ∧ s.FaultEntered .truncatedInput t)

/-- R92: the control byte is taken only when one is due, and must then be there. Nothing else changes. -/
def Obligations.ControlByteFetch : Prop :=
  ∀ (s : State) (k : Byte),
    (s.cnt = 0 → s.sp.toNat < s.srcLen.toNat → exec (.ctlf k) s = .next { s with ctl := k, sp := s.sp + 1, cnt := 8 }) ∧
    (s.cnt = 0 → s.srcLen.toNat ≤ s.sp.toNat → ∃ t, exec (.ctlf k) s = .next t ∧ s.FaultEntered .truncatedInput t) ∧
    (s.cnt ≠ 0 → exec (.ctlf k) s = .next s)

/-- R94, with the control bit taken (R93) and the stop rule's test (R91): the literal is appended, and nothing else
changes; where its byte is missing, TruncatedInput. -/
def Obligations.LiteralToken : Prop :=
  ∀ (s : State) (d : Byte),
    (s.srcLen.toNat ≤ s.sp.toNat → ∃ t, exec (.lit d) s = .next t ∧ s.FaultEntered .truncatedInput t) ∧
    (s.sp.toNat < s.srcLen.toNat → s.dp.toNat < s.dsize.toNat → s.fitsDst s.dsize.toNat = true →
      ∃ t, exec (.lit d) s = .next t ∧
        t.sp = s.sp + 1 ∧ t.dp.toNat = s.dp.toNat + 1 ∧ t.ctl = s.ctl <<< 1 ∧ t.cnt = s.cnt - 1 ∧
        Memory.read t.dst s.dp.toNat = some d ∧
        (∀ a, a ≠ s.dp.toNat → Memory.read t.dst a = Memory.read s.dst a) ∧
        (if s.dp.toNat + 1 = s.dsize.toNat then t.status = .done ∧ t.dstLen.toNat = s.dsize.toNat ∧ t.result = 0
         else t.status = s.status ∧ t.dstLen = s.dstLen ∧ t.result = s.result) ∧
        t = { s with sp := t.sp, dp := t.dp, ctl := t.ctl, cnt := t.cnt, dst := t.dst, status := t.status,
                     dstLen := t.dstLen, result := t.result })

/-- R95 with R97, the control bit taken (R93): a short back-reference appends `min(len, DSIZE - DP)` bytes, each the byte
`dist` before it in the output as it then is, the copy's own bytes included; nothing else changes. Where fewer than two
bytes remain, TruncatedInput; otherwise, where it reaches back past the output, BadDistance. -/
def Obligations.ShortReferenceToken : Prop :=
  ∀ (s : State) (n h : BitVec 4) (l : Byte) (dist len : Nat),
    dist = 256 * h.toNat + l.toNat + 1 → len = min (n.toNat + 2) (s.dsize.toNat - s.dp.toNat) →
    (s.srcLen.toNat < s.sp.toNat + 2 → ∃ t, exec (.ref n h l) s = .next t ∧ s.FaultEntered .truncatedInput t) ∧
    (s.sp.toNat + 2 ≤ s.srcLen.toNat → s.dp.toNat < dist →
      ∃ t, exec (.ref n h l) s = .next t ∧ s.FaultEntered .badDistance t) ∧
    (s.sp.toNat + 2 ≤ s.srcLen.toNat → dist ≤ s.dp.toNat → s.dp.toNat ≤ s.dsize.toNat →
      s.fitsDst s.dsize.toNat = true →
      ∃ t, exec (.ref n h l) s = .next t ∧
        t.sp.toNat = s.sp.toNat + 2 ∧ t.dp.toNat = s.dp.toNat + len ∧ t.ctl = s.ctl <<< 1 ∧ t.cnt = s.cnt - 1 ∧
        (∀ k, k < len → Memory.read t.dst (s.dp.toNat + k) = some (t.dstByte (s.dp.toNat + k - dist))) ∧
        (∀ a, a < s.dp.toNat ∨ s.dp.toNat + len ≤ a → Memory.read t.dst a = Memory.read s.dst a) ∧
        (if s.dp.toNat + len = s.dsize.toNat then t.status = .done ∧ t.dstLen.toNat = s.dsize.toNat ∧ t.result = 0
         else t.status = s.status ∧ t.dstLen = s.dstLen ∧ t.result = s.result) ∧
        t = { s with sp := t.sp, dp := t.dp, ctl := t.ctl, cnt := t.cnt, dst := t.dst, status := t.status,
                     dstLen := t.dstLen, result := t.result })

/-- R96 with R97: the same for a long back-reference, three bytes and length `C + 0x12`; truncation is judged before the
distance. -/
def Obligations.LongReferenceToken : Prop :=
  ∀ (s : State) (h : BitVec 4) (l c : Byte) (dist len : Nat),
    dist = 256 * h.toNat + l.toNat + 1 → len = min (c.toNat + 18) (s.dsize.toNat - s.dp.toNat) →
    (s.srcLen.toNat < s.sp.toNat + 3 → ∃ t, exec (.refx h l c) s = .next t ∧ s.FaultEntered .truncatedInput t) ∧
    (s.sp.toNat + 3 ≤ s.srcLen.toNat → s.dp.toNat < dist →
      ∃ t, exec (.refx h l c) s = .next t ∧ s.FaultEntered .badDistance t) ∧
    (s.sp.toNat + 3 ≤ s.srcLen.toNat → dist ≤ s.dp.toNat → s.dp.toNat ≤ s.dsize.toNat →
      s.fitsDst s.dsize.toNat = true →
      ∃ t, exec (.refx h l c) s = .next t ∧
        t.sp.toNat = s.sp.toNat + 3 ∧ t.dp.toNat = s.dp.toNat + len ∧ t.ctl = s.ctl <<< 1 ∧ t.cnt = s.cnt - 1 ∧
        (∀ k, k < len → Memory.read t.dst (s.dp.toNat + k) = some (t.dstByte (s.dp.toNat + k - dist))) ∧
        (∀ a, a < s.dp.toNat ∨ s.dp.toNat + len ≤ a → Memory.read t.dst a = Memory.read s.dst a) ∧
        (if s.dp.toNat + len = s.dsize.toNat then t.status = .done ∧ t.dstLen.toNat = s.dsize.toNat ∧ t.result = 0
         else t.status = s.status ∧ t.dstLen = s.dstLen ∧ t.result = s.result) ∧
        t = { s with sp := t.sp, dp := t.dp, ctl := t.ctl, cnt := t.cnt, dst := t.dst, status := t.status,
                     dstLen := t.dstLen, result := t.result })

/-- The frame of the three tokens, whether they complete or trap: of DST at most the bytes from `DP` on that the token
covers, cut at the declared size (one byte for LIT), and of the registers at most SP, DP, CTL, CNT and the status
registers. Of a token that traps this is the model's choice (log 14), since R153 leaves DST and the working registers
unspecified after a fault. -/
def Obligations.TokenFrame : Prop :=
  ∀ (s t : State) (i : Instr) (len : Nat),
    ((∃ d, i = .lit d ∧ len = 1) ∨
      (∃ n h l, i = .ref n h l ∧ len = min (n.toNat + 2) (s.dsize.toNat - s.dp.toNat)) ∨
      (∃ h l c, i = .refx h l c ∧ len = min (c.toNat + 18) (s.dsize.toNat - s.dp.toNat))) →
    s.dp.toNat ≤ s.dsize.toNat → exec i s = .next t →
    (∀ a, a < s.dp.toNat ∨ s.dp.toNat + len ≤ a → Memory.read t.dst a = Memory.read s.dst a) ∧
    t = { s with sp := t.sp, dp := t.dp, ctl := t.ctl, cnt := t.cnt, dst := t.dst, status := t.status,
                 fault := t.fault, dstLen := t.dstLen, result := t.result }

/-- The frame of DECOMP, whether its step completes or faults: the start step leaves DST as it is, a token step at most the
bytes from the old `DP` up to the new one differ; of the registers at most those of DECOMP and the status registers. Of a
step that faults this is the model's choice (log 14), since R153 leaves DST and the working registers unspecified after a
fault. A step that completes, the start step of a declared size of 0 among them, makes R91's writes: `DST_LEN <- DSIZE`, and
`RESULT <- 0`, which R90 does not name (log 23). -/
def Obligations.DecompFrame : Prop :=
  ∀ s t : State, exec .decomp s = .next t →
    (s.started = false → t.dst = s.dst) ∧
    (s.started = true → ∀ a, a < s.dp.toNat ∨ t.dp.toNat ≤ a → Memory.read t.dst a = Memory.read s.dst a) ∧
    (s.status = .busy → t.status = .done → t.dstLen.toNat = t.dsize.toNat ∧ t.result = 0) ∧
    t = { s with sp := t.sp, dp := t.dp, dsize := t.dsize, ctl := t.ctl, cnt := t.cnt, dst := t.dst, started := t.started,
                 status := t.status, fault := t.fault, dstLen := t.dstLen, result := t.result }

/-- The spec's inference of R23 and R102(a): a token step that does not fault consumes 1 to 4 bytes of SRC, never past
`SRC_LEN`, and appends 1 to 273 bytes, never past the declared size. -/
def Obligations.TokenStepProgress : Prop :=
  ∀ s t : State, s.started = true → s.dp.toNat < s.dsize.toNat → exec .decomp s = .next t → t.status ≠ .fault →
    s.sp.toNat + 1 ≤ t.sp.toNat ∧ t.sp.toNat ≤ s.sp.toNat + 4 ∧ t.sp.toNat ≤ s.srcLen.toNat ∧
    s.dp.toNat + 1 ≤ t.dp.toNat ∧ t.dp.toNat ≤ s.dp.toNat + 273 ∧ t.dp.toNat ≤ s.dsize.toNat

/-- R101: from acceptance, DECOMP ends, and delivers exactly what `Decompress` says of the input. -/
def Obligations.DecompRunIsDecompress : Prop :=
  ∀ s : State, s.moves = [] → s.status = .busy → s.op = 2 → s.started = false →
    ∃ k t, runFor k s = .next t ∧ t.Ended ∧ t.delivered = decompress s.cfg.dstMax s.input

/-- How many steps DECOMP takes: the spec's inference of R174 for every input but one shape, and for every run that ends in
DONE. The shape is `SRC_LEN = 16` with a declared size above 0 (the spec's own vector F5), where the step rules R90, R92 and R98
make a start step and a token step that faults, and R174 says one (log 29). Of an input too short to declare a size the
model's function counts the missing bytes as 0 (log 28). -/
def Obligations.DecompRunLength : Prop :=
  ∀ s : State, s.moves = [] → s.status = .busy → s.op = 2 → s.started = false →
    ∃ k t, runFor k s = .next t ∧ t.Ended ∧
      k ≤ 1 + (declaredSizeOf s.input).toNat ∧ k ≤ 2 + (s.srcLen.toNat - 16) ∧
      (s.srcLen.toNat ≠ 16 ∨ t.status = .done → k ≤ 1 + min (declaredSizeOf s.input).toNat (s.srcLen.toNat - 16))

/-- The spec's inference of R102(b) and R91: what `Decompress` delivers has exactly the declared size. -/
def Obligations.DecompressDeliversDeclaredSize : Prop :=
  ∀ (dstMax : Option Nat) (x out : List Byte), decompress dstMax x = .ok out →
    out.length = (declaredSizeOf x).toNat

/-- R67 and the spec's inference of R68: the reserved header bytes have no influence, and neither have bytes after the
last token consumed. -/
def Obligations.DecompressIgnoresUnusedBytes : Prop :=
  ∀ (dstMax : Option Nat) (front r r' body : List Byte), front.length = 8 → r.length = 8 → r'.length = 8 →
    decompress dstMax (front ++ r ++ body) = decompress dstMax (front ++ r' ++ body) ∧
    ∀ out more, decompress dstMax (front ++ r ++ body) = .ok out →
      decompress dstMax (front ++ r ++ body ++ more) = .ok out

/-- The spec's inference of R68(a): the control bits behind the last token have no influence. From a group boundary (`CNT = 0`)
that a run on `s` reaches, at most eight more steps end it, so the control byte at that boundary's `SP` is the last one; then
every input that differs from that of `s` in the bits of this byte behind the first `n` alone decompresses to the same. -/
def Obligations.DecompressIgnoresUnusedControlBits : Prop :=
  ∀ (s w u : State) (j n : Nat) (x : List Byte),
    s.moves = [] → s.status = .busy → s.op = 2 → s.started = false →
    runFor j s = .next w → w.started = true → w.cnt = 0 →
    n ≤ 8 → runFor n w = .next u → u.status = .done →
    x.length = s.input.length → (∀ a, a ≠ w.sp.toNat → x[a]? = s.input[a]?) →
    (∀ k, k < n → (x.getD w.sp.toNat 0).getMsbD k = (s.input.getD w.sp.toNat 0).getMsbD k) →
    decompress s.cfg.dstMax x = .ok (u.output u.dstLen.toNat)

/-! ## COMP -/

/-- R110 and R115: the start step writes the header and sets the encoder's registers; empty input completes at once. No
other byte of DST and no other register changes; the model's phase bit (log 5) is left open here (see StepRunsCommandInOp). -/
def Obligations.CompStartWritesHeader : Prop :=
  ∀ s : State, s.started = false → s.cfg.wf = true →
    ∃ t, exec .comp s = .next t ∧
      (∀ a, a < 16 → Memory.read t.dst a =
        ([0x59, 0x61, 0x7A, 0x30, BitVec.ofNat 8 (s.srcLen.toNat / 2 ^ 24), BitVec.ofNat 8 (s.srcLen.toNat / 2 ^ 16),
          BitVec.ofNat 8 (s.srcLen.toNat / 2 ^ 8), BitVec.ofNat 8 s.srcLen.toNat, 0, 0, 0, 0, 0, 0, 0, 0] :
          List Byte)[a]?) ∧
      (∀ a, 16 ≤ a → Memory.read t.dst a = Memory.read s.dst a) ∧
      (let u := { s with dst := t.dst, dp := 16, ep := 0, nbits := 0, ctlpos := 0, deferV := false,
                         started := t.started }
       t = if s.srcLen = 0 then { u with dstLen := 16, result := 0, status := .done } else u)

/-- R119, with R121, for the literal that the chooser picks: a new group's control byte where one is due, the control bit,
the byte, and completion at the end of the data (R122); where a write would not fit DST, DstOverflow. Nothing else changes
but the deferred match (R117). -/
def Obligations.CompEmitsLiteral : Prop :=
  ∀ (s : State) (b : Byte) (carried : Option (Nat × Nat)) (ctlAt byteAt : Nat),
    s.started = true → s.ep.toNat < s.srcLen.toNat →
    choose s.cfg.chooser s.input s.ep.toNat s.deferred = (.lit b, carried) →
    ctlAt = (if s.nbits = 0 then s.dp.toNat else s.ctlpos.toNat) →
    byteAt = (if s.nbits = 0 then s.dp.toNat + 1 else s.dp.toNat) →
    byteAt + 1 < 2 ^ 33 → (s.nbits ≠ 0 → s.ctlpos.toNat < s.dp.toNat) → s.fitsDst s.dp.toNat = true →
    (s.fitsDst (byteAt + 1) = false → ∃ t, exec .comp s = .next t ∧ s.FaultEntered .dstOverflow t) ∧
    (s.fitsDst (byteAt + 1) = true →
      ∃ t, exec .comp s = .next t ∧
        t.ctlpos.toNat = ctlAt ∧ t.dp.toNat = byteAt + 1 ∧ t.ep = s.ep + 1 ∧ t.nbits = s.nbits + 1 ∧
        Memory.read t.dst ctlAt =
          some ((if s.nbits = 0 then 0 else s.dstByte s.ctlpos.toNat) ||| ((0x80 : Byte) >>> s.nbits.toNat)) ∧
        Memory.read t.dst byteAt = some b ∧
        (∀ a, a ≠ ctlAt → a ≠ byteAt → Memory.read t.dst a = Memory.read s.dst a) ∧
        t.deferV = carried.isSome ∧
        (match carried with
          | some (l, q) => t.deferLen = BitVec.ofNat 9 l ∧ t.deferPos = BitVec.ofNat 32 q
          | none => t.deferLen = s.deferLen ∧ t.deferPos = s.deferPos) ∧
        (if s.ep.toNat + 1 = s.srcLen.toNat then t.status = .done ∧ t.dstLen = t.dp ∧ t.result = 0
         else t.status = s.status ∧ t.dstLen = s.dstLen ∧ t.result = s.result) ∧
        t = { s with ctlpos := t.ctlpos, dp := t.dp, ep := t.ep, nbits := t.nbits, dst := t.dst, deferV := t.deferV,
                     deferLen := t.deferLen, deferPos := t.deferPos, status := t.status, dstLen := t.dstLen,
                     result := t.result })

/-- R120, with R121, for the back-reference that the chooser picks: a new group's control byte where one is due, whose bit
stays 0, the two or three bytes, and completion at the end of the data (R122); where a write would not fit DST,
DstOverflow. Nothing else changes but the deferred match (R117). -/
def Obligations.CompEmitsReference : Prop :=
  ∀ (s : State) (d l : Nat) (carried : Option (Nat × Nat)) (bytesAt : Nat) (bytes : List Byte),
    s.started = true → s.ep.toNat < s.srcLen.toNat →
    choose s.cfg.chooser s.input s.ep.toNat s.deferred = (.ref d l, carried) →
    1 ≤ d → d ≤ 4096 → 3 ≤ l → l ≤ 273 →
    bytesAt = (if s.nbits = 0 then s.dp.toNat + 1 else s.dp.toNat) →
    bytes = (if l ≤ 17 then [BitVec.ofNat 8 ((l - 2) * 16 + (d - 1) / 256), BitVec.ofNat 8 ((d - 1) % 256)]
      else [BitVec.ofNat 8 ((d - 1) / 256), BitVec.ofNat 8 ((d - 1) % 256), BitVec.ofNat 8 (l - 18)]) →
    bytesAt + 3 < 2 ^ 33 → s.fitsDst s.dp.toNat = true →
    (s.fitsDst (bytesAt + bytes.length) = false → ∃ t, exec .comp s = .next t ∧ s.FaultEntered .dstOverflow t) ∧
    (s.fitsDst (bytesAt + bytes.length) = true →
      ∃ t, exec .comp s = .next t ∧
        t.ctlpos = (if s.nbits = 0 then s.dp else s.ctlpos) ∧ t.dp.toNat = bytesAt + bytes.length ∧
        t.ep = s.ep + BitVec.ofNat 32 l ∧ t.nbits = s.nbits + 1 ∧
        (s.nbits = 0 → Memory.read t.dst s.dp.toNat = some 0) ∧
        (∀ k, k < bytes.length → Memory.read t.dst (bytesAt + k) = bytes[k]?) ∧
        (∀ a, a < s.dp.toNat ∨ bytesAt + bytes.length ≤ a → Memory.read t.dst a = Memory.read s.dst a) ∧
        t.deferV = carried.isSome ∧
        (match carried with
          | some (l, q) => t.deferLen = BitVec.ofNat 9 l ∧ t.deferPos = BitVec.ofNat 32 q
          | none => t.deferLen = s.deferLen ∧ t.deferPos = s.deferPos) ∧
        (if t.ep = s.srcLen then t.status = .done ∧ t.dstLen = t.dp ∧ t.result = 0
         else t.status = s.status ∧ t.dstLen = s.dstLen ∧ t.result = s.result) ∧
        t = { s with ctlpos := t.ctlpos, dp := t.dp, ep := t.ep, nbits := t.nbits, dst := t.dst, deferV := t.deferV,
                     deferLen := t.deferLen, deferPos := t.deferPos, status := t.status, dstLen := t.dstLen,
                     result := t.result })

/-- R116: `Search` answers a match inside the window and within the cap, no longer match exists, and among equally long
ones it is the first; `(0, 0)` where there is none. -/
def Obligations.SearchFindsFirstLongest : Prop :=
  ∀ (x : List Byte) (pos l q : Nat), pos ≤ x.length → search x pos = (l, q) →
    l ≤ x.length - pos ∧ l ≤ 273 ∧
    (l = 0 → q = 0) ∧
    (l ≠ 0 → pos ≤ q + 4096 ∧ q < pos ∧ ∀ k, k < l → x[q + k]? = x[pos + k]?) ∧
    (∀ i m, i < pos → pos ≤ i + 4096 → m ≤ x.length - pos → m ≤ 273 → (∀ k, k < m → x[i + k]? = x[pos + k]?) →
      m ≤ l ∧ (i < q → m < l))

/-- R117: the reference engine's choice. A carried match is taken as it is and is then clear; otherwise the best match here is
compared with the best one byte later, which is carried, behind a literal, where it is longer by at least 2; a match of
less than 3 is not usable. Which item a carried match that starts after `EP` gives is left open: R117's distance is then no
natural, and R28 says that no run carries such a match (InvariantKeptByStep). -/
def Obligations.ReferenceChoice : Prop :=
  ∀ (s : State) (l q l' q' : Nat) (item : Item) (carried : Option (Nat × Nat)),
    s.cfg.chooser = .reference → s.started = true → s.ep.toNat < s.srcLen.toNat →
    (l, q) = (if s.deferV then (s.deferLen.toNat, s.deferPos.toNat) else search s.input s.ep.toNat) →
    (l', q') = search s.input (s.ep.toNat + 1) →
    (item, carried) =
      (if s.deferV = false ∧ 3 ≤ l ∧ l + 2 ≤ l' then (.lit (s.srcByte s.ep.toNat), some (l', q'))
       else (if 3 ≤ l then .ref (s.ep.toNat - q) l else .lit (s.srcByte s.ep.toNat), none)) →
    (choose s.cfg.chooser s.input s.ep.toNat s.deferred).2 = carried ∧
    ((s.deferV = true → s.deferPos.toNat ≤ s.ep.toNat) →
      choose s.cfg.chooser s.input s.ep.toNat s.deferred = (item, carried)) ∧
    ∀ t, exec .comp s = .next t → t.status ≠ .fault →
      t.deferV = carried.isSome ∧
      ∀ m, carried = some m → t.deferLen = BitVec.ofNat 9 m.1 ∧ t.deferPos = BitVec.ofNat 32 m.2

/-- R118: the deferred match is clear after the start step, is consumed by the very next iteration, is set only together
with a literal, and is clear when COMP completes. -/
def Obligations.DeferredMatchLife : Prop :=
  ∀ s t : State, exec .comp s = .next t → t.status ≠ .fault →
    (s.started = false → t.deferV = false) ∧
    (s.started = true → s.deferV = true → t.deferV = false) ∧
    (s.started = true → t.deferV = true →
      t.ep = s.ep + 1 ∧ ∃ b carried, choose s.cfg.chooser s.input s.ep.toNat s.deferred = (.lit b, carried)) ∧
    (s.Inv → s.status = .busy → s.op = 3 → t.status = .done → t.deferV = false)

/-- R124(a), for the reference engine and for every other chooser (R127, log 18): the parse is valid for the data. -/
def Obligations.EveryChooserParsesValidly : Prop :=
  ∀ (ch : Chooser) (x : List Byte), validFrom x 0 (parseOf ch x) = true

/-- The spec's inference of R113: a valid parse stands for the data. -/
def Obligations.ValidParseExpandsToData : Prop :=
  ∀ (x : List Byte) (p : List Item), validFrom x 0 p = true → expand p = x

/-- R128 (with R122's bound on the steps): from acceptance, COMP ends, and delivers exactly what `Compress` says of the
input: the stream of the chooser's parse, or DstOverflow. -/
def Obligations.CompRunIsCompress : Prop :=
  ∀ s : State, s.cfg.wf = true → s.moves = [] → s.status = .busy → s.op = 3 → s.started = false →
    ∃ k t, runFor k s = .next t ∧ t.Ended ∧ t.delivered = compress s.cfg s.input ∧ k ≤ 1 + s.srcLen.toNat

/-- The spec's inference of R102(d) and R124(b): `Decompress` gives back the data from every well-formed stream (R70), so
from the output of every conforming compressor (R127). -/
def Obligations.DecompressOfWellFormedStream : Prop :=
  ∀ (x s : List Byte) (dstMax : Option Nat), x.length < 2 ^ 32 → WellFormedStream s x →
    fits dstMax x.length = true → decompress dstMax s = .ok x

/-- R111, the contract of `Compress`, whatever the chooser: (a) the header, (b) the round trip with no capacity limit, (c)
nothing but a header and the emission of tokens whose distances never reach before the start of the output. -/
def Obligations.CompressContract : Prop :=
  ∀ (cfg : Config) (x s : List Byte), x.length < 2 ^ 32 → compress cfg x = .ok s →
    s.take 16 = [0x59, 0x61, 0x7A, 0x30, BitVec.ofNat 8 (x.length / 2 ^ 24), BitVec.ofNat 8 (x.length / 2 ^ 16),
      BitVec.ofNat 8 (x.length / 2 ^ 8), BitVec.ofNat 8 x.length, 0, 0, 0, 0, 0, 0, 0, 0] ∧
    decompress none s = .ok x ∧
    WellFormedStream s x

/-- The body of a parse is its groups of eight tokens in order (R57, after R114): each a control byte, whose bit `7 - i` says
whether token `i` is a literal and whose other bits are 0, and the bytes of its tokens. Of items that cannot be encoded this
speaks of the model's bytes (log 28). -/
def Obligations.EmitIsGroups : Prop :=
  emit [] = [] ∧
  (∀ p q : List Item, p.length % 8 = 0 → emit (p ++ q) = emit p ++ emit q) ∧
  ∀ (it : Item) (p : List Item), p.length ≤ 7 →
    ∃ c : Byte, emit (it :: p) = c :: (it :: p).flatMap itemBytes ∧
      ∀ k, k < 8 → c.getMsbD k = (match (it :: p)[k]? with
        | some (.lit _) => true
        | _ => false)

/-- R124 on the machine: when a COMP run is DONE, a DECOMP run on the bytes it delivered is DONE and delivers the data,
wherever the data fits. -/
def Obligations.RoundTripOnTheMachine : Prop :=
  ∀ (s u v : State) (k : Nat), s.cfg.wf = true → s.moves = [] → s.status = .busy → s.op = 3 → s.started = false →
    runFor k s = .next u → u.status = .done →
    v.moves = [] → v.status = .busy → v.op = 2 → v.started = false → v.input = u.output u.dstLen.toNat →
    v.fitsDst s.srcLen.toNat = true →
    ∃ j w, runFor j v = .next w ∧ w.status = .done ∧ w.output w.dstLen.toNat = s.input

/-- The spec's inference of R125: the stream of a valid parse has at most `16 + n + ceil(n/8)` bytes; R114's count of the
body's bytes. -/
def Obligations.StreamSizeBound : Prop :=
  ∀ (x : List Byte) (p : List Item), validFrom x 0 p = true →
    (streamOf x.length p).length ≤ 16 + x.length + (x.length + 7) / 8 ∧
    (emit p).length = (p.length + 7) / 8 + (p.map fun it => match it with
      | .lit _ => 1
      | .ref _ l => if l ≤ 17 then 2 else 3).sum

/-- The spec's inferences of R126: `ISCOMP` answers 1 for a compressed stream just when the data is not empty, and data of at
most three bytes is all literals in the reference engine. -/
def Obligations.CompressedStreamShape : Prop :=
  (∀ (cfg : Config) (x s : List Byte), x.length < 2 ^ 32 → compress cfg x = .ok s →
    isCompressed s = decide (x ≠ [])) ∧
  ∀ x : List Byte, x.length ≤ 3 → parseOf .reference x = x.map Item.lit

/-! ## CRC16 -/

/-- R136: the start step loads the seed and `SP`, and changes nothing else but two bits of the model's own, left open here: the
carry beside `SP` (log 6; see CrcByteStep) and the phase bit (log 5; see StepRunsCommandInOp). -/
def Obligations.CrcStartLoadsSeed : Prop :=
  ∀ s : State, s.started = false →
    ∃ t, exec .crc16 s = .next t ∧ t = { s with crc := 0x8000, sp := 0, spCarry := t.spCarry, started := t.started }

/-- The byte step of CRC16, bit by bit (after R138, whose constant and bit order are unverified, log 16), over the data and
then two zero bytes that are not read from SRC (R137), and completion (R140). DST is not touched. The number that R138 calls
`SP` is the register with the carry out of its 32 bits (log 6): 0 after the start step, one more after each byte step. -/
def Obligations.CrcByteStep : Prop :=
  (∀ s t : State, s.started = false → exec .crc16 s = .next t → t.crcIndex = 0) ∧
  ∀ s : State, s.started = true → s.crcIndex < s.srcLen.toNat + 2 →
    ∀ (v : Byte) (c : BitVec 16),
      v = (if s.crcIndex < s.srcLen.toNat then s.srcByte s.crcIndex else 0) →
      c = (List.range 8).foldl (fun (c : BitVec 16) (k : Nat) =>
        let shifted := (c >>> 1) ||| (((v >>> k) &&& 1).setWidth 16 <<< 15)
        if c &&& 1 = 1 then shifted ^^^ 0x8408 else shifted) s.crc →
      ∃ t, exec .crc16 s = .next t ∧ t.crcIndex = s.crcIndex + 1 ∧
        (let u := { s with crc := c, sp := s.sp + 1, spCarry := t.spCarry }
         t = if s.crcIndex + 1 = s.srcLen.toNat + 2 then { u with result := c, dstLen := 0, status := .done } else u)

/-- The whole of CRC16 (after R141 and R174; log 16, and log 6 for inputs of 2^32 - 2 bytes and more): from acceptance it is
BUSY for exactly `1 + SRC_LEN + 2` steps and then delivers the CRC of the input. -/
def Obligations.CrcRunIsCrc16 : Prop :=
  ∀ s : State, s.moves = [] → s.status = .busy → s.op = 4 → s.started = false →
    (∃ t, runFor (1 + s.srcLen.toNat + 2) s = .next t ∧ t.status = .done ∧ t.fault = s.fault ∧ t.dstLen = 0 ∧
      t.result = crc16 s.input ∧ t.dst = s.dst ∧ t.src = s.src) ∧
    ∀ k, k < 1 + s.srcLen.toNat + 2 → ∃ t, runFor k s = .next t ∧ t.status = .busy

/-- The spec's inference of R143(a) (log 16): linearity over GF(2) up to the seed. -/
def Obligations.CrcIsAffine : Prop :=
  ∀ a b c : List Byte, a.length = b.length → b.length = c.length →
    crc16 a ^^^ crc16 b ^^^ crc16 c =
      crc16 (List.zipWith (· ^^^ ·) (List.zipWith (· ^^^ ·) a b) c)

/-- The spec's inference of R143(b) (log 16): data followed by its CRC, low byte first, leaves the register at zero, with
and without the two virtual zero bytes. -/
def Obligations.CrcResidue : Prop :=
  ∀ (d : List Byte) (c : BitVec 16), c = crc16 d →
    crcBytes 0x8000 (d ++ [c.setWidth 8, (c >>> 8).setWidth 8]) = 0 ∧
    crc16 (d ++ [c.setWidth 8, (c >>> 8).setWidth 8]) = 0

/-! ## The whole machine -/

/-- R153: a step of the engine that leaves it in FAULT has entered a fault: a code other than none, STATUS, no result, and SRC
and SRC_LEN unchanged. -/
def Obligations.FaultEntry : Prop :=
  ∀ s t : State, s.moves = [] → s.status = .busy → step s = .next t → t.status = .fault →
    t.fault ≠ .none ∧ s.FaultEntered t.fault t

/-- The model's choice for what R153 leaves unspecified (log 14): a fault replaces the whole step's effect (after R98 and R122),
so DST and every working register are as before an engine step that faults; and a command that faults at acceptance leaves
DST and every working register but `OP` as they were, `OP` being written before the checks (after R80). -/
def Obligations.FaultReplacesTheStep : Prop :=
  (∀ s t : State, s.moves = [] → s.status = .busy → step s = .next t → t.status = .fault →
    t = { s with fault := t.fault, status := .fault, dstLen := 0, result := 0 }) ∧
  (∀ (s t : State) (v : BitVec 33) (later : List HostMove), s.moves = .writeReg .cmd v :: later → s.status ≠ .busy →
    step s = .next t → t.status = .fault →
    t.op = v.setWidth 3 ∧
    t = { s with cmd := t.cmd, op := t.op, fault := t.fault, status := .fault, dstLen := 0, result := 0,
                 started := false, moves := later, runs := t.runs }) ∧
  ∀ (s t : State) (c : BitVec 3), s.status ≠ .busy → exec (.reservedCmd c) s = .next t →
    t.op = c ∧
    t = { s with cmd := t.cmd, op := t.op, fault := .badCommand, status := .fault, dstLen := 0, result := 0,
                 started := false, runs := t.runs }

/-- The spec's inference of R161: which operation can raise what. -/
def Obligations.WhichOperationRaisesWhat : Prop :=
  ∀ s t : State, s.status = .busy →
    (exec .iscomp s = .next t → t.status = .done) ∧
    (exec .crc16 s = .next t → t.status ≠ .fault) ∧
    (exec .comp s = .next t → t.status = .fault → t.fault = .dstOverflow) ∧
    (exec .decomp s = .next t → t.status = .fault →
      t.fault ∈ [.formatError, .truncatedInput, .badDistance, .dstOverflow] ∧
      (t.fault = .formatError ∨ t.fault = .dstOverflow → s.started = false))

/-- R17, R53 and R40: no instruction writes SRC, SRC_LEN or the configuration, and ISCOMP, CRC16, CTLF and the reserved
commands do not touch DST. -/
def Obligations.EngineNeverWritesSource : Prop :=
  ∀ (i : Instr) (s t : State), exec i s = .next t →
    t.src = s.src ∧ t.srcLen = s.srcLen ∧ t.cfg = s.cfg ∧ t.moves = s.moves ∧
    (i = .iscomp ∨ i = .crc16 ∨ (∃ k, i = .ctlf k) ∨ (∃ c, i = .reservedCmd c) → t.dst = s.dst)

/-- The frame of COMP in every state whose output pointer leaves room for a token: of DST at most the header's 16 bytes in
the start step, and in a token step the open group's control byte and the four bytes from `DP` on (a control byte and a
token); the registers of the other operations and the buffers' lengths are as before. Of a step that faults this is the
model's choice (log 14), since R153 leaves DST and the working registers unspecified after a fault. -/
def Obligations.CompFrame : Prop :=
  ∀ s t : State, exec .comp s = .next t → s.dp.toNat + 4 < 2 ^ 33 →
    (s.started = false → ∀ a, 16 ≤ a → Memory.read t.dst a = Memory.read s.dst a) ∧
    (s.started = true → ∀ a, a ≠ s.ctlpos.toNat → (a < s.dp.toNat ∨ s.dp.toNat + 4 ≤ a) →
      Memory.read t.dst a = Memory.read s.dst a) ∧
    t = { s with dst := t.dst, dp := t.dp, ep := t.ep, nbits := t.nbits, ctlpos := t.ctlpos, deferV := t.deferV,
                 deferLen := t.deferLen, deferPos := t.deferPos, started := t.started, status := t.status,
                 fault := t.fault, dstLen := t.dstLen, result := t.result }

/-- R29: two engines that have just accepted the same command, with the same parameters and the same input, end alike:
the same STATUS, FAULT, DST_LEN and RESULT and the same bytes of output, whatever else their states hold (DST, the working
registers and the free values of unwritten bytes among it). -/
def Obligations.ResultDependsOnInputOnly : Prop :=
  ∀ s t : State, s.Inv → t.Inv →
    s.moves = [] → t.moves = [] → s.status = .busy → t.status = .busy → s.started = false → t.started = false →
    s.op = t.op → s.cfg = t.cfg → s.srcLen = t.srcLen → s.input = t.input →
    ∀ k u, runFor k s = .next u → u.Ended →
      ∃ j v, runFor j t = .next v ∧ v.status = u.status ∧ v.fault = u.fault ∧ v.dstLen = u.dstLen ∧
        v.result = u.result ∧ v.output v.dstLen.toNat = u.output u.dstLen.toNat
end

