-- ==== Sys2Proof/Laws/Operands.lean ====
section
/-! SUPPORT. Operand assembly and its inverse: ranges, the fields of an encoded back-reference, the header's bytes. -/

namespace Sys2Proof.Machine

/-- A distance is `256 * h + l + 1` (R62). -/
theorem distance_eq (h : BitVec 4) (l : BitVec 8) : distance h l = 256 * h.toNat + l.toNat + 1 := by
  have := l.isLt
  simp only [distance, BitVec.toNat_append]
  rw [Nat.shiftLeft_eq, ← Nat.shiftLeft_eq, ← Nat.shiftLeft_add_eq_or_of_lt this, Nat.shiftLeft_eq]
  omega

theorem distance_pos (h : BitVec 4) (l : BitVec 8) : 1 ≤ distance h l := by simp [distance]

theorem distance_le (h : BitVec 4) (l : BitVec 8) : distance h l ≤ 4096 := by
  have := h.isLt; have := l.isLt; rw [distance_eq]; omega

theorem shortLength_le (n : BitVec 4) : shortLength n ≤ 17 := by have := n.isLt; simp only [shortLength]; omega

theorem shortLength_ge {n : BitVec 4} (h : n ≠ 0) : 3 ≤ shortLength n := by
  have : n.toNat ≠ 0 := fun h0 => h (BitVec.eq_of_toNat_eq (by simpa using h0))
  simp only [shortLength]; omega

theorem longLength_ge (c : BitVec 8) : 18 ≤ longLength c := by simp only [longLength]; omega

theorem longLength_le (c : BitVec 8) : longLength c ≤ 273 := by have := c.isLt; simp only [longLength]; omega

theorem highNibble_append (n h : BitVec 4) : highNibble (n ++ h) = n := by
  show BitVec.extractLsb' 4 4 (n ++ h : BitVec (4 + 4)) = n
  apply BitVec.eq_of_getLsbD_eq
  intro i hi
  simp only [BitVec.getLsbD_extractLsb', BitVec.getLsbD_append]
  simp [hi]

theorem lowNibble_append (n h : BitVec 4) : lowNibble (n ++ h) = h := by
  show BitVec.extractLsb' 0 4 (n ++ h : BitVec (4 + 4)) = h
  apply BitVec.eq_of_getLsbD_eq
  intro i hi
  simp only [BitVec.getLsbD_extractLsb', BitVec.getLsbD_append]
  simp [hi]

/-- The two nibbles of a byte make it up. -/
theorem nibbles_append (a : Byte) : highNibble a ++ lowNibble a = a := by
  apply BitVec.eq_of_getLsbD_eq
  intro i hi
  simp only [highNibble, lowNibble, BitVec.getLsbD_append, BitVec.getLsbD_extractLsb']
  by_cases h : i < 4
  · simp [h]
  · have : i - 4 < 4 := by omega
    simp [h, this, show 4 + (i - 4) = i by omega]

@[simp] theorem be32_length (v : BitVec 32) : (be32 v).length = 4 := rfl

@[simp] theorem header_length (m : BitVec 32) : (header m).length = 16 := rfl

end Sys2Proof.Machine
end

