-- ==== Sys2Proof/Laws/Memory.lean ====
section
/-! SUPPORT. The laws of memory: a read after a write, and the canonical form, which every write keeps. -/

namespace Sys2Proof.Machine

@[simp] theorem Memory.read_nil (a : Nat) : Memory.read [] a = none := rfl

@[simp] theorem Memory.read_write_same (a : Nat) (v : Byte) (m : Memory) :
    Memory.read (Memory.write a v m) a = some v := by
  induction m with
  | nil => simp [Memory.write, Memory.read]
  | cons c m ih =>
    obtain ⟨b, w⟩ := c
    unfold Memory.write
    split
    · simp [Memory.read]
    · split
      · simp [Memory.read]
      · simp_all [Memory.read]

theorem Memory.read_write_other {a b : Nat} (h : b ≠ a) (v : Byte) (m : Memory) :
    Memory.read (Memory.write a v m) b = Memory.read m b := by
  induction m with
  | nil => simp [Memory.write, Memory.read, h]
  | cons c m ih =>
    obtain ⟨d, w⟩ := c
    unfold Memory.write
    split
    · simp [Memory.read, h]
    · split
      · rename_i h2; subst h2; simp [Memory.read, h]
      · simp [Memory.read, ih]

theorem Memory.read_write (a b : Nat) (v : Byte) (m : Memory) :
    Memory.read (Memory.write a v m) b = if b = a then some v else Memory.read m b := by
  split
  · next h => subst h; simp
  · next h => exact Memory.read_write_other h v m

/-- A canonical memory with a first cell: the rest is canonical and starts above it. -/
theorem Memory.wf_cons (c : Host.Cell) (m : Memory) :
    Memory.wf (c :: m) = true ↔ Memory.wf m = true ∧ ∀ d ∈ m.head?, c.1 < d.1 := by
  cases m with
  | nil => simp [Memory.wf]
  | cons d m => simp [Memory.wf, and_comm]

theorem Memory.head_write (a : Nat) (v : Byte) (m : Memory) :
    ∀ d ∈ (Memory.write a v m).head?, d.1 = a ∨ ∃ e ∈ m.head?, d.1 = e.1 := by
  cases m with
  | nil => simp [Memory.write]
  | cons c m =>
    obtain ⟨b, w⟩ := c
    unfold Memory.write
    split
    · simp
    · split
      · simp
      · simp

/-- Every write keeps the canonical form. -/
theorem Memory.wf_write (a : Nat) (v : Byte) (m : Memory) (h : Memory.wf m = true) :
    Memory.wf (Memory.write a v m) = true := by
  induction m with
  | nil => simp [Memory.write, Memory.wf]
  | cons c m ih =>
    obtain ⟨b, w⟩ := c
    have hm := (Memory.wf_cons _ _).1 h
    unfold Memory.write
    split
    · next hab => exact (Memory.wf_cons _ _).2 ⟨h, by simpa using hab⟩
    · split
      · next _ hab => subst hab; exact (Memory.wf_cons _ _).2 hm
      · next h1 h2 =>
        refine (Memory.wf_cons _ _).2 ⟨ih hm.1, fun d hd => ?_⟩
        rcases Memory.head_write a v m d hd with hd | ⟨e, he, hd⟩
        · simp only [hd]; omega
        · have := hm.2 e he; simp only at this ⊢; omega

/-- The memories of the state after reset are canonical. -/
theorem reset_memory_wf : Memory.wf State.reset.src = true ∧ Memory.wf State.reset.dst = true := by decide

/-- Canonical memories that read alike are equal data. -/
theorem Memory.read_lt_head {c : Host.Cell} {m : Memory} (h : Memory.wf (c :: m) = true) {a : Nat} (ha : a ≤ c.1) :
    Memory.read m a = none := by
  induction m generalizing c with
  | nil => rfl
  | cons d m ih =>
    have hcd : c.1 < d.1 := ((Memory.wf_cons _ _).1 h).2 d (by simp)
    obtain ⟨b, w⟩ := d
    simp only at hcd
    have hne : a ≠ b := by omega
    simp only [Memory.read, if_neg hne]
    exact ih ((Memory.wf_cons _ _).1 h).1 (by simp only; omega)

theorem Memory.ext_of_wf {m n : Memory} (hm : Memory.wf m = true) (hn : Memory.wf n = true)
    (h : ∀ a, Memory.read m a = Memory.read n a) : m = n := by
  induction m generalizing n with
  | nil =>
    cases n with
    | nil => rfl
    | cons d n => have := h d.1; simp [Memory.read] at this
  | cons c m ih =>
    cases n with
    | nil => have := h c.1; simp [Memory.read] at this
    | cons d n =>
      obtain ⟨b, w⟩ := c
      obtain ⟨e, u⟩ := d
      have hbe : b = e := by
        rcases Nat.lt_trichotomy b e with hlt | heq | hgt
        · have h1 := h b
          have h2 : Memory.read n b = none := Memory.read_lt_head hn (by simp only; omega)
          simp [Memory.read, h2, Nat.ne_of_lt hlt] at h1
        · exact heq
        · have h1 := h e
          have h2 : Memory.read m e = none := Memory.read_lt_head hm (by simp only; omega)
          simp [Memory.read, h2, Nat.ne_of_lt hgt] at h1
      subst hbe
      have hw : w = u := by simpa [Memory.read] using h b
      subst hw
      congr 1
      refine ih ((Memory.wf_cons _ _).1 hm).1 ((Memory.wf_cons _ _).1 hn).1 fun a => ?_
      by_cases hab : a = b
      · subst hab
        rw [Memory.read_lt_head hm (Nat.le_refl _), Memory.read_lt_head hn (Nat.le_refl _)]
      · simpa [Memory.read, hab] using h a

end Sys2Proof.Machine
end

