-- ==== Sys2Proof/Laws/State.lean ====
section
/-! SUPPORT. One lemma for each field of State under each named update: what the update writes there, or that it leaves it. -/

namespace Sys2Proof.Machine

variable (s : State)

@[simp] theorem State.raise_cfg (f : FaultCode) : (s.raise f).cfg = s.cfg := rfl
@[simp] theorem State.raise_cmd (f : FaultCode) : (s.raise f).cmd = s.cmd := rfl
@[simp] theorem State.raise_status (f : FaultCode) : (s.raise f).status = .fault := rfl
@[simp] theorem State.raise_fault (f : FaultCode) : (s.raise f).fault = f := rfl
@[simp] theorem State.raise_srcLen (f : FaultCode) : (s.raise f).srcLen = s.srcLen := rfl
@[simp] theorem State.raise_dstLen (f : FaultCode) : (s.raise f).dstLen = 0 := rfl
@[simp] theorem State.raise_result (f : FaultCode) : (s.raise f).result = 0 := rfl
@[simp] theorem State.raise_op (f : FaultCode) : (s.raise f).op = s.op := rfl
@[simp] theorem State.raise_sp (f : FaultCode) : (s.raise f).sp = s.sp := rfl
@[simp] theorem State.raise_dp (f : FaultCode) : (s.raise f).dp = s.dp := rfl
@[simp] theorem State.raise_dsize (f : FaultCode) : (s.raise f).dsize = s.dsize := rfl
@[simp] theorem State.raise_ctl (f : FaultCode) : (s.raise f).ctl = s.ctl := rfl
@[simp] theorem State.raise_cnt (f : FaultCode) : (s.raise f).cnt = s.cnt := rfl
@[simp] theorem State.raise_ep (f : FaultCode) : (s.raise f).ep = s.ep := rfl
@[simp] theorem State.raise_ctlpos (f : FaultCode) : (s.raise f).ctlpos = s.ctlpos := rfl
@[simp] theorem State.raise_nbits (f : FaultCode) : (s.raise f).nbits = s.nbits := rfl
@[simp] theorem State.raise_deferV (f : FaultCode) : (s.raise f).deferV = s.deferV := rfl
@[simp] theorem State.raise_deferLen (f : FaultCode) : (s.raise f).deferLen = s.deferLen := rfl
@[simp] theorem State.raise_deferPos (f : FaultCode) : (s.raise f).deferPos = s.deferPos := rfl
@[simp] theorem State.raise_crc (f : FaultCode) : (s.raise f).crc = s.crc := rfl
@[simp] theorem State.raise_src (f : FaultCode) : (s.raise f).src = s.src := rfl
@[simp] theorem State.raise_dst (f : FaultCode) : (s.raise f).dst = s.dst := rfl
@[simp] theorem State.raise_spCarry (f : FaultCode) : (s.raise f).spCarry = s.spCarry := rfl
@[simp] theorem State.raise_started (f : FaultCode) : (s.raise f).started = s.started := rfl
@[simp] theorem State.raise_moves (f : FaultCode) : (s.raise f).moves = s.moves := rfl
@[simp] theorem State.raise_rdata (f : FaultCode) : (s.raise f).rdata = s.rdata := rfl
@[simp] theorem State.raise_resets (f : FaultCode) : (s.raise f).resets = s.resets := rfl
@[simp] theorem State.raise_runs (f : FaultCode) : (s.raise f).runs = s.runs := rfl

@[simp] theorem State.latchCommand_cfg (c : BitVec 3) : (s.latchCommand c).cfg = s.cfg := rfl
@[simp] theorem State.latchCommand_cmd (c : BitVec 3) : (s.latchCommand c).cmd = c := rfl
@[simp] theorem State.latchCommand_status (c : BitVec 3) : (s.latchCommand c).status = s.status := rfl
@[simp] theorem State.latchCommand_fault (c : BitVec 3) : (s.latchCommand c).fault = .none := rfl
@[simp] theorem State.latchCommand_srcLen (c : BitVec 3) : (s.latchCommand c).srcLen = s.srcLen := rfl
@[simp] theorem State.latchCommand_dstLen (c : BitVec 3) : (s.latchCommand c).dstLen = 0 := rfl
@[simp] theorem State.latchCommand_result (c : BitVec 3) : (s.latchCommand c).result = 0 := rfl
@[simp] theorem State.latchCommand_op (c : BitVec 3) : (s.latchCommand c).op = c := rfl
@[simp] theorem State.latchCommand_sp (c : BitVec 3) : (s.latchCommand c).sp = s.sp := rfl
@[simp] theorem State.latchCommand_dp (c : BitVec 3) : (s.latchCommand c).dp = s.dp := rfl
@[simp] theorem State.latchCommand_dsize (c : BitVec 3) : (s.latchCommand c).dsize = s.dsize := rfl
@[simp] theorem State.latchCommand_ctl (c : BitVec 3) : (s.latchCommand c).ctl = s.ctl := rfl
@[simp] theorem State.latchCommand_cnt (c : BitVec 3) : (s.latchCommand c).cnt = s.cnt := rfl
@[simp] theorem State.latchCommand_ep (c : BitVec 3) : (s.latchCommand c).ep = s.ep := rfl
@[simp] theorem State.latchCommand_ctlpos (c : BitVec 3) : (s.latchCommand c).ctlpos = s.ctlpos := rfl
@[simp] theorem State.latchCommand_nbits (c : BitVec 3) : (s.latchCommand c).nbits = s.nbits := rfl
@[simp] theorem State.latchCommand_deferV (c : BitVec 3) : (s.latchCommand c).deferV = s.deferV := rfl
@[simp] theorem State.latchCommand_deferLen (c : BitVec 3) : (s.latchCommand c).deferLen = s.deferLen := rfl
@[simp] theorem State.latchCommand_deferPos (c : BitVec 3) : (s.latchCommand c).deferPos = s.deferPos := rfl
@[simp] theorem State.latchCommand_crc (c : BitVec 3) : (s.latchCommand c).crc = s.crc := rfl
@[simp] theorem State.latchCommand_src (c : BitVec 3) : (s.latchCommand c).src = s.src := rfl
@[simp] theorem State.latchCommand_dst (c : BitVec 3) : (s.latchCommand c).dst = s.dst := rfl
@[simp] theorem State.latchCommand_spCarry (c : BitVec 3) : (s.latchCommand c).spCarry = s.spCarry := rfl
@[simp] theorem State.latchCommand_started (c : BitVec 3) : (s.latchCommand c).started = false := rfl
@[simp] theorem State.latchCommand_moves (c : BitVec 3) : (s.latchCommand c).moves = s.moves := rfl
@[simp] theorem State.latchCommand_rdata (c : BitVec 3) : (s.latchCommand c).rdata = s.rdata := rfl
@[simp] theorem State.latchCommand_resets (c : BitVec 3) : (s.latchCommand c).resets = s.resets := rfl
@[simp] theorem State.latchCommand_runs (c : BitVec 3) : (s.latchCommand c).runs = s.runs + 1 := rfl

@[simp] theorem State.complete_cfg (n : BitVec 33) (r : BitVec 16) : (s.complete n r).cfg = s.cfg := rfl
@[simp] theorem State.complete_cmd (n : BitVec 33) (r : BitVec 16) : (s.complete n r).cmd = s.cmd := rfl
@[simp] theorem State.complete_status (n : BitVec 33) (r : BitVec 16) : (s.complete n r).status = .done := rfl
@[simp] theorem State.complete_fault (n : BitVec 33) (r : BitVec 16) : (s.complete n r).fault = s.fault := rfl
@[simp] theorem State.complete_srcLen (n : BitVec 33) (r : BitVec 16) : (s.complete n r).srcLen = s.srcLen := rfl
@[simp] theorem State.complete_dstLen (n : BitVec 33) (r : BitVec 16) : (s.complete n r).dstLen = n := rfl
@[simp] theorem State.complete_result (n : BitVec 33) (r : BitVec 16) : (s.complete n r).result = r := rfl
@[simp] theorem State.complete_op (n : BitVec 33) (r : BitVec 16) : (s.complete n r).op = s.op := rfl
@[simp] theorem State.complete_sp (n : BitVec 33) (r : BitVec 16) : (s.complete n r).sp = s.sp := rfl
@[simp] theorem State.complete_dp (n : BitVec 33) (r : BitVec 16) : (s.complete n r).dp = s.dp := rfl
@[simp] theorem State.complete_dsize (n : BitVec 33) (r : BitVec 16) : (s.complete n r).dsize = s.dsize := rfl
@[simp] theorem State.complete_ctl (n : BitVec 33) (r : BitVec 16) : (s.complete n r).ctl = s.ctl := rfl
@[simp] theorem State.complete_cnt (n : BitVec 33) (r : BitVec 16) : (s.complete n r).cnt = s.cnt := rfl
@[simp] theorem State.complete_ep (n : BitVec 33) (r : BitVec 16) : (s.complete n r).ep = s.ep := rfl
@[simp] theorem State.complete_ctlpos (n : BitVec 33) (r : BitVec 16) : (s.complete n r).ctlpos = s.ctlpos := rfl
@[simp] theorem State.complete_nbits (n : BitVec 33) (r : BitVec 16) : (s.complete n r).nbits = s.nbits := rfl
@[simp] theorem State.complete_deferV (n : BitVec 33) (r : BitVec 16) : (s.complete n r).deferV = s.deferV := rfl
@[simp] theorem State.complete_deferLen (n : BitVec 33) (r : BitVec 16) : (s.complete n r).deferLen = s.deferLen := rfl
@[simp] theorem State.complete_deferPos (n : BitVec 33) (r : BitVec 16) : (s.complete n r).deferPos = s.deferPos := rfl
@[simp] theorem State.complete_crc (n : BitVec 33) (r : BitVec 16) : (s.complete n r).crc = s.crc := rfl
@[simp] theorem State.complete_src (n : BitVec 33) (r : BitVec 16) : (s.complete n r).src = s.src := rfl
@[simp] theorem State.complete_dst (n : BitVec 33) (r : BitVec 16) : (s.complete n r).dst = s.dst := rfl
@[simp] theorem State.complete_spCarry (n : BitVec 33) (r : BitVec 16) : (s.complete n r).spCarry = s.spCarry := rfl
@[simp] theorem State.complete_started (n : BitVec 33) (r : BitVec 16) : (s.complete n r).started = s.started := rfl
@[simp] theorem State.complete_moves (n : BitVec 33) (r : BitVec 16) : (s.complete n r).moves = s.moves := rfl
@[simp] theorem State.complete_rdata (n : BitVec 33) (r : BitVec 16) : (s.complete n r).rdata = s.rdata := rfl
@[simp] theorem State.complete_resets (n : BitVec 33) (r : BitVec 16) : (s.complete n r).resets = s.resets := rfl
@[simp] theorem State.complete_runs (n : BitVec 33) (r : BitVec 16) : (s.complete n r).runs = s.runs := rfl

@[simp] theorem State.storeDst_cfg (a : Nat) (v : Byte) : (s.storeDst a v).cfg = s.cfg := rfl
@[simp] theorem State.storeDst_cmd (a : Nat) (v : Byte) : (s.storeDst a v).cmd = s.cmd := rfl
@[simp] theorem State.storeDst_status (a : Nat) (v : Byte) : (s.storeDst a v).status = s.status := rfl
@[simp] theorem State.storeDst_fault (a : Nat) (v : Byte) : (s.storeDst a v).fault = s.fault := rfl
@[simp] theorem State.storeDst_srcLen (a : Nat) (v : Byte) : (s.storeDst a v).srcLen = s.srcLen := rfl
@[simp] theorem State.storeDst_dstLen (a : Nat) (v : Byte) : (s.storeDst a v).dstLen = s.dstLen := rfl
@[simp] theorem State.storeDst_result (a : Nat) (v : Byte) : (s.storeDst a v).result = s.result := rfl
@[simp] theorem State.storeDst_op (a : Nat) (v : Byte) : (s.storeDst a v).op = s.op := rfl
@[simp] theorem State.storeDst_sp (a : Nat) (v : Byte) : (s.storeDst a v).sp = s.sp := rfl
@[simp] theorem State.storeDst_dp (a : Nat) (v : Byte) : (s.storeDst a v).dp = s.dp := rfl
@[simp] theorem State.storeDst_dsize (a : Nat) (v : Byte) : (s.storeDst a v).dsize = s.dsize := rfl
@[simp] theorem State.storeDst_ctl (a : Nat) (v : Byte) : (s.storeDst a v).ctl = s.ctl := rfl
@[simp] theorem State.storeDst_cnt (a : Nat) (v : Byte) : (s.storeDst a v).cnt = s.cnt := rfl
@[simp] theorem State.storeDst_ep (a : Nat) (v : Byte) : (s.storeDst a v).ep = s.ep := rfl
@[simp] theorem State.storeDst_ctlpos (a : Nat) (v : Byte) : (s.storeDst a v).ctlpos = s.ctlpos := rfl
@[simp] theorem State.storeDst_nbits (a : Nat) (v : Byte) : (s.storeDst a v).nbits = s.nbits := rfl
@[simp] theorem State.storeDst_deferV (a : Nat) (v : Byte) : (s.storeDst a v).deferV = s.deferV := rfl
@[simp] theorem State.storeDst_deferLen (a : Nat) (v : Byte) : (s.storeDst a v).deferLen = s.deferLen := rfl
@[simp] theorem State.storeDst_deferPos (a : Nat) (v : Byte) : (s.storeDst a v).deferPos = s.deferPos := rfl
@[simp] theorem State.storeDst_crc (a : Nat) (v : Byte) : (s.storeDst a v).crc = s.crc := rfl
@[simp] theorem State.storeDst_src (a : Nat) (v : Byte) : (s.storeDst a v).src = s.src := rfl
@[simp] theorem State.storeDst_dst (a : Nat) (v : Byte) : (s.storeDst a v).dst = Memory.write a v s.dst := rfl
@[simp] theorem State.storeDst_spCarry (a : Nat) (v : Byte) : (s.storeDst a v).spCarry = s.spCarry := rfl
@[simp] theorem State.storeDst_started (a : Nat) (v : Byte) : (s.storeDst a v).started = s.started := rfl
@[simp] theorem State.storeDst_moves (a : Nat) (v : Byte) : (s.storeDst a v).moves = s.moves := rfl
@[simp] theorem State.storeDst_rdata (a : Nat) (v : Byte) : (s.storeDst a v).rdata = s.rdata := rfl
@[simp] theorem State.storeDst_resets (a : Nat) (v : Byte) : (s.storeDst a v).resets = s.resets := rfl
@[simp] theorem State.storeDst_runs (a : Nat) (v : Byte) : (s.storeDst a v).runs = s.runs := rfl

@[simp] theorem State.storeSrc_cfg (a : Nat) (v : Byte) : (s.storeSrc a v).cfg = s.cfg := rfl
@[simp] theorem State.storeSrc_cmd (a : Nat) (v : Byte) : (s.storeSrc a v).cmd = s.cmd := rfl
@[simp] theorem State.storeSrc_status (a : Nat) (v : Byte) : (s.storeSrc a v).status = s.status := rfl
@[simp] theorem State.storeSrc_fault (a : Nat) (v : Byte) : (s.storeSrc a v).fault = s.fault := rfl
@[simp] theorem State.storeSrc_srcLen (a : Nat) (v : Byte) : (s.storeSrc a v).srcLen = s.srcLen := rfl
@[simp] theorem State.storeSrc_dstLen (a : Nat) (v : Byte) : (s.storeSrc a v).dstLen = s.dstLen := rfl
@[simp] theorem State.storeSrc_result (a : Nat) (v : Byte) : (s.storeSrc a v).result = s.result := rfl
@[simp] theorem State.storeSrc_op (a : Nat) (v : Byte) : (s.storeSrc a v).op = s.op := rfl
@[simp] theorem State.storeSrc_sp (a : Nat) (v : Byte) : (s.storeSrc a v).sp = s.sp := rfl
@[simp] theorem State.storeSrc_dp (a : Nat) (v : Byte) : (s.storeSrc a v).dp = s.dp := rfl
@[simp] theorem State.storeSrc_dsize (a : Nat) (v : Byte) : (s.storeSrc a v).dsize = s.dsize := rfl
@[simp] theorem State.storeSrc_ctl (a : Nat) (v : Byte) : (s.storeSrc a v).ctl = s.ctl := rfl
@[simp] theorem State.storeSrc_cnt (a : Nat) (v : Byte) : (s.storeSrc a v).cnt = s.cnt := rfl
@[simp] theorem State.storeSrc_ep (a : Nat) (v : Byte) : (s.storeSrc a v).ep = s.ep := rfl
@[simp] theorem State.storeSrc_ctlpos (a : Nat) (v : Byte) : (s.storeSrc a v).ctlpos = s.ctlpos := rfl
@[simp] theorem State.storeSrc_nbits (a : Nat) (v : Byte) : (s.storeSrc a v).nbits = s.nbits := rfl
@[simp] theorem State.storeSrc_deferV (a : Nat) (v : Byte) : (s.storeSrc a v).deferV = s.deferV := rfl
@[simp] theorem State.storeSrc_deferLen (a : Nat) (v : Byte) : (s.storeSrc a v).deferLen = s.deferLen := rfl
@[simp] theorem State.storeSrc_deferPos (a : Nat) (v : Byte) : (s.storeSrc a v).deferPos = s.deferPos := rfl
@[simp] theorem State.storeSrc_crc (a : Nat) (v : Byte) : (s.storeSrc a v).crc = s.crc := rfl
@[simp] theorem State.storeSrc_src (a : Nat) (v : Byte) : (s.storeSrc a v).src = Memory.write a v s.src := rfl
@[simp] theorem State.storeSrc_dst (a : Nat) (v : Byte) : (s.storeSrc a v).dst = s.dst := rfl
@[simp] theorem State.storeSrc_spCarry (a : Nat) (v : Byte) : (s.storeSrc a v).spCarry = s.spCarry := rfl
@[simp] theorem State.storeSrc_started (a : Nat) (v : Byte) : (s.storeSrc a v).started = s.started := rfl
@[simp] theorem State.storeSrc_moves (a : Nat) (v : Byte) : (s.storeSrc a v).moves = s.moves := rfl
@[simp] theorem State.storeSrc_rdata (a : Nat) (v : Byte) : (s.storeSrc a v).rdata = s.rdata := rfl
@[simp] theorem State.storeSrc_resets (a : Nat) (v : Byte) : (s.storeSrc a v).resets = s.resets := rfl
@[simp] theorem State.storeSrc_runs (a : Nat) (v : Byte) : (s.storeSrc a v).runs = s.runs := rfl

@[simp] theorem State.takeBit_cfg : (s.takeBit).cfg = s.cfg := rfl
@[simp] theorem State.takeBit_cmd : (s.takeBit).cmd = s.cmd := rfl
@[simp] theorem State.takeBit_status : (s.takeBit).status = s.status := rfl
@[simp] theorem State.takeBit_fault : (s.takeBit).fault = s.fault := rfl
@[simp] theorem State.takeBit_srcLen : (s.takeBit).srcLen = s.srcLen := rfl
@[simp] theorem State.takeBit_dstLen : (s.takeBit).dstLen = s.dstLen := rfl
@[simp] theorem State.takeBit_result : (s.takeBit).result = s.result := rfl
@[simp] theorem State.takeBit_op : (s.takeBit).op = s.op := rfl
@[simp] theorem State.takeBit_sp : (s.takeBit).sp = s.sp := rfl
@[simp] theorem State.takeBit_dp : (s.takeBit).dp = s.dp := rfl
@[simp] theorem State.takeBit_dsize : (s.takeBit).dsize = s.dsize := rfl
@[simp] theorem State.takeBit_ctl : (s.takeBit).ctl = s.ctl <<< 1 := rfl
@[simp] theorem State.takeBit_cnt : (s.takeBit).cnt = s.cnt - 1 := rfl
@[simp] theorem State.takeBit_ep : (s.takeBit).ep = s.ep := rfl
@[simp] theorem State.takeBit_ctlpos : (s.takeBit).ctlpos = s.ctlpos := rfl
@[simp] theorem State.takeBit_nbits : (s.takeBit).nbits = s.nbits := rfl
@[simp] theorem State.takeBit_deferV : (s.takeBit).deferV = s.deferV := rfl
@[simp] theorem State.takeBit_deferLen : (s.takeBit).deferLen = s.deferLen := rfl
@[simp] theorem State.takeBit_deferPos : (s.takeBit).deferPos = s.deferPos := rfl
@[simp] theorem State.takeBit_crc : (s.takeBit).crc = s.crc := rfl
@[simp] theorem State.takeBit_src : (s.takeBit).src = s.src := rfl
@[simp] theorem State.takeBit_dst : (s.takeBit).dst = s.dst := rfl
@[simp] theorem State.takeBit_spCarry : (s.takeBit).spCarry = s.spCarry := rfl
@[simp] theorem State.takeBit_started : (s.takeBit).started = s.started := rfl
@[simp] theorem State.takeBit_moves : (s.takeBit).moves = s.moves := rfl
@[simp] theorem State.takeBit_rdata : (s.takeBit).rdata = s.rdata := rfl
@[simp] theorem State.takeBit_resets : (s.takeBit).resets = s.resets := rfl
@[simp] theorem State.takeBit_runs : (s.takeBit).runs = s.runs := rfl

@[simp] theorem State.advanceSp_cfg (k : BitVec 32) : (s.advanceSp k).cfg = s.cfg := rfl
@[simp] theorem State.advanceSp_cmd (k : BitVec 32) : (s.advanceSp k).cmd = s.cmd := rfl
@[simp] theorem State.advanceSp_status (k : BitVec 32) : (s.advanceSp k).status = s.status := rfl
@[simp] theorem State.advanceSp_fault (k : BitVec 32) : (s.advanceSp k).fault = s.fault := rfl
@[simp] theorem State.advanceSp_srcLen (k : BitVec 32) : (s.advanceSp k).srcLen = s.srcLen := rfl
@[simp] theorem State.advanceSp_dstLen (k : BitVec 32) : (s.advanceSp k).dstLen = s.dstLen := rfl
@[simp] theorem State.advanceSp_result (k : BitVec 32) : (s.advanceSp k).result = s.result := rfl
@[simp] theorem State.advanceSp_op (k : BitVec 32) : (s.advanceSp k).op = s.op := rfl
@[simp] theorem State.advanceSp_sp (k : BitVec 32) : (s.advanceSp k).sp = s.sp + k := rfl
@[simp] theorem State.advanceSp_dp (k : BitVec 32) : (s.advanceSp k).dp = s.dp := rfl
@[simp] theorem State.advanceSp_dsize (k : BitVec 32) : (s.advanceSp k).dsize = s.dsize := rfl
@[simp] theorem State.advanceSp_ctl (k : BitVec 32) : (s.advanceSp k).ctl = s.ctl := rfl
@[simp] theorem State.advanceSp_cnt (k : BitVec 32) : (s.advanceSp k).cnt = s.cnt := rfl
@[simp] theorem State.advanceSp_ep (k : BitVec 32) : (s.advanceSp k).ep = s.ep := rfl
@[simp] theorem State.advanceSp_ctlpos (k : BitVec 32) : (s.advanceSp k).ctlpos = s.ctlpos := rfl
@[simp] theorem State.advanceSp_nbits (k : BitVec 32) : (s.advanceSp k).nbits = s.nbits := rfl
@[simp] theorem State.advanceSp_deferV (k : BitVec 32) : (s.advanceSp k).deferV = s.deferV := rfl
@[simp] theorem State.advanceSp_deferLen (k : BitVec 32) : (s.advanceSp k).deferLen = s.deferLen := rfl
@[simp] theorem State.advanceSp_deferPos (k : BitVec 32) : (s.advanceSp k).deferPos = s.deferPos := rfl
@[simp] theorem State.advanceSp_crc (k : BitVec 32) : (s.advanceSp k).crc = s.crc := rfl
@[simp] theorem State.advanceSp_src (k : BitVec 32) : (s.advanceSp k).src = s.src := rfl
@[simp] theorem State.advanceSp_dst (k : BitVec 32) : (s.advanceSp k).dst = s.dst := rfl
@[simp] theorem State.advanceSp_spCarry (k : BitVec 32) : (s.advanceSp k).spCarry = s.spCarry := rfl
@[simp] theorem State.advanceSp_started (k : BitVec 32) : (s.advanceSp k).started = s.started := rfl
@[simp] theorem State.advanceSp_moves (k : BitVec 32) : (s.advanceSp k).moves = s.moves := rfl
@[simp] theorem State.advanceSp_rdata (k : BitVec 32) : (s.advanceSp k).rdata = s.rdata := rfl
@[simp] theorem State.advanceSp_resets (k : BitVec 32) : (s.advanceSp k).resets = s.resets := rfl
@[simp] theorem State.advanceSp_runs (k : BitVec 32) : (s.advanceSp k).runs = s.runs := rfl

@[simp] theorem State.advanceCrc_cfg : (s.advanceCrc).cfg = s.cfg := rfl
@[simp] theorem State.advanceCrc_cmd : (s.advanceCrc).cmd = s.cmd := rfl
@[simp] theorem State.advanceCrc_status : (s.advanceCrc).status = s.status := rfl
@[simp] theorem State.advanceCrc_fault : (s.advanceCrc).fault = s.fault := rfl
@[simp] theorem State.advanceCrc_srcLen : (s.advanceCrc).srcLen = s.srcLen := rfl
@[simp] theorem State.advanceCrc_dstLen : (s.advanceCrc).dstLen = s.dstLen := rfl
@[simp] theorem State.advanceCrc_result : (s.advanceCrc).result = s.result := rfl
@[simp] theorem State.advanceCrc_op : (s.advanceCrc).op = s.op := rfl
@[simp] theorem State.advanceCrc_sp : (s.advanceCrc).sp = s.sp + 1 := rfl
@[simp] theorem State.advanceCrc_dp : (s.advanceCrc).dp = s.dp := rfl
@[simp] theorem State.advanceCrc_dsize : (s.advanceCrc).dsize = s.dsize := rfl
@[simp] theorem State.advanceCrc_ctl : (s.advanceCrc).ctl = s.ctl := rfl
@[simp] theorem State.advanceCrc_cnt : (s.advanceCrc).cnt = s.cnt := rfl
@[simp] theorem State.advanceCrc_ep : (s.advanceCrc).ep = s.ep := rfl
@[simp] theorem State.advanceCrc_ctlpos : (s.advanceCrc).ctlpos = s.ctlpos := rfl
@[simp] theorem State.advanceCrc_nbits : (s.advanceCrc).nbits = s.nbits := rfl
@[simp] theorem State.advanceCrc_deferV : (s.advanceCrc).deferV = s.deferV := rfl
@[simp] theorem State.advanceCrc_deferLen : (s.advanceCrc).deferLen = s.deferLen := rfl
@[simp] theorem State.advanceCrc_deferPos : (s.advanceCrc).deferPos = s.deferPos := rfl
@[simp] theorem State.advanceCrc_crc : (s.advanceCrc).crc = s.crc := rfl
@[simp] theorem State.advanceCrc_src : (s.advanceCrc).src = s.src := rfl
@[simp] theorem State.advanceCrc_dst : (s.advanceCrc).dst = s.dst := rfl
@[simp] theorem State.advanceCrc_spCarry : (s.advanceCrc).spCarry = (s.spCarry || s.sp == BitVec.allOnes 32) := rfl
@[simp] theorem State.advanceCrc_started : (s.advanceCrc).started = s.started := rfl
@[simp] theorem State.advanceCrc_moves : (s.advanceCrc).moves = s.moves := rfl
@[simp] theorem State.advanceCrc_rdata : (s.advanceCrc).rdata = s.rdata := rfl
@[simp] theorem State.advanceCrc_resets : (s.advanceCrc).resets = s.resets := rfl
@[simp] theorem State.advanceCrc_runs : (s.advanceCrc).runs = s.runs := rfl

@[simp] theorem State.closeToken_cfg (k : Nat) : (s.closeToken k).cfg = s.cfg := rfl
@[simp] theorem State.closeToken_cmd (k : Nat) : (s.closeToken k).cmd = s.cmd := rfl
@[simp] theorem State.closeToken_status (k : Nat) : (s.closeToken k).status = s.status := rfl
@[simp] theorem State.closeToken_fault (k : Nat) : (s.closeToken k).fault = s.fault := rfl
@[simp] theorem State.closeToken_srcLen (k : Nat) : (s.closeToken k).srcLen = s.srcLen := rfl
@[simp] theorem State.closeToken_dstLen (k : Nat) : (s.closeToken k).dstLen = s.dstLen := rfl
@[simp] theorem State.closeToken_result (k : Nat) : (s.closeToken k).result = s.result := rfl
@[simp] theorem State.closeToken_op (k : Nat) : (s.closeToken k).op = s.op := rfl
@[simp] theorem State.closeToken_sp (k : Nat) : (s.closeToken k).sp = s.sp := rfl
@[simp] theorem State.closeToken_dp (k : Nat) : (s.closeToken k).dp = s.dp := rfl
@[simp] theorem State.closeToken_dsize (k : Nat) : (s.closeToken k).dsize = s.dsize := rfl
@[simp] theorem State.closeToken_ctl (k : Nat) : (s.closeToken k).ctl = s.ctl := rfl
@[simp] theorem State.closeToken_cnt (k : Nat) : (s.closeToken k).cnt = s.cnt := rfl
@[simp] theorem State.closeToken_ep (k : Nat) : (s.closeToken k).ep = s.ep + BitVec.ofNat 32 k := rfl
@[simp] theorem State.closeToken_ctlpos (k : Nat) : (s.closeToken k).ctlpos = s.ctlpos := rfl
@[simp] theorem State.closeToken_nbits (k : Nat) : (s.closeToken k).nbits = s.nbits + 1 := rfl
@[simp] theorem State.closeToken_deferV (k : Nat) : (s.closeToken k).deferV = s.deferV := rfl
@[simp] theorem State.closeToken_deferLen (k : Nat) : (s.closeToken k).deferLen = s.deferLen := rfl
@[simp] theorem State.closeToken_deferPos (k : Nat) : (s.closeToken k).deferPos = s.deferPos := rfl
@[simp] theorem State.closeToken_crc (k : Nat) : (s.closeToken k).crc = s.crc := rfl
@[simp] theorem State.closeToken_src (k : Nat) : (s.closeToken k).src = s.src := rfl
@[simp] theorem State.closeToken_dst (k : Nat) : (s.closeToken k).dst = s.dst := rfl
@[simp] theorem State.closeToken_spCarry (k : Nat) : (s.closeToken k).spCarry = s.spCarry := rfl
@[simp] theorem State.closeToken_started (k : Nat) : (s.closeToken k).started = s.started := rfl
@[simp] theorem State.closeToken_moves (k : Nat) : (s.closeToken k).moves = s.moves := rfl
@[simp] theorem State.closeToken_rdata (k : Nat) : (s.closeToken k).rdata = s.rdata := rfl
@[simp] theorem State.closeToken_resets (k : Nat) : (s.closeToken k).resets = s.resets := rfl
@[simp] theorem State.closeToken_runs (k : Nat) : (s.closeToken k).runs = s.runs := rfl

@[simp] theorem State.setDeferred_cfg (d : Option (Nat × Nat)) : (s.setDeferred d).cfg = s.cfg := by cases d <;> rfl
@[simp] theorem State.setDeferred_cmd (d : Option (Nat × Nat)) : (s.setDeferred d).cmd = s.cmd := by cases d <;> rfl
@[simp] theorem State.setDeferred_status (d : Option (Nat × Nat)) : (s.setDeferred d).status = s.status := by cases d <;> rfl
@[simp] theorem State.setDeferred_fault (d : Option (Nat × Nat)) : (s.setDeferred d).fault = s.fault := by cases d <;> rfl
@[simp] theorem State.setDeferred_srcLen (d : Option (Nat × Nat)) : (s.setDeferred d).srcLen = s.srcLen := by cases d <;> rfl
@[simp] theorem State.setDeferred_dstLen (d : Option (Nat × Nat)) : (s.setDeferred d).dstLen = s.dstLen := by cases d <;> rfl
@[simp] theorem State.setDeferred_result (d : Option (Nat × Nat)) : (s.setDeferred d).result = s.result := by cases d <;> rfl
@[simp] theorem State.setDeferred_op (d : Option (Nat × Nat)) : (s.setDeferred d).op = s.op := by cases d <;> rfl
@[simp] theorem State.setDeferred_sp (d : Option (Nat × Nat)) : (s.setDeferred d).sp = s.sp := by cases d <;> rfl
@[simp] theorem State.setDeferred_dp (d : Option (Nat × Nat)) : (s.setDeferred d).dp = s.dp := by cases d <;> rfl
@[simp] theorem State.setDeferred_dsize (d : Option (Nat × Nat)) : (s.setDeferred d).dsize = s.dsize := by cases d <;> rfl
@[simp] theorem State.setDeferred_ctl (d : Option (Nat × Nat)) : (s.setDeferred d).ctl = s.ctl := by cases d <;> rfl
@[simp] theorem State.setDeferred_cnt (d : Option (Nat × Nat)) : (s.setDeferred d).cnt = s.cnt := by cases d <;> rfl
@[simp] theorem State.setDeferred_ep (d : Option (Nat × Nat)) : (s.setDeferred d).ep = s.ep := by cases d <;> rfl
@[simp] theorem State.setDeferred_ctlpos (d : Option (Nat × Nat)) : (s.setDeferred d).ctlpos = s.ctlpos := by cases d <;> rfl
@[simp] theorem State.setDeferred_nbits (d : Option (Nat × Nat)) : (s.setDeferred d).nbits = s.nbits := by cases d <;> rfl
@[simp] theorem State.setDeferred_crc (d : Option (Nat × Nat)) : (s.setDeferred d).crc = s.crc := by cases d <;> rfl
@[simp] theorem State.setDeferred_src (d : Option (Nat × Nat)) : (s.setDeferred d).src = s.src := by cases d <;> rfl
@[simp] theorem State.setDeferred_dst (d : Option (Nat × Nat)) : (s.setDeferred d).dst = s.dst := by cases d <;> rfl
@[simp] theorem State.setDeferred_spCarry (d : Option (Nat × Nat)) : (s.setDeferred d).spCarry = s.spCarry := by cases d <;> rfl
@[simp] theorem State.setDeferred_started (d : Option (Nat × Nat)) : (s.setDeferred d).started = s.started := by cases d <;> rfl
@[simp] theorem State.setDeferred_moves (d : Option (Nat × Nat)) : (s.setDeferred d).moves = s.moves := by cases d <;> rfl
@[simp] theorem State.setDeferred_rdata (d : Option (Nat × Nat)) : (s.setDeferred d).rdata = s.rdata := by cases d <;> rfl
@[simp] theorem State.setDeferred_resets (d : Option (Nat × Nat)) : (s.setDeferred d).resets = s.resets := by cases d <;> rfl
@[simp] theorem State.setDeferred_runs (d : Option (Nat × Nat)) : (s.setDeferred d).runs = s.runs := by cases d <;> rfl
@[simp] theorem State.setDeferred_deferV (d : Option (Nat × Nat)) : (s.setDeferred d).deferV = d.isSome := by
  cases d <;> rfl
@[simp] theorem State.setDeferred_deferLen_some (l q : Nat) :
    (s.setDeferred (some (l, q))).deferLen = BitVec.ofNat 9 l := rfl
@[simp] theorem State.setDeferred_deferPos_some (l q : Nat) :
    (s.setDeferred (some (l, q))).deferPos = BitVec.ofNat 32 q := rfl
@[simp] theorem State.setDeferred_deferLen_none : (s.setDeferred none).deferLen = s.deferLen := rfl
@[simp] theorem State.setDeferred_deferPos_none : (s.setDeferred none).deferPos = s.deferPos := rfl

end Sys2Proof.Machine
end

