-- ==== Sys2Proof/Laws/Ops.lean ====
section
/-! SUPPORT. One lemma for each shared operation: what the buffer accesses, the window on the input and `finish` can do. -/

namespace Sys2Proof.Machine

variable (s : State)

/-! ## Reading -/

@[simp] theorem State.input_length : s.input.length = s.srcLen.toNat := by simp [State.input]

@[simp] theorem State.output_length (n : Nat) : (s.output n).length = n := by simp [State.output]

theorem State.input_getElem? {a : Nat} (h : a < s.srcLen.toNat) : s.input[a]? = some (s.srcByte a) := by
  simp [State.input, h]

theorem State.input_getD {a : Nat} (h : a < s.srcLen.toNat) (d : Byte) : s.input.getD a d = s.srcByte a := by
  simp [List.getD, s.input_getElem? h]

theorem State.output_getElem? {a n : Nat} (h : a < n) : (s.output n)[a]? = some (s.dstByte a) := by
  simp [State.output, h]

theorem State.output_succ (n : Nat) : s.output (n + 1) = s.output n ++ [s.dstByte n] := by
  simp [State.output, List.range_succ]

/-- Two states whose DST bytes agree below `n` show the same output. -/
theorem State.output_congr {s t : State} {n : Nat} (h : ∀ a, a < n → s.dstByte a = t.dstByte a) :
    s.output n = t.output n := by
  simp only [State.output, List.map_inj_left, List.mem_range]
  exact h

/-- The window of `k` bytes from `a` on is that part of the input (R49). -/
theorem State.window_eq (a k : Nat) : s.window a k = (s.input.drop a).take k := by
  induction k generalizing a with
  | zero => simp [State.window]
  | succ k ih =>
    unfold State.window
    split
    · next h =>
      have hd : s.input.drop a = s.srcByte a :: s.input.drop (a + 1) := by
        rw [List.drop_eq_getElem_cons (by simpa using h)]
        congr 1
        simp [State.input]
      rw [hd, List.take_succ_cons, ih]
    · next h => rw [List.drop_eq_nil_of_le (by simpa using h)]; rfl

/-- States that agree on SRC, its length and the resets read the same input. -/
theorem State.srcByte_congr {s t : State} (h : t.src = s.src) (hr : t.resets = s.resets) : t.srcByte = s.srcByte := by
  funext a; simp [State.srcByte, h, hr]

theorem State.input_congr {s t : State} (h : t.src = s.src) (hr : t.resets = s.resets) (hl : t.srcLen = s.srcLen) :
    t.input = s.input := by
  simp [State.input, hl, State.srcByte_congr h hr]

theorem State.dstByte_congr {s t : State} (h : t.dst = s.dst) (hr : t.resets = s.resets) : t.dstByte = s.dstByte := by
  funext a; simp [State.dstByte, h, hr]

/-! ## Writing -/

theorem State.dstByte_storeDst (a b : Nat) (v : Byte) :
    (s.storeDst a v).dstByte b = if b = a then v else s.dstByte b := by
  simp only [State.dstByte, State.storeDst_dst, State.storeDst_resets, Memory.read_write]
  by_cases h : b = a <;> simp [h]

theorem State.srcByte_storeSrc (a b : Nat) (v : Byte) :
    (s.storeSrc a v).srcByte b = if b = a then v else s.srcByte b := by
  simp only [State.srcByte, State.storeSrc_src, State.storeSrc_resets, Memory.read_write]
  by_cases h : b = a <;> simp [h]

theorem State.inDst_congr {s t : State} (h : t.cfg = s.cfg) : t.inDst = s.inDst := by funext a; simp [State.inDst, h]

/-- All that a byte write to DST can do. -/
theorem writeDst_ok_iff {a : Nat} {v : Byte} {s t : State} :
    writeDst a v s = .ok t ↔ s.inDst a = true ∧ t = s.storeDst a v := by
  cases h : s.inDst a <;> simp [writeDst, h, eq_comm]

theorem writeDst_error {a : Nat} {v : Byte} {s : State} {e : Stop} (h : writeDst a v s = .error e) :
    s.inDst a = false ∧ e = .halt .dstAddress := by
  unfold writeDst at h
  split at h <;> simp_all

/-- Writing a list of bytes, where it fits: each byte lies at its place, every other byte and field is as before. -/
theorem writeDstList_ok {a : Nat} {vs : List Byte} {s : State} (h : ∀ k, k < vs.length → s.inDst (a + k) = true) :
    ∃ m, writeDstList a vs s = .ok { s with dst := m } ∧
      (∀ b, Memory.read m b = if a ≤ b ∧ b < a + vs.length then vs[b - a]? else Memory.read s.dst b) ∧
      (Memory.wf s.dst = true → Memory.wf m = true) := by
  induction vs generalizing a s with
  | nil => exact ⟨s.dst, rfl, by intro b; rw [if_neg (by simp)], id⟩
  | cons v vs ih =>
    have h0 : s.inDst a = true := by simpa using h 0 (by simp)
    obtain ⟨m, h1, h2, h3⟩ := ih (a := a + 1) (s := s.storeDst a v) (by
      intro k hk
      have := h (k + 1) (by simpa using hk)
      simpa [State.inDst, Nat.add_assoc, Nat.add_comm 1 k] using this)
    refine ⟨m, ?_, ?_, fun hw => h3 (Memory.wf_write _ _ _ hw)⟩
    · simp only [writeDstList, writeDst, h0, if_true, Except.bind]
      rw [h1]
      rfl
    · intro b
      rw [h2 b, State.storeDst_dst, Memory.read_write]
      simp only [List.length_cons]
      rcases Nat.lt_trichotomy b a with hb | hb | hb
      · rw [if_neg (by omega), if_neg (by omega), if_neg (by omega)]
      · subst hb
        rw [if_neg (by omega), if_pos rfl, if_pos (by omega)]
        simp
      · by_cases hlt : b < a + 1 + vs.length
        · rw [if_pos (by omega), if_pos (by omega)]
          have : b - a = (b - (a + 1)) + 1 := by omega
          rw [this, List.getElem?_cons_succ]
        · rw [if_neg (by omega), if_neg (by omega), if_neg (by omega)]

/-! ## The end of a step -/

/-- All that a step's outcome can be (R98, R122, R153). -/
theorem finish_next_iff {s t : State} {r : Except Stop State} :
    finish s r = .next t ↔ r = .ok t ∨ ∃ f, r = .error (.raise f) ∧ t = s.raise f := by
  rcases r with (e | f) | u <;> simp [finish, eq_comm]

@[simp] theorem finish_ok (t : State) : finish s (.ok t) = .next t := rfl
@[simp] theorem finish_raise (f : FaultCode) : finish s (.error (.raise f)) = .next (s.raise f) := rfl
@[simp] theorem finish_halt (f : Fault) : finish s (.error (.halt f)) = .fault f := rfl

end Sys2Proof.Machine
end

