-- ==== Sys2Proof/Laws/Tokens.lean ====
section
/-! SUPPORT. What the token operations can do: append, the copy back (R97), the control byte and the three token forms. -/

namespace Sys2Proof.Machine

/-- `n` bytes fit DST exactly when every address below `n` exists. -/
theorem State.fitsDst_iff (s : State) (n : Nat) : s.fitsDst n = true ↔ ∀ a, a < n → s.inDst a = true := by
  unfold State.fitsDst State.inDst
  cases s.cfg.dstMax with
  | none => simp
  | some m =>
    simp only [decide_eq_true_eq]
    constructor
    · intro h a ha; omega
    · intro h
      rcases Nat.eq_zero_or_pos n with h0 | h0
      · omega
      · have := h (n - 1) (by omega); omega

theorem State.fitsDst_congr {s t : State} (h : t.cfg = s.cfg) : t.fitsDst = s.fitsDst := by
  funext n; simp [State.fitsDst, h]

/-- The next `DP` when `DP` is below 2^32. -/
theorem State.dp_succ {s : State} (h : s.dp.toNat < 2 ^ 32) : (s.dp + 1).toNat = s.dp.toNat + 1 := by
  rw [BitVec.toNat_add]; simp; omega

theorem appendDst_ok_iff {v : Byte} {s t : State} :
    appendDst v s = .ok t ↔ s.inDst s.dp.toNat = true ∧ t = { s.storeDst s.dp.toNat v with dp := s.dp + 1 } := by
  unfold appendDst writeDst
  cases h : s.inDst s.dp.toNat
  · simp [Except.map]
  · simp only [if_true, Except.map, Except.ok.injEq, true_and]
    exact eq_comm

theorem appendDst_error {v : Byte} {s : State} {e : Stop} (h : appendDst v s = .error e) : e = .halt .dstAddress := by
  unfold appendDst writeDst at h
  cases h' : s.inDst s.dp.toNat <;> simp [h', Except.map] at h
  exact h.symm

/-- How many bytes a copy of length `len` appends: it is cut at the declared size (R97). -/
def copied (s : State) (len : Nat) : Nat := min len (s.dsize.toNat - s.dp.toNat)

/-- All that a copy back can do (R97): it appends `copied` bytes; from a distance that reaches back into the output, byte
`k` is byte `k mod dist` of the last `dist` bytes. Every other byte and every other field is as before. -/
theorem copyBack_ok {dist len : Nat} {s t : State} (h : copyBack dist len s = .ok t)
    (hdp : s.dp.toNat ≤ s.dsize.toNat) :
    ∃ m, t = { s with dst := m, dp := s.dp + BitVec.ofNat 33 (copied s len) } ∧
      t.dp.toNat = s.dp.toNat + copied s len ∧
      (∀ a, a < s.dp.toNat ∨ s.dp.toNat + copied s len ≤ a → Memory.read m a = Memory.read s.dst a) ∧
      (Memory.wf s.dst = true → Memory.wf m = true) ∧
      (∀ k, k < copied s len → (Memory.read m (s.dp.toNat + k)).isSome = true) ∧
      (1 ≤ dist → dist ≤ s.dp.toNat → ∀ k, k < copied s len →
        t.dstByte (s.dp.toNat + k) = s.dstByte (s.dp.toNat - dist + k % dist)) := by
  have hds : s.dsize.toNat < 2 ^ 32 := s.dsize.isLt
  induction len generalizing s with
  | zero =>
    simp only [copyBack, Except.ok.injEq] at h
    subst h
    refine ⟨s.dst, by simp [copied], by simp [copied], by simp, id, by simp [copied], by simp [copied]⟩
  | succ len ih =>
    unfold copyBack at h
    split at h
    · next heq =>
      simp only [Except.ok.injEq] at h
      subst h
      have hc : copied s (len + 1) = 0 := by simp [copied, heq]
      refine ⟨s.dst, by simp [hc], by simp [hc], by simp, id, by simp [hc], by simp [hc]⟩
    · next hne =>
      cases h1 : appendDst (s.dstByte (s.dp.toNat - dist)) s with
      | error e => simp [h1, Except.bind] at h
      | ok u =>
        simp only [h1, Except.bind] at h
        obtain ⟨-, hu⟩ := appendDst_ok_iff.1 h1
        have hudp : u.dp.toNat = s.dp.toNat + 1 := by rw [hu]; exact State.dp_succ (by omega)
        have huds : u.dsize = s.dsize := by rw [hu]; rfl
        have hudst : u.dst = Memory.write s.dp.toNat (s.dstByte (s.dp.toNat - dist)) s.dst := by rw [hu]; rfl
        obtain ⟨m, ht, hd, hfr, hwf, hsome, hval⟩ := ih h (by rw [hudp, huds]; omega) (by rw [huds]; exact hds)
        have hc : copied s (len + 1) = copied u len + 1 := by
          simp only [copied, hudp, huds]; omega
        have hbyte : ∀ a, u.dstByte a = if a = s.dp.toNat then s.dstByte (s.dp.toNat - dist) else s.dstByte a := by
          intro a
          have := State.dstByte_storeDst s s.dp.toNat a (s.dstByte (s.dp.toNat - dist))
          rw [← this]
          exact congrFun (State.dstByte_congr (s := s.storeDst _ _) (by rw [hu]) (by rw [hu])) a
        refine ⟨m, ?_, ?_, ?_, ?_, ?_, ?_⟩
        · rw [ht, hu]
          simp only [State.storeDst, hc, State.mk.injEq, true_and, and_true]
          apply BitVec.eq_of_toNat_eq
          have e : (copied { s with dst := Memory.write s.dp.toNat (s.dstByte (s.dp.toNat - dist)) s.dst, dp := s.dp + 1 } len)
              = copied u len := by rw [hu]; rfl
          rw [e]
          simp only [BitVec.toNat_add, BitVec.toNat_ofNat]
          simp
          omega
        · rw [hd, hudp, hc]; omega
        · intro a ha
          rw [hfr a (by rw [hudp]; omega), hudst, Memory.read_write_other (by omega)]
        · intro hw; exact hwf (by rw [hudst]; exact Memory.wf_write _ _ _ hw)
        · intro k hk
          rcases Nat.eq_zero_or_pos k with h0 | h0
          · subst h0
            rw [Nat.add_zero, hfr _ (Or.inl (by omega)), hudst, Memory.read_write_same]
            rfl
          · have := hsome (k - 1) (by omega)
            rwa [hudp, show s.dp.toNat + 1 + (k - 1) = s.dp.toNat + k by omega] at this
        · intro h1d hdd k hk
          rcases Nat.eq_zero_or_pos k with h0 | h0
          · subst h0
            have hread : Memory.read m s.dp.toNat = some (s.dstByte (s.dp.toNat - dist)) := by
              rw [hfr _ (Or.inl (by omega)), hudst, Memory.read_write_same]
            have : t.dst = m := by rw [ht]
            simp only [Nat.add_zero, Nat.zero_mod, State.dstByte, this, hread]
          · have hv := hval h1d (by omega) (k - 1) (by omega)
            rw [hudp, show s.dp.toNat + 1 + (k - 1) = s.dp.toNat + k by omega] at hv
            rw [hv, hbyte]
            have hmod : (k - 1) % dist < dist := Nat.mod_lt _ (by omega)
            by_cases hlast : (k - 1) % dist = dist - 1
            · have hk0 : k % dist = 0 := by
                have : k = (k - 1) + 1 := by omega
                rw [this, Nat.add_mod, hlast]
                rcases Nat.lt_or_ge 1 dist with hd1 | hd1
                · rw [Nat.mod_eq_of_lt hd1, show dist - 1 + 1 = dist by omega, Nat.mod_self]
                · have : dist = 1 := by omega
                  subst this; simp
              rw [if_pos (by omega), hk0, Nat.add_zero]
            · have hk1 : k % dist = (k - 1) % dist + 1 := by
                have : k = (k - 1) + 1 := by omega
                conv_lhs => rw [this]
                rw [Nat.add_mod, Nat.mod_eq_of_lt (a := 1) (by omega), Nat.mod_eq_of_lt (by omega)]
              rw [if_neg (by omega), hk1]
              congr 1
              omega

/-- A copy back that stays within DST completes. -/
theorem copyBack_fits {dist len : Nat} {s : State} (hdp : s.dp.toNat ≤ s.dsize.toNat)
    (hf : s.fitsDst s.dsize.toNat = true) : ∃ t, copyBack dist len s = .ok t := by
  have hds : s.dsize.toNat < 2 ^ 32 := s.dsize.isLt
  induction len generalizing s with
  | zero => exact ⟨s, rfl⟩
  | succ len ih =>
    unfold copyBack
    split
    · exact ⟨s, rfl⟩
    · next hne =>
      have hin := (State.fitsDst_iff s _).1 hf s.dp.toNat (by omega)
      rw [appendDst_ok_iff.2 ⟨hin, rfl⟩]
      refine ih ?_ hf hds
      show (s.dp + 1).toNat ≤ s.dsize.toNat
      rw [State.dp_succ (by omega)]
      omega

theorem copyBack_error {dist len : Nat} {s : State} {e : Stop} (h : copyBack dist len s = .error e) :
    e = .halt .dstAddress := by
  induction len generalizing s with
  | zero => simp [copyBack] at h
  | succ len ih =>
    unfold copyBack at h
    split at h
    · simp at h
    · cases h1 : appendDst (s.dstByte (s.dp.toNat - dist)) s with
      | error e' => simp only [h1, Except.bind, Except.error.injEq] at h; subst h; exact appendDst_error h1
      | ok u => simp only [h1, Except.bind] at h; exact ih h

theorem needBytes_of_le {k : Nat} {s : State} (h : s.sp.toNat + k ≤ s.srcLen.toNat) : needBytes k s = .ok s := by
  simp [needBytes, h]

theorem needBytes_of_lt {k : Nat} {s : State} (h : s.srcLen.toNat < s.sp.toNat + k) :
    needBytes k s = .error (.raise .truncatedInput) := by
  simp [needBytes, Nat.not_le.2 h]

theorem copyChecked_of_le {dist len : Nat} {s : State} (h : dist ≤ s.dp.toNat) :
    copyChecked dist len s = copyBack dist len s := by
  simp [copyChecked, Nat.not_lt.2 h]

theorem copyChecked_of_lt {dist len : Nat} {s : State} (h : s.dp.toNat < dist) :
    copyChecked dist len s = .error (.raise .badDistance) := by
  simp [copyChecked, h]

/-- `SP` past `k` bytes that remain. -/
theorem State.sp_advance {s : State} {k : Nat} (h : s.sp.toNat + k ≤ s.srcLen.toNat) :
    (s.sp + BitVec.ofNat 32 k).toNat = s.sp.toNat + k := by
  have := s.srcLen.isLt
  rw [BitVec.toNat_add, BitVec.toNat_ofNat]; omega

/-- A literal with its byte there and room for it (R94). -/
theorem litToken_eq {d : Byte} {s : State} (hsp : s.sp.toNat < s.srcLen.toNat) (hin : s.inDst s.dp.toNat = true) :
    litToken d s = .ok (stopIfFull { (s.takeBit.advanceSp 1).storeDst s.dp.toNat d with dp := s.dp + 1 }) := by
  have h2 : (s.takeBit.advanceSp 1).inDst = s.inDst := State.inDst_congr rfl
  have h1 : needBytes 1 s.takeBit = .ok s.takeBit := needBytes_of_le hsp
  simp only [litToken, h1, Except.bind]
  rw [appendDst_ok_iff.2 ⟨by rw [h2]; exact hin, rfl⟩]
  rfl

/-- A short back-reference with its bytes there is the copy it asks for (R95). -/
theorem refToken_eq {n h : BitVec 4} {l : BitVec 8} {s : State} (hsp : s.sp.toNat + 2 ≤ s.srcLen.toNat) :
    refToken n h l s = (copyChecked (distance h l) (shortLength n) (s.takeBit.advanceSp 2)).map stopIfFull := by
  have h1 : needBytes 2 s.takeBit = .ok s.takeBit := needBytes_of_le hsp
  simp only [refToken, h1, Except.bind]

/-- A long back-reference with its bytes there is the copy it asks for (R96). -/
theorem refxToken_eq {h : BitVec 4} {l c : BitVec 8} {s : State} (hsp : s.sp.toNat + 3 ≤ s.srcLen.toNat) :
    refxToken h l c s =
      (copyChecked (distance h l) (longLength c) ((s.takeBit.advanceSp 2).advanceSp 1)).map stopIfFull := by
  have h1 : needBytes 2 s.takeBit = .ok s.takeBit := needBytes_of_le (by simp; omega)
  have h3 : (s.sp + 2).toNat = s.sp.toNat + 2 := State.sp_advance (k := 2) (by omega)
  have h2 : needBytes 1 (s.takeBit.advanceSp 2) = .ok (s.takeBit.advanceSp 2) :=
    needBytes_of_le (by simp only [State.advanceSp_sp, State.takeBit_sp, State.advanceSp_srcLen, State.takeBit_srcLen, h3]; omega)
  simp only [refxToken, h1, h2, Except.bind]

/-- The stop rule's test only completes the operation (R91). -/
theorem stopIfFull_cases (s : State) :
    (s.dp.toNat = s.dsize.toNat ∧ stopIfFull s = s.complete (s.dsize.setWidth 33) 0) ∨
      (s.dp.toNat ≠ s.dsize.toNat ∧ stopIfFull s = s) := by
  unfold stopIfFull
  split
  · next h => exact .inl ⟨h, rfl⟩
  · next h => exact .inr ⟨h, rfl⟩

end Sys2Proof.Machine
end

