-- ==== Sys2Proof/Laws/Comp.lean ====
section
/-! SUPPORT. What the encoder's operations can do: put bytes, open a group, set a literal's bit, emit an item (R119 to R121,
R123), and choose an item (R117, R127). -/

namespace Sys2Proof.Machine

/-! ## Putting bytes -/

theorem putByte_ok_iff {v : Byte} {s t : State} :
    putByte v s = .ok t ↔ s.inDst s.dp.toNat = true ∧ t = { s.storeDst s.dp.toNat v with dp := s.dp + 1 } := by
  unfold putByte
  split
  · next h => simp [h, eq_comm]
  · next h => simp [h]

theorem putByte_overflow {v : Byte} {s : State} (h : s.inDst s.dp.toNat = false) :
    putByte v s = .error (.raise .dstOverflow) := by
  simp [putByte, h]

theorem putByte_error {v : Byte} {s : State} {e : Stop} (h : putByte v s = .error e) : e = .raise .dstOverflow := by
  unfold putByte at h
  split at h <;> simp_all

/-- A prefix of DST that exists, and one that reaches past its end. -/
theorem State.fitsDst_false {s : State} {n : Nat} (h : s.fitsDst n = false) : ∃ a, a < n ∧ s.inDst a = false := by
  refine Classical.byContradiction fun hn => ?_
  have : s.fitsDst n = true := (s.fitsDst_iff n).2 fun a ha => by
    cases h' : s.inDst a with
    | true => rfl
    | false => exact absurd ⟨a, ha, h'⟩ hn
  simp [this] at h

theorem State.dp_add {s : State} {n : Nat} (h : s.dp.toNat + n < 2 ^ 33) :
    (s.dp + BitVec.ofNat 33 n).toNat = s.dp.toNat + n := by
  rw [BitVec.toNat_add, BitVec.toNat_ofNat]; omega

/-- Putting bytes that fit: each lies at its place from `DP` on, every other byte and field is as before (R120). -/
theorem putBytes_ok {vs : List Byte} {s : State} (hw : s.dp.toNat + vs.length < 2 ^ 33)
    (hf : s.fitsDst (s.dp.toNat + vs.length) = true) :
    ∃ m, putBytes vs s = .ok { s with dst := m, dp := s.dp + BitVec.ofNat 33 vs.length } ∧
      (∀ b, Memory.read m b =
        if s.dp.toNat ≤ b ∧ b < s.dp.toNat + vs.length then vs[b - s.dp.toNat]? else Memory.read s.dst b) ∧
      (Memory.wf s.dst = true → Memory.wf m = true) := by
  induction vs generalizing s with
  | nil => exact ⟨s.dst, by simp [putBytes], by intro b; rw [if_neg (by simp)], id⟩
  | cons v vs ih =>
    simp only [List.length_cons] at hw hf ⊢
    have hin := (s.fitsDst_iff _).1 hf s.dp.toNat (by omega)
    have hd : (s.dp + 1).toNat = s.dp.toNat + 1 := State.dp_add (n := 1) (by omega)
    have key := ih (s := { s.storeDst s.dp.toNat v with dp := s.dp + 1 }) (by simp only [hd]; omega)
      (by
        show s.fitsDst ((s.dp + 1).toNat + vs.length) = true
        rwa [hd, show s.dp.toNat + 1 + vs.length = s.dp.toNat + (vs.length + 1) by omega])
    obtain ⟨m, h1, h2, h3⟩ := key
    refine ⟨m, ?_, ?_, fun h => h3 (Memory.wf_write _ _ _ h)⟩
    · simp only [putBytes, putByte_ok_iff.2 ⟨hin, rfl⟩, Except.bind]
      rw [h1]
      have e : s.dp + 1 + BitVec.ofNat 33 vs.length = s.dp + BitVec.ofNat 33 (vs.length + 1) := by
        apply BitVec.eq_of_toNat_eq
        simp only [BitVec.toNat_add, BitVec.toNat_ofNat]
        simp
        omega
      simp only [State.storeDst, e]
    · intro b
      rw [h2 b]
      simp only [hd, State.storeDst_dst, Memory.read_write]
      rcases Nat.lt_trichotomy b s.dp.toNat with hb | hb | hb
      · rw [if_neg (by omega), if_neg (by omega), if_neg (by omega)]
      · subst hb
        rw [if_neg (by omega), if_pos rfl, if_pos (by omega)]
        simp
      · by_cases hlt : b < s.dp.toNat + (vs.length + 1)
        · rw [if_pos (by omega), if_pos (by omega)]
          rw [show b - s.dp.toNat = (b - (s.dp.toNat + 1)) + 1 by omega, List.getElem?_cons_succ]
        · rw [if_neg (by omega), if_neg (by omega), if_neg (by omega)]

/-- Putting bytes that do not all fit raises DstOverflow (R123). -/
theorem putBytes_overflow {vs : List Byte} {s : State} (hw : s.dp.toNat + vs.length < 2 ^ 33)
    (h0 : s.fitsDst s.dp.toNat = true) (hf : s.fitsDst (s.dp.toNat + vs.length) = false) :
    putBytes vs s = .error (.raise .dstOverflow) := by
  induction vs generalizing s with
  | nil => simp [h0] at hf
  | cons v vs ih =>
    simp only [List.length_cons] at hw hf
    cases hin : s.inDst s.dp.toNat with
    | false => simp [putBytes, putByte_overflow hin, Except.bind]
    | true =>
      have hd : (s.dp + 1).toNat = s.dp.toNat + 1 := State.dp_add (n := 1) (by omega)
      simp only [putBytes, putByte_ok_iff.2 ⟨hin, rfl⟩, Except.bind]
      refine ih (by simp only [hd]; omega) ?_ ?_
      · show s.fitsDst (s.dp + 1).toNat = true
        rw [hd]
        refine (s.fitsDst_iff _).2 fun a ha => ?_
        by_cases h : a < s.dp.toNat
        · exact (s.fitsDst_iff _).1 h0 a h
        · rwa [show a = s.dp.toNat by omega]
      · show s.fitsDst ((s.dp + 1).toNat + vs.length) = false
        rwa [hd, show s.dp.toNat + 1 + vs.length = s.dp.toNat + (vs.length + 1) by omega]

theorem putBytes_error {vs : List Byte} {s : State} {e : Stop} (h : putBytes vs s = .error e) :
    e = .raise .dstOverflow := by
  induction vs generalizing s with
  | nil => simp [putBytes] at h
  | cons v vs ih =>
    simp only [putBytes] at h
    cases h1 : putByte v s with
    | error e' => simp only [h1, Except.bind, Except.error.injEq] at h; subst h; exact putByte_error h1
    | ok u => simp only [h1, Except.bind] at h; exact ih h

/-! ## Groups and items -/

/-- Inside a group nothing is opened; at its end a zero control byte is put (R121). -/
theorem openGroup_inside {s : State} (h : s.nbits ≠ 0) : openGroup s = .ok s := by
  unfold openGroup
  rw [if_neg h]

theorem openGroup_first {s : State} (h : s.nbits = 0) (hin : s.inDst s.dp.toNat = true) :
    openGroup s = .ok { s.storeDst s.dp.toNat 0 with ctlpos := s.dp, dp := s.dp + 1 } := by
  have h' : ({ s with ctlpos := s.dp } : State).inDst s.dp.toNat = true := hin
  unfold openGroup
  rw [if_pos h, putByte_ok_iff.2 ⟨h', rfl⟩]
  rfl

theorem openGroup_error {s : State} {e : Stop} (h : openGroup s = .error e) : e = .raise .dstOverflow := by
  unfold openGroup at h
  split at h
  · exact putByte_error h
  · simp at h

theorem itemBytes_lit (b : Byte) : itemBytes (.lit b) = [b] := rfl

/-- How many bytes a back-reference takes (R114). -/
theorem itemBytes_ref_length (d l : Nat) : (itemBytes (.ref d l)).length = if l ≤ 17 then 2 else 3 := by
  by_cases h : l ≤ 17
  · simp [itemBytes, itemInstr, referenceInstr, shortMax, h, encode, Code.bytes]
  · simp [itemBytes, itemInstr, referenceInstr, shortMax, h, encode, Code.bytes]

theorem itemBytes_length_pos (it : Item) : 1 ≤ (itemBytes it).length := by
  cases it with
  | lit b => simp [itemBytes_lit]
  | ref d l => rw [itemBytes_ref_length]; split <;> omega

theorem itemBytes_length_le (it : Item) : (itemBytes it).length ≤ 3 := by
  cases it with
  | lit b => simp [itemBytes_lit]
  | ref d l => rw [itemBytes_ref_length]; split <;> omega

/-- The state once a token's group is open: `CTLPOS` and `DP` where the control byte and the token go. -/
theorem openGroup_ok {s : State} (hw : s.dp.toNat + 1 < 2 ^ 33) (hf : s.nbits = 0 → s.inDst s.dp.toNat = true) :
    ∃ u, openGroup s = .ok u ∧ u = { s with dst := u.dst, ctlpos := u.ctlpos, dp := u.dp } ∧
      u.ctlpos = (if s.nbits = 0 then s.dp else s.ctlpos) ∧
      u.dp.toNat = (if s.nbits = 0 then s.dp.toNat + 1 else s.dp.toNat) ∧
      u.dst = (if s.nbits = 0 then Memory.write s.dp.toNat 0 s.dst else s.dst) := by
  by_cases h : s.nbits = 0
  · refine ⟨_, openGroup_first h (hf h), rfl, ?_, ?_, ?_⟩
    · simp only [h, if_true]
    · simp only [h, if_true]
      exact State.dp_add (n := 1) hw
    · simp only [h, if_true]
      rfl
  · exact ⟨s, openGroup_inside h, rfl, by simp only [h, if_false], by simp only [h, if_false],
      by simp only [h, if_false]⟩

/-- A literal that fits, in an open group whose control byte lies below `DP` (R119, R121). -/
theorem emitLit_ok {b : Byte} {s : State} (hw : s.dp.toNat + 2 < 2 ^ 33)
    (hf : s.fitsDst ((if s.nbits = 0 then s.dp.toNat + 1 else s.dp.toNat) + 1) = true)
    (hc : s.nbits ≠ 0 → s.ctlpos.toNat < s.dp.toNat) :
    ∃ m d c, emitLit b s = .ok (({ s with dst := m, dp := d, ctlpos := c } : State).closeToken 1) ∧
      c = (if s.nbits = 0 then s.dp else s.ctlpos) ∧
      d.toNat = (if s.nbits = 0 then s.dp.toNat + 1 else s.dp.toNat) + 1 ∧
      m = Memory.write (if s.nbits = 0 then s.dp.toNat + 1 else s.dp.toNat) b
        (Memory.write c.toNat ((if s.nbits = 0 then 0 else s.dstByte s.ctlpos.toNat) ||| ((0x80 : Byte) >>> s.nbits.toNat))
          (if s.nbits = 0 then Memory.write s.dp.toNat 0 s.dst else s.dst)) := by
  obtain ⟨u, hu, hue, hctl, hdp, hdst⟩ := openGroup_ok (s := s) (by omega) (fun h => by
    rw [if_pos h] at hf
    exact (s.fitsDst_iff _).1 hf _ (by omega))
  have hin : ∀ a, u.inDst a = s.inDst a := fun a => by rw [hue]; rfl
  have hnb : u.nbits = s.nbits := by rw [hue]
  have hcl : u.ctlpos.toNat < u.dp.toNat := by
    rw [hctl, hdp]
    by_cases h : s.nbits = 0
    · simp only [h, if_true]; omega
    · simp only [h, if_false]; exact hc h
  have hall := (s.fitsDst_iff _).1 hf
  have hbyte : u.dstByte u.ctlpos.toNat = if s.nbits = 0 then 0 else s.dstByte s.ctlpos.toNat := by
    have hr : u.resets = s.resets := by rw [hue]
    by_cases h : s.nbits = 0
    · simp only [h, if_true] at hctl hdst ⊢
      simp [State.dstByte, hdst, hctl]
    · simp only [h, if_false] at hctl hdst ⊢
      simp [State.dstByte, hdst, hctl, hr]
  refine ⟨_, u.dp + 1, u.ctlpos, ?_, hctl, ?_, rfl⟩
  · have h1 : setLiteralBit u = .ok (u.storeDst u.ctlpos.toNat
        ((if s.nbits = 0 then 0 else s.dstByte s.ctlpos.toNat) ||| ((0x80 : Byte) >>> s.nbits.toNat))) := by
      unfold setLiteralBit
      rw [hbyte, hnb]
      exact writeDst_ok_iff.2 ⟨by rw [hin]; exact hall _ (by omega), rfl⟩
    simp only [emitLit, hu, Except.bind, h1]
    rw [putByte_ok_iff.2 ⟨by
      show u.inDst u.dp.toNat = true
      rw [hin]; exact hall _ (by omega), rfl⟩]
    simp only [Except.map]
    conv_lhs => rw [hue]
    simp only [State.storeDst, hdst, hdp]
  · have hlt : u.dp.toNat + 1 < 2 ^ 33 := by rw [hdp]; split <;> omega
    have := State.dp_add (n := 1) hlt
    rw [← hdp]
    exact this

/-- A back-reference that fits (R120, R121): its bytes lie from where its group leaves `DP`. -/
theorem emitRef_ok {d l : Nat} {s : State} (hw : s.dp.toNat + 4 < 2 ^ 33)
    (hf : s.fitsDst ((if s.nbits = 0 then s.dp.toNat + 1 else s.dp.toNat) + (itemBytes (.ref d l)).length) = true) :
    ∃ m e c, emitRef d l s = .ok (({ s with dst := m, dp := e, ctlpos := c } : State).closeToken l) ∧
      c = (if s.nbits = 0 then s.dp else s.ctlpos) ∧
      e.toNat = (if s.nbits = 0 then s.dp.toNat + 1 else s.dp.toNat) + (itemBytes (.ref d l)).length ∧
      (∀ a, Memory.read m a =
        let at_ := if s.nbits = 0 then s.dp.toNat + 1 else s.dp.toNat
        if at_ ≤ a ∧ a < at_ + (itemBytes (.ref d l)).length then (itemBytes (.ref d l))[a - at_]?
        else Memory.read (if s.nbits = 0 then Memory.write s.dp.toNat 0 s.dst else s.dst) a) ∧
      (Memory.wf s.dst = true → Memory.wf m = true) := by
  have hlen := itemBytes_length_le (.ref d l)
  obtain ⟨u, hu, hue, hctl, hdp, hdst⟩ := openGroup_ok (s := s) (by omega) (fun h => by
    rw [if_pos h] at hf
    exact (s.fitsDst_iff _).1 hf _ (by omega))
  have hlt : u.dp.toNat + (itemBytes (.ref d l)).length < 2 ^ 33 := by rw [hdp]; split <;> omega
  obtain ⟨m, h1, h2, h3⟩ := putBytes_ok (s := u) hlt (by
    have : u.fitsDst = s.fitsDst := by rw [hue]; rfl
    rw [this, hdp]
    exact hf)
  refine ⟨m, u.dp + BitVec.ofNat 33 (itemBytes (.ref d l)).length, u.ctlpos, ?_, hctl, ?_, ?_, ?_⟩
  · simp only [emitRef, hu, Except.bind, h1, Except.map]
    conv_lhs => rw [hue]
  · rw [State.dp_add hlt, hdp]
  · intro a
    rw [h2 a, hdp, hdst]
  · intro h
    refine h3 ?_
    rw [hdst]
    split
    · exact Memory.wf_write _ _ _ h
    · exact h

/-- An item that is not emitted raises DstOverflow, but for a control byte that does not exist (R123). -/
theorem emitItem_error {it : Item} {s : State} {e : Stop} (h : emitItem it s = .error e) :
    e = .raise .dstOverflow ∨ e = .halt .dstAddress := by
  cases it with
  | lit b =>
    simp only [emitItem, emitLit] at h
    cases h1 : openGroup s with
    | error e' => simp only [h1, Except.bind, Except.error.injEq] at h; subst h; exact .inl (openGroup_error h1)
    | ok u =>
      simp only [h1, Except.bind] at h
      cases h2 : setLiteralBit u with
      | error e' =>
        simp only [h2, Except.error.injEq] at h; subst h
        exact .inr (writeDst_error h2).2
      | ok w =>
        simp only [h2] at h
        cases h3 : putByte b w with
        | error e' => simp only [h3, Except.map, Except.error.injEq] at h; subst h; exact .inl (putByte_error h3)
        | ok x => simp [h3, Except.map] at h
  | ref d l =>
    simp only [emitItem, emitRef] at h
    cases h1 : openGroup s with
    | error e' => simp only [h1, Except.bind, Except.error.injEq] at h; subst h; exact .inl (openGroup_error h1)
    | ok u =>
      simp only [h1, Except.bind] at h
      cases h3 : putBytes (itemBytes (.ref d l)) u with
      | error e' => simp only [h3, Except.map, Except.error.injEq] at h; subst h; exact .inl (putBytes_error h3)
      | ok x => simp [h3, Except.map] at h

/-- A valid item costs at most as many bytes as it covers. -/
theorem itemBytes_length_le_span {x : List Byte} {pos : Nat} {it : Item} (h : validAt x pos it = true) :
    (itemBytes it).length ≤ itemSpan it := by
  cases it with
  | lit b => simp [itemBytes_lit, itemSpan]
  | ref d l =>
    have h3 : 3 ≤ l := by
      simp only [validAt, Bool.and_eq_true, decide_eq_true_eq] at h
      exact h.1.1.1.1.1.1
    rw [itemBytes_ref_length]
    simp only [itemSpan]
    split <;> omega

/-- All that the choice of an item can be (R117, R127): a match is carried on only behind a literal, and the literal is the
data's own byte. -/
theorem choose_carried {ch : Chooser} {x : List Byte} {pos : Nat} {carried : Option (Nat × Nat)} {it : Item}
    {m : Nat × Nat} (h : choose ch x pos carried = (it, some m)) :
    ch = .reference ∧ carried = none ∧ it = literalAt x pos ∧ m = search x (pos + 1) ∧
      minLength ≤ (search x pos).1 ∧ (search x pos).1 + lazyGain ≤ m.1 := by
  cases ch with
  | other id => simp [choose] at h
  | reference =>
    cases carried with
    | some c => simp [choose, chooseReference] at h
    | none =>
      simp only [choose, chooseReference] at h
      split at h
      · next h3 =>
        split at h
        · next h2 =>
          simp only [Prod.mk.injEq, Option.some.injEq] at h
          obtain ⟨rfl, rfl⟩ := h
          exact ⟨rfl, rfl, rfl, rfl, h3, h2⟩
        · simp at h
      · simp at h

end Sys2Proof.Machine
end

