-- ==== Sys2Proof/Laws/Crc.lean ====
section
/-! SUPPORT. What a byte step of CRC16 can do, and the CRC over a sequence of bytes in two parts (R137 to R141). -/

namespace Sys2Proof.Machine

@[simp] theorem crcBytes_nil (c : BitVec 16) : crcBytes c [] = c := rfl

@[simp] theorem crcBytes_cons (c : BitVec 16) (v : Byte) (vs : List Byte) :
    crcBytes c (v :: vs) = crcBytes (crcByte c v) vs := rfl

theorem crcBytes_append (c : BitVec 16) (vs ws : List Byte) : crcBytes c (vs ++ ws) = crcBytes (crcBytes c vs) ws := by
  simp [crcBytes, List.foldl_append]

/-- The message's byte at an index (R137): the data, then zeros. -/
theorem State.crcInput_eq (s : State) (h : s.crcIndex < s.srcLen.toNat + 2) :
    (s.input ++ [0, 0])[s.crcIndex]? = some s.crcInput := by
  unfold State.crcInput
  split
  · next hlt => rw [List.getElem?_append_left (by simpa using hlt), s.input_getElem? hlt]
  · next hge =>
    rw [List.getElem?_append_right (by simpa using Nat.not_lt.1 hge), State.input_length]
    rcases Nat.lt_or_ge s.crcIndex (s.srcLen.toNat + 1) with h1 | h1
    · rw [show s.crcIndex - s.srcLen.toNat = 0 by omega]; rfl
    · rw [show s.crcIndex - s.srcLen.toNat = 1 by omega]; rfl

@[simp] theorem crcStart_crcIndex (s : State) : (crcStart s).crcIndex = 0 := by simp [State.crcIndex, crcStart]

theorem State.crcIndex_congr {s t : State} (h : t.sp = s.sp) (hc : t.spCarry = s.spCarry) : t.crcIndex = s.crcIndex := by
  simp [State.crcIndex, h, hc]

/-- The index goes up by one wherever a byte step is taken; the carry keeps what the 32 bits of `SP` lose (log 6). -/
theorem State.advanceCrc_crcIndex (s : State) (h : s.crcIndex < s.srcLen.toNat + 2) :
    s.advanceCrc.crcIndex = s.crcIndex + 1 := by
  have hl := s.srcLen.isLt
  have hs := s.sp.isLt
  have hall : s.sp = BitVec.allOnes 32 ↔ s.sp.toNat = 2 ^ 32 - 1 := by
    rw [← BitVec.toNat_inj, BitVec.toNat_allOnes]
  have hadd : (s.sp + 1).toNat = (s.sp.toNat + 1) % 2 ^ 32 := by rw [BitVec.toNat_add]; rfl
  simp only [State.crcIndex, State.advanceCrc_sp, State.advanceCrc_spCarry, hadd] at h ⊢
  by_cases hc : s.spCarry = true
  · simp only [hc, Bool.true_or, if_true] at h ⊢
    omega
  · by_cases ha : s.sp = BitVec.allOnes 32
    · have := hall.1 ha
      simp [hc, ha]
    · have : s.sp.toNat ≠ 2 ^ 32 - 1 := fun he => ha (hall.2 he)
      simp only [hc, ha, Bool.or_eq_true, beq_iff_eq, or_self, if_false, Bool.false_eq_true]
      omega

/-- All that a byte step can do (R138, R140): the next byte of the message goes in, and the last one completes. -/
theorem crcStep_eq (s : State) (h : s.crcIndex < s.srcLen.toNat + 2) :
    crcStep s = .ok
      (if s.crcIndex + 1 = s.srcLen.toNat + 2
        then ({ s.advanceCrc with crc := crcByte s.crc s.crcInput } : State).complete 0 (crcByte s.crc s.crcInput)
        else { s.advanceCrc with crc := crcByte s.crc s.crcInput }) := by
  have hs : ({ s.advanceCrc with crc := crcByte s.crc s.crcInput } : State).crcIndex = s.crcIndex + 1 :=
    s.advanceCrc_crcIndex h
  simp only [crcStep, crcAugment, if_pos h, hs]
  rfl

/-- Past its message CRC16 has no step; no run comes there. -/
theorem crcStep_stuck (s : State) (h : s.srcLen.toNat + 2 ≤ s.crcIndex) : crcStep s = .error (.halt .noStep) := by
  unfold crcStep
  rw [if_neg (by simp only [crcAugment]; omega)]

end Sys2Proof.Machine
end

