-- ==== Sys2Proof/Laws/Step.lean ====
section
/-! SUPPORT. The step by cases, runs, and what the header checks of ISCOMP and DECOMP read, in terms of the input. -/

namespace Sys2Proof.Machine

/-! ## Steps and runs -/

theorem step_nil {s : State} (h : s.moves = []) : step s = engineStep s := by simp [step, h]

theorem step_tick {s : State} {later : List HostMove} (h : s.moves = .tick :: later) :
    step s = engineStep { s with moves := later } := by simp [step, h]

/-- The host's move, when it is one. -/
theorem step_move {s : State} {m : HostMove} {later : List HostMove} (h : s.moves = m :: later) (hm : m ≠ .tick) :
    step s = hostMove m { s with moves := later } := by
  unfold step
  rw [h]
  cases m <;> first | rfl | exact absurd rfl hm

theorem step_busy {s : State} (h : s.moves = []) (hb : s.status = .busy) : step s = exec (decodeCommand s.op) s := by
  simp [step_nil h, engineStep, hb]

theorem step_not_busy {s : State} (h : s.moves = []) (hb : s.status ≠ .busy) : step s = .next s := by
  simp [step_nil h, engineStep, hb]

/-- All that a buffer access of the host can do when it answers a next state. -/
theorem hostBuffer_next {s t u : State} {p : Bool} (h : hostBuffer s p u = .next t) :
    t = u ∧ s.status ≠ .busy ∧ p = true := by
  unfold hostBuffer at h
  split at h
  · simp at h
  · next hb =>
    split at h
    · next hp => simp only [Host.Outcome.next.injEq] at h; exact ⟨h.symm, hb, hp⟩
    · simp at h

@[simp] theorem runFor_zero (s : State) : runFor 0 s = .next s := rfl

theorem runFor_succ (k : Nat) (s : State) :
    runFor (k + 1) s = match step s with
      | .next t => runFor k t
      | .fault r => .fault r
      | .refused r => .refused r := rfl

/-- The runs of the statements are the host interface's. -/
theorem runFor_eq_core (k : Nat) (s : State) : runFor k s = core.run k s := by
  induction k generalizing s with
  | zero => rfl
  | succ k ih =>
    rw [Host.Core.run.eq_2 core s k]
    unfold runFor
    cases h : step s with
    | next t =>
      have h' : core.step s = .next t := h
      rw [h']
      exact ih t
    | fault r =>
      have h' : core.step s = .fault r := h
      rw [h']
      rfl
    | refused r =>
      have h' : core.step s = .refused r := h
      rw [h']
      rfl

theorem runFor_of_step {s t : State} (h : step s = .next t) (k : Nat) : runFor (k + 1) s = runFor k t := by
  rw [runFor_succ, h]

/-- A run in two parts. -/
theorem runFor_add {s t : State} {j : Nat} (h : runFor j s = .next t) (k : Nat) :
    runFor (j + k) s = runFor k t := by
  induction j generalizing s with
  | zero => simp only [runFor_zero, Host.Outcome.next.injEq] at h; subst h; simp
  | succ j ih =>
    rw [runFor_succ] at h
    rw [Nat.add_right_comm, runFor_succ]
    cases hs : step s with
    | next u => rw [hs] at h; exact ih h
    | fault r => rw [hs] at h; cases h
    | refused r => rw [hs] at h; cases h

/-- An engine that is not BUSY and has no host moves left stays as it is. -/
theorem runFor_not_busy {s : State} (h : s.moves = []) (hb : s.status ≠ .busy) (k : Nat) : runFor k s = .next s := by
  induction k with
  | zero => rfl
  | succ k ih => rw [runFor_of_step (step_not_busy h hb), ih]

/-! ## The header -/

/-- The magic test reads the first four bytes of the input (R84, R90). -/
theorem State.hasMagic_iff {s : State} (h : 4 ≤ s.srcLen.toNat) : s.hasMagic = true ↔ s.input.take 4 = magic := by
  have hw := s.window_eq 0 4
  simp only [List.drop_zero] at hw
  have : s.window 0 4 = [s.srcByte 0, s.srcByte 1, s.srcByte 2, s.srcByte 3] := by
    simp [State.window, show 0 < s.srcLen.toNat by omega, show 1 < s.srcLen.toNat by omega,
      show 2 < s.srcLen.toNat by omega, show 3 < s.srcLen.toNat by omega]
  rw [← hw, this, State.hasMagic, beq_iff_eq]

/-- Four bytes read big-endian (R9, R41). -/
theorem readBE32_toNat (b0 b1 b2 b3 : Byte) :
    (readBE32 b0 b1 b2 b3).toNat = b0.toNat * 2 ^ 24 + b1.toNat * 2 ^ 16 + b2.toNat * 2 ^ 8 + b3.toNat := by
  have h1 := b1.isLt; have h2 := b2.isLt; have h3 := b3.isLt
  simp only [readBE32, BitVec.toNat_append]
  rw [← Nat.shiftLeft_add_eq_or_of_lt h1, ← Nat.shiftLeft_add_eq_or_of_lt h2, ← Nat.shiftLeft_add_eq_or_of_lt h3]
  simp only [Nat.shiftLeft_eq]
  omega

/-- The declared size of a whole header is that of the input (R90, R101). -/
theorem State.declaredSize_eq {s : State} (h : 16 ≤ s.srcLen.toNat) : s.declaredSize = declaredSizeOf s.input := by
  simp only [State.declaredSize, declaredSizeOf]
  rw [s.input_getD (by omega), s.input_getD (by omega), s.input_getD (by omega), s.input_getD (by omega)]

theorem State.fitsDst_eq (s : State) (n : Nat) : s.fitsDst n = fits s.cfg.dstMax n := rfl

end Sys2Proof.Machine
end

