-- ==== Sys2Proof/Laws/Host.lean ====
section
/-! SUPPORT. What the host's moves can do: command acceptance (R80, R81), register and buffer accesses, reset. -/

namespace Sys2Proof.Machine

/-- The commands the engine has, as codes and as decoded (R71, R72). -/
theorem decodeCommand_reserved_iff (c : BitVec 3) :
    decodeCommand c = .reservedCmd c ↔ ¬ (c = 1 ∨ c = 2 ∨ c = 3 ∨ c = 4) := by
  revert c; decide

/-- A write of `CMD` is command acceptance, for the reserved codes too (R72, R80, R150). -/
theorem hostWriteReg_cmd (v : BitVec 33) (s : State) :
    hostWriteReg .cmd v s = .next (acceptCommand (v.setWidth 3) s) := by
  generalize hc : (v.setWidth 3 : BitVec 3) = c
  simp only [hostWriteReg, hc]
  by_cases h : c = 1 ∨ c = 2 ∨ c = 3 ∨ c = 4
  · rcases h with rfl | rfl | rfl | rfl <;> rfl
  · rw [(decodeCommand_reserved_iff c).2 h]
    simp only [execReservedCmd, acceptCommand]
    split <;> rfl

/-- Ignored while BUSY (R81). -/
theorem acceptCommand_busy {c : BitVec 3} {s : State} (h : s.status = .busy) : acceptCommand c s = s := by
  simp [acceptCommand, h]

/-- All that an accepted command can do (R80, R152). -/
theorem acceptCommand_cases {c : BitVec 3} {s : State} (h : s.status ≠ .busy) :
    (¬ (c = 1 ∨ c = 2 ∨ c = 3 ∨ c = 4) ∧ acceptCommand c s = (s.latchCommand c).raise .badCommand) ∨
    ((c = 1 ∨ c = 2 ∨ c = 3 ∨ c = 4) ∧ s.cfg.srcMax < s.srcLen.toNat ∧
      acceptCommand c s = (s.latchCommand c).raise .badLength) ∨
    ((c = 1 ∨ c = 2 ∨ c = 3 ∨ c = 4) ∧ s.srcLen.toNat ≤ s.cfg.srcMax ∧
      acceptCommand c s = { s.latchCommand c with status := .busy }) := by
  unfold acceptCommand
  rw [if_neg h]
  by_cases hc : c = 1 ∨ c = 2 ∨ c = 3 ∨ c = 4
  · rw [if_neg (not_not_intro hc)]
    by_cases hl : s.cfg.srcMax < s.srcLen.toNat
    · exact .inr (.inl ⟨hc, hl, if_pos hl⟩)
    · exact .inr (.inr ⟨hc, Nat.not_lt.1 hl, if_neg hl⟩)
  · exact .inl ⟨hc, if_pos hc⟩

/-- All that a read of a register can do (R19, R51). -/
theorem hostReadReg_next {r : HostReg} {s t : State} (h : hostReadReg r s = .next t) :
    t = { s with rdata := s.readReg r } ∧ ¬ (s.status = .busy ∧ r = .srcLen) := by
  unfold hostReadReg at h
  split at h
  · simp at h
  · next hn => simp only [Host.Outcome.next.injEq] at h; exact ⟨h.symm, hn⟩

/-- A buffer access while not BUSY, at an address that exists (R17, R18) and at one that does not (log 9). -/
theorem hostBuffer_present {s t : State} {p : Bool} (hb : s.status ≠ .busy) (hp : p = true) :
    hostBuffer s p t = .next t := by
  unfold hostBuffer
  rw [if_neg hb, if_pos hp]

theorem hostBuffer_absent {s t : State} {p : Bool} (hb : s.status ≠ .busy) (hp : p = false) :
    hostBuffer s p t = .fault .hostAddress := by
  unfold hostBuffer
  rw [if_neg hb, if_neg (by simp [hp])]

/-- Which addresses of DST exist (R18). -/
theorem State.inDst_iff {s : State} {a : Nat} : s.inDst a = true ↔ ∀ m, s.cfg.dstMax = some m → a < m := by
  unfold State.inDst
  cases s.cfg.dstMax <;> simp

/-- What the host reads of a result (R171). -/
theorem State.hostDstByte_of_done {s : State} {a : Nat} (hd : s.status = .done) (ha : a < s.dstLen.toNat) :
    s.hostDstByte a = s.dstByte a := by
  unfold State.hostDstByte
  rw [if_pos ⟨hd, ha⟩]

/-- What a host move other than a write of `CMD` and a reset cannot do: the engine's registers, SRC_LEN while BUSY, and the
configuration are as before, and the buffers keep their canonical form. -/
theorem hostMove_frame {m : HostMove} {s t : State} (hm : m ≠ .reset) (hc : ∀ v, m ≠ .writeReg .cmd v)
    (h : hostMove m s = .next t) :
    t = { s with src := t.src, dst := t.dst, srcLen := t.srcLen, rdata := t.rdata } ∧
      (s.status = .busy → t.srcLen = s.srcLen ∧ t.src = s.src ∧ t.dst = s.dst) ∧
      (Memory.wf s.src = true → Memory.wf t.src = true) ∧ (Memory.wf s.dst = true → Memory.wf t.dst = true) := by
  cases m with
  | tick => simp only [hostMove, Host.Outcome.next.injEq] at h; subst h; exact ⟨rfl, fun _ => ⟨rfl, rfl, rfl⟩, id, id⟩
  | reset => exact absurd rfl hm
  | writeReg r v =>
    cases r with
    | cmd => exact absurd rfl (hc v)
    | srcLen =>
      simp only [hostMove, hostWriteReg] at h
      split at h
      · simp at h
      · next hb =>
        simp only [Host.Outcome.next.injEq] at h
        subst h
        exact ⟨rfl, fun hb' => absurd hb' hb, id, id⟩
    | status => simp only [hostMove, hostWriteReg, Host.Outcome.next.injEq] at h; subst h; exact ⟨rfl, fun _ => ⟨rfl, rfl, rfl⟩, id, id⟩
    | fault => simp only [hostMove, hostWriteReg, Host.Outcome.next.injEq] at h; subst h; exact ⟨rfl, fun _ => ⟨rfl, rfl, rfl⟩, id, id⟩
    | dstLen => simp only [hostMove, hostWriteReg, Host.Outcome.next.injEq] at h; subst h; exact ⟨rfl, fun _ => ⟨rfl, rfl, rfl⟩, id, id⟩
    | result => simp only [hostMove, hostWriteReg, Host.Outcome.next.injEq] at h; subst h; exact ⟨rfl, fun _ => ⟨rfl, rfl, rfl⟩, id, id⟩
  | readReg r => rw [(hostReadReg_next h).1]; exact ⟨rfl, fun _ => ⟨rfl, rfl, rfl⟩, id, id⟩
  | writeSrc a v =>
    obtain ⟨rfl, hb, -⟩ := hostBuffer_next h
    exact ⟨rfl, fun hb' => absurd hb' hb, Memory.wf_write _ _ _, id⟩
  | readSrc a => obtain ⟨rfl, hb, -⟩ := hostBuffer_next h; exact ⟨rfl, fun hb' => absurd hb' hb, id, id⟩
  | writeDst a v =>
    obtain ⟨rfl, hb, -⟩ := hostBuffer_next h
    exact ⟨rfl, fun hb' => absurd hb' hb, id, Memory.wf_write _ _ _⟩
  | readDst a => obtain ⟨rfl, hb, -⟩ := hostBuffer_next h; exact ⟨rfl, fun hb' => absurd hb' hb, id, id⟩

end Sys2Proof.Machine
end

