-- ==== Sys2Proof/Laws/PerInstr.lean ====
section
/-! SUPPORT. One statement for every instruction, as syntax: the code it encodes to has the length and the kind that R57 to
R61, R64 and R71 give it. -/

namespace Sys2Proof.Laws.CodeShape

open Sys2Proof.Machine

/-- A literal has one byte behind control bit 1; a back-reference has two bytes, or three where the high nibble of the first
is 0, behind control bit 0; a control byte is one byte; a command's code names that command alone. -/
def Statement (i : Instr) : Prop :=
  i.wf = true →
    match encode i with
    | .token true bs => bs.length = 1
    | .token false bs => ∃ a rest, bs = a :: rest ∧ rest.length = if highNibble a = 0 then 2 else 1
    | .control bs => bs.length = 1
    | .command c => decodeCommand c = i

theorem lit (d : BitVec 8) : Statement (.lit d) := fun _ => rfl

theorem ref (n h : BitVec 4) (l : BitVec 8) : Statement (.ref n h l) := by
  intro hw
  have hn : n ≠ 0 := by simpa [Instr.wf] using hw
  refine ⟨n ++ h, [l], rfl, ?_⟩
  rw [highNibble_append, if_neg hn]
  rfl

theorem refx (h : BitVec 4) (l c : BitVec 8) : Statement (.refx h l c) := by
  intro _
  refine ⟨(0 : BitVec 4) ++ h, [l, c], rfl, ?_⟩
  rw [highNibble_append, if_pos rfl]
  rfl

theorem ctlf (k : BitVec 8) : Statement (.ctlf k) := fun _ => rfl

theorem iscomp : Statement .iscomp := fun _ => rfl

theorem decomp : Statement .decomp := fun _ => rfl

theorem comp : Statement .comp := fun _ => rfl

theorem crc16 : Statement .crc16 := fun _ => rfl

theorem reservedCmd (c : BitVec 3) : Statement (.reservedCmd c) := by
  have h : ∀ c : BitVec 3, (Instr.reservedCmd c).wf = true → decodeCommand c = .reservedCmd c := by decide
  exact h c

end Sys2Proof.Laws.CodeShape
end

