-- ==== Sys2Proof/Laws/Search.lean ====
section
/-! SUPPORT. What one comparison of the search finds (R116): the longest agreement within its cap. -/

namespace Sys2Proof.Machine

theorem matchLength_le (cap : Nat) (as bs : List Byte) : matchLength cap as bs ≤ cap := by
  induction cap generalizing as bs with
  | zero => simp [matchLength]
  | succ cap ih =>
    cases as with
    | nil => simp [matchLength]
    | cons a as =>
      cases bs with
      | nil => simp [matchLength]
      | cons b bs =>
        simp only [matchLength]
        split
        · have := ih as bs; omega
        · omega

/-- The bytes counted agree. -/
theorem matchLength_agree (cap : Nat) (as bs : List Byte) {k : Nat} (h : k < matchLength cap as bs) :
    as[k]? = bs[k]? ∧ k < as.length ∧ k < bs.length := by
  induction cap generalizing as bs k with
  | zero => simp [matchLength] at h
  | succ cap ih =>
    cases as with
    | nil => simp [matchLength] at h
    | cons a as =>
      cases bs with
      | nil => simp [matchLength] at h
      | cons b bs =>
        simp only [matchLength] at h
        split at h
        · next hab =>
          cases k with
          | zero => simp [hab]
          | succ k => simpa using ih as bs (k := k) (by omega)
        · omega

/-- No longer agreement lies within the cap. -/
theorem matchLength_max (cap : Nat) (as bs : List Byte) {m : Nat} (hc : m ≤ cap) (hb : m ≤ bs.length)
    (h : ∀ k, k < m → as[k]? = bs[k]?) : m ≤ matchLength cap as bs := by
  induction cap generalizing as bs m with
  | zero => omega
  | succ cap ih =>
    cases m with
    | zero => omega
    | succ m =>
      cases bs with
      | nil => simp at hb
      | cons b bs =>
        cases as with
        | nil => have := h 0 (by omega); simp at this
        | cons a as =>
          have h0 : a = b := by simpa using h 0 (by omega)
          simp only [matchLength, if_pos h0]
          have := ih as bs (m := m) (by omega) (by simpa using hb) (fun k hk => by simpa using h (k + 1) (by omega))
          omega

/-- A candidate's match lies within the data and the cap. -/
theorem matchAt_le (x : List Byte) (pos i : Nat) : matchAt x pos i ≤ min (x.length - pos) maxLength :=
  matchLength_le _ _ _

/-- A candidate's match is the bytes of the data at `i` and at `pos` (R116). -/
theorem matchAt_agree (x : List Byte) (pos i : Nat) {k : Nat} (h : k < matchAt x pos i) : x[i + k]? = x[pos + k]? := by
  have := (matchLength_agree _ _ _ h).1
  simpa using this

/-- No longer match starts at the candidate (R116). -/
theorem matchAt_max (x : List Byte) (pos i : Nat) {m : Nat} (hx : m ≤ x.length - pos) (hm : m ≤ maxLength)
    (h : ∀ k, k < m → x[i + k]? = x[pos + k]?) : m ≤ matchAt x pos i := by
  refine matchLength_max _ _ _ (by omega) (by simpa using hx) fun k hk => ?_
  simpa using h k hk

/-- The search over candidates from `lo` on: the best of those before and the first longest of these. -/
theorem search_succ (f : Nat → Nat) (lo n : Nat) (best : Nat × Nat) :
    (List.range' lo (n + 1)).foldl (fun best i => if best.1 < f i then (f i, i) else best) best =
      (fun best => if best.1 < f (lo + n) then (f (lo + n), lo + n) else best)
        ((List.range' lo n).foldl (fun best i => if best.1 < f i then (f i, i) else best) best) := by
  rw [List.range'_concat, List.foldl_append]
  simp

end Sys2Proof.Machine
end

