-- ==== Sys2Proof/Machine/Assembler.lean ====
section
/-! DEFINITION. The assembler notation of the spec's examples (30_encoding R73) and its pseudo-instructions (R74), as data:
a listing is a list of lines, and assembling it gives the bytes of a stream. What the notation leaves open is log 26. -/

namespace Sys2Proof.Machine

/-- One line of a listing (R73, R74). -/
inductive AsmLine where
  /-- `.yaz0 size` -/
  | yaz0 (size : BitVec 32)
  /-- `.reserved b0 … b7` -/
  | reserved (bs : List Byte)
  /-- `LIT d` -/
  | lit (d : Byte)
  /-- `REF d=…, n=…` -/
  | ref (d n : Nat)
  /-- `REFX d=…, n=…` -/
  | refx (d n : Nat)
  /-- `COPY d=…, n=…` -/
  | copy (d n : Nat)
  /-- `FILL n=…, v` -/
  | fill (n : Nat) (v : Byte)
  /-- `.ctlpad v` -/
  | ctlpad (v : Byte)
  /-- `.bytes …` -/
  | bytes (bs : List Byte)
deriving DecidableEq, Repr

/-- A copy of length `n` at distance `d`, where the notation allows both and `n` lies in the form's range. -/
def asmReference (d n lo hi : Nat) : Option (List Item) :=
  if 1 ≤ d ∧ d ≤ windowSize ∧ lo ≤ n ∧ n ≤ hi then some [.ref d n] else none

/-- The tokens a line stands for (R73, R74); `none` where an operand is out of its range. -/
def AsmLine.items : AsmLine → Option (List Item)
  | .lit d => some [.lit d]
  | .ref d n => asmReference d n minLength shortMax
  | .refx d n => asmReference d n (shortMax + 1) maxLength
  | .copy d n => asmReference d n minLength maxLength
  | .fill n v =>
    if 4 ≤ n ∧ n ≤ maxLength + 1 then some [.lit v, .ref 1 (n - 1)]
    else if n = 2 ∨ n = 3 then some (List.replicate n (.lit v))
    else none
  | .yaz0 _ => some []
  | .reserved bs => if bs.length = 8 then some [] else none
  | .ctlpad _ => some []
  | .bytes _ => some []

/-- The tokens of a listing, in order. -/
def asmItems : List AsmLine → Option (List Item)
  | [] => some []
  | l :: ls =>
    match l.items, asmItems ls with
    | some a, some b => some (a ++ b)
    | _, _ => none

/-- The header of a listing: its `.yaz0` line, with the reserved bytes of a `.reserved` line where there is one. DESIGN CHOICE
(log 26): either may stand anywhere in the listing, and of several the first counts. -/
def asmHeader (ls : List AsmLine) : Option (List Byte) :=
  match ls.findSome? (fun | .yaz0 size => some size | _ => none) with
  | none => none
  | some size =>
    some (magic ++ be32 size ++
      (ls.findSome? (fun | .reserved bs => some bs | _ => none)).getD (List.replicate 8 0))

/-- The value OR-ed into the unused control bits of the last group, and into no used one: nothing where the group is full
(R73). DESIGN CHOICE (log 26): of several `.ctlpad` lines the first counts, and one may stand anywhere. -/
def asmPad (ls : List AsmLine) (tokens : Nat) : Byte :=
  let v := (ls.findSome? (fun | .ctlpad v => some v | _ => none)).getD 0
  v &&& ((0xFF : Byte) >>> ((tokens - 1) % 8 + 1))

/-- The body of a listing: its tokens' emission (R114), padded as asked. -/
def asmBody (ls : List AsmLine) (p : List Item) : List Byte :=
  let body := emit p
  let last := (emit (p.take (8 * ((p.length - 1) / 8)))).length
  if p = [] then body else body.set last (body.getD last 0 ||| asmPad ls p.length)

/-- The raw bytes of a listing, in order. DESIGN CHOICE (log 26): `assemble` puts all of them behind the last token, wherever
their lines stand among the token lines. -/
def asmRaw (ls : List AsmLine) : List Byte := ls.flatMap (fun | .bytes bs => bs | _ => [])

/-- The bytes of a listing (R73): header, tokens, raw bytes; `none` where an operand is out of the range R73 or R74 gives it.
DESIGN CHOICE (log 26): `none` also where there is no `.yaz0` line. -/
def assemble (ls : List AsmLine) : Option (List Byte) :=
  match asmHeader ls, asmItems ls with
  | some h, some p => some (h ++ asmBody ls p ++ asmRaw ls)
  | _, _ => none

end Sys2Proof.Machine
end

