-- ==== Sys2Proof/Tests/Slice0.lean ====
section
/-! SUPPORT. The model's own tests: ill-formed terms refused, words written out from the spec's encodings, one step per
instruction with the values of 95_test_vectors, and for each statement a state and operands that meet its hypotheses. -/

namespace Sys2Proof.Tests

open Sys2Proof.Machine

/-! ## Helpers -/

/-- Bytes at rising addresses. -/
def cells : Nat → List Byte → Memory
  | _, [] => []
  | a, v :: vs => (a, v) :: cells (a + 1) vs

/-- After reset, the bytes loaded and their number in SRC_LEN. -/
def loaded (bytes : List Byte) : State :=
  { State.reset with src := cells 0 bytes, srcLen := BitVec.ofNat 32 bytes.length }

/-- The command accepted, no step taken yet. -/
def accepted (op : BitVec 3) (bytes : List Byte) : State :=
  { loaded bytes with cmd := op, op := op, status := .busy, runs := 1 }

/-- DECOMP of the given stream, where it stands at `sp` with the output so far. -/
def decoding (bytes : List Byte) (sp : BitVec 32) (ctl : Byte) (cnt : BitVec 4) (out : List Byte) (dsize : BitVec 32) :
    State :=
  { accepted 2 bytes with
    started := true, sp := sp, ctl := ctl, cnt := cnt, dp := BitVec.ofNat 33 out.length, dst := cells 0 out,
    dsize := dsize }

/-- COMP of the given data, where it stands at `ep` with the output so far. -/
def encoding (bytes : List Byte) (ep : BitVec 32) (nbits : BitVec 3) (ctlpos : BitVec 33) (out : List Byte) : State :=
  { accepted 3 bytes with
    started := true, ep := ep, nbits := nbits, ctlpos := ctlpos, dp := BitVec.ofNat 33 out.length, dst := cells 0 out }

/-- The next state, where there is one. -/
def nextOf : Host.Outcome State Fault Refusal → Option State
  | .next t => some t
  | _ => none

/-- A projection of the next state. -/
def after {α : Type} (o : Host.Outcome State Fault Refusal) (f : State → α) : Option α := (nextOf o).map f

/-- The header `H(m)` of 95_test_vectors. -/
def hdr (m : Byte) : List Byte := [0x59, 0x61, 0x7A, 0x30, 0, 0, 0, m, 0, 0, 0, 0, 0, 0, 0, 0]

/-! ## Well-formedness: one ill-formed term for each check -/

theorem test_wf_ref_length_nibble_zero_refused : (Instr.ref 0 3 7).wf = false := by decide

theorem test_wf_ref_length_nibble_one_allowed : (Instr.ref 1 3 7).wf = true := by decide

theorem test_wf_reservedCmd_real_codes_refused :
    [1, 2, 3, 4].all (fun c => (Instr.reservedCmd c).wf == false) = true := by decide

theorem test_wf_reservedCmd_reserved_codes_allowed :
    [0, 5, 6, 7].all (fun c => (Instr.reservedCmd c).wf) = true := by decide

/-! ## Decoding: words written out bit by bit from R59 to R61, R57, R71, R72 -/

/-- R59: control bit 1, then `d`. -/
theorem test_decode_lit : decode (.token true [0b01101000]) = .ok (.lit 0b01101000, []) := by decide

/-- R60: control bit 0, `A = nnnn hhhh`, `B = llllllll`; the word of `REF d=4096, n=5` is `3F FF` (R120's example). -/
theorem test_decode_ref : decode (.token false [0b00111111, 0b11111111, 0xAA]) = .ok (.ref 3 15 0xFF, [0xAA]) := by
  decide

/-- R61: control bit 0, `A = 0000 hhhh`, `B`, `C`; `REFX d=274, n=26` is `01 11 08` (R120's example). -/
theorem test_decode_refx : decode (.token false [0b00000001, 0x11, 0x08]) = .ok (.refx 1 0x11 0x08, []) := by decide

/-- R57: any byte is a control byte. -/
theorem test_decode_ctlf : decode (.control [0b11010111, 0x61]) = .ok (.ctlf 0xD7, [0x61]) := by decide

/-- R71, R72: the command codes, each on its own pattern. -/
theorem test_decode_commands :
    [0b000, 0b001, 0b010, 0b011, 0b100, 0b101, 0b110, 0b111].map decodeCommand =
      [.reservedCmd 0, .iscomp, .decomp, .comp, .crc16, .reservedCmd 5, .reservedCmd 6, .reservedCmd 7] := by decide

/-- Missing bytes do not decode (R147). -/
theorem test_decode_missing :
    decode (.token true []) = .error .missingLiteral ∧ decode (.token false [0x10]) = .error .missingReference ∧
      decode (.token false [0x00, 0x00]) = .error .missingLength ∧ decode (.control []) = .error .missingControl := by
  decide

/-- The opcode table's numbering: the control bit above the bytes, the first byte highest. -/
theorem test_table_words :
    decodeTableWord 9 0x141 = some (.lit 0x41) ∧ decodeTableWord 17 0x03FFF = some (.ref 3 15 0xFF) ∧
      decodeTableWord 25 0x0011108 = some (.refx 1 0x11 0x08) ∧ decodeTableWord 8 0 = some (.ctlf 0) ∧
      decodeTableWord 3 4 = some .crc16 ∧ decodeTableWord 3 7 = some (.reservedCmd 7) := by decide

/-! ## One step per instruction -/

/-- P1 step 1: `LIT 00` to `DST[0]`; the control bit is taken. -/
theorem test_lit_first_of_P1 :
    after (exec (.lit 0) (decoding (hdr 32 ++ [0x80, 0x00, 0x00, 0x00, 0x0D]) 17 0x80 8 [] 32))
      (fun t => (t.sp, t.dp, t.ctl, t.cnt, t.status)) = some (18, 1, 0x00, 7, .busy) := by decide

/-- V3: the second literal completes at the declared size. -/
theorem test_lit_completes_V3 :
    after (exec (.lit 0x42) (decoding (hdr 2 ++ [0xFF, 0x41, 0x42, 0x43, 0x44]) 18 0xFE 7 [0x41] 2))
      (fun t => (t.sp, t.ctl, t.cnt, t.dstLen, t.output 2)) = some (19, 0xFC, 6, 2, [0x41, 0x42]) := by decide

/-- V6: `REF d=2 n=6` overlaps its own output. -/
theorem test_ref_overlap_V6 :
    after (exec (.ref 4 0 1) (decoding (hdr 8 ++ [0xC0, 0x61, 0x62, 0x40, 0x01]) 19 0x00 6 [0x61, 0x62] 8))
      (fun t => (t.sp, t.cnt, t.status, t.output 8)) =
        some (21, 5, .done, [0x61, 0x62, 0x61, 0x62, 0x61, 0x62, 0x61, 0x62]) := by decide

/-- F9: `dist = 2 > DP = 1`. -/
theorem test_ref_bad_distance_F9 :
    after (exec (.ref 1 0 1) (decoding (hdr 4 ++ [0x80, 0x41, 0x10, 0x01]) 18 0x00 7 [0x41] 4))
      (fun t => (t.status, t.fault, t.dstLen)) = some (.fault, .badDistance, 0) := by decide

/-- V7: `REFX d=1 n=19`. -/
theorem test_refx_V7 :
    after (exec (.refx 0 0 1) (decoding (hdr 20 ++ [0x80, 0x55, 0x00, 0x00, 0x01]) 18 0x00 7 [0x55] 20))
      (fun t => (t.sp, t.cnt, t.status, t.output 20)) = some (21, 6, .done, List.replicate 20 0x55) := by decide

/-- F13: truncated and out of range; truncation is reported. -/
theorem test_refx_truncated_F13 :
    after (exec (.refx 0 5 0) (decoding (hdr 30 ++ [0x80, 0x41, 0x00, 0x05]) 18 0x00 7 [0x41] 30))
      (fun t => (t.status, t.fault)) = some (.fault, .truncatedInput) := by decide

/-- R92's example: at `SP = 16`, control byte `80`. -/
theorem test_ctlf_fetch :
    after (exec (.ctlf 0x80) (decoding (hdr 1 ++ [0x80, 0x41]) 16 0 0 [] 1)) (fun t => (t.ctl, t.cnt, t.sp)) =
      some (0x80, 8, 17) := by decide

/-- F5: no byte where a control byte is due. -/
theorem test_ctlf_missing_F5 :
    after (exec (.ctlf 0) (decoding (hdr 1) 16 0 0 [] 1)) (fun t => (t.status, t.fault)) =
      some (.fault, .truncatedInput) := by decide

/-- T2 and T3: the length test is strict. -/
theorem test_iscomp_T2_T3 :
    after (exec .iscomp (accepted 1 (hdr 0))) (fun t => (t.result, t.status)) = some (0, .done) ∧
      after (exec .iscomp (accepted 1 (hdr 0 ++ [0]))) (fun t => (t.result, t.status)) = some (1, .done) := by decide

/-- V1 and F4: a 16-byte header of size 0 is done at once; 12 bytes are too few. -/
theorem test_decomp_start_V1_F4 :
    after (exec .decomp (accepted 2 (hdr 0))) (fun t => (t.status, t.dstLen, t.sp)) = some (.done, 0, 16) ∧
      after (exec .decomp (accepted 2 ((hdr 1).take 12))) (fun t => (t.status, t.fault)) =
        some (.fault, .truncatedInput) := by decide

/-- P3 step 9: a control byte and a REFX in one step, which completes. -/
theorem test_decomp_token_P3 :
    after (exec .decomp (decoding (hdr 33 ++ [0xD7, 0x61, 0x62, 0x40, 0x01, 0x63, 0x10, 0x08, 0x64, 0x65, 0x66, 0x00,
        0x00, 0x0E, 0x00, 0xFF, 0xFF]) 27 0 0
        [0x61, 0x62, 0x61, 0x62, 0x61, 0x62, 0x61, 0x62, 0x63, 0x61, 0x62, 0x61, 0x64, 0x65, 0x66] 33))
      (fun t => (t.sp, t.dp, t.ctl, t.cnt, t.status)) = some (31, 33, 0x00, 7, .done) := by decide

/-- R115's example: the header for 32 bytes. -/
theorem test_comp_start_header :
    after (exec .comp (accepted 3 (List.replicate 32 0))) (fun t => (t.output 16, t.dp, t.status)) =
      some (hdr 32, 16, .busy) := by decide

/-- Z5: `41 41 41 41` after its literal gives `REF d=1 n=3`, and COMP is done. -/
theorem test_comp_reference_Z5 :
    after (exec .comp (encoding [0x41, 0x41, 0x41, 0x41] 1 1 16 (hdr 4 ++ [0x80, 0x41])))
      (fun t => (t.output 20, t.dstLen, t.status)) = some (hdr 4 ++ [0x80, 0x41, 0x10, 0x00], 20, .done) := by decide

/-- R138's example: `CRC = 8000`, byte `01`. -/
theorem test_crc16_byte :
    after (exec .crc16 { accepted 4 [0x01] with started := true, crc := 0x8000 }) (fun t => (t.crc, t.sp, t.status)) =
      some (0x0180, 1, .busy) := by decide

/-- K1's trace: after the first virtual zero byte `0080`, after the second `8408`, and CRC16 is done. -/
theorem test_crc16_completes_K1 :
    after (exec .crc16 { accepted 4 [] with started := true, crc := 0x0080, sp := 1 })
      (fun t => (t.result, t.status, t.dstLen)) = some (0x8408, .done, 0) := by decide

/-- Section 3: `CMD <- 0` gives BadCommand. -/
theorem test_reservedCmd_bad_command :
    after (exec (.reservedCmd 0) (loaded [])) (fun t => (t.status, t.fault, t.dstLen)) =
      some (.fault, .badCommand, 0) := by decide

/-- Section 3: `CMD <- 2` with `SRC_LEN = SRC_MAX + 1` gives BadLength, and `CMD <- 0` BadCommand. -/
theorem test_command_bad_length :
    let s : State := { State.reset with cfg := { State.reset.cfg with srcMax := 4 }, srcLen := 5 }
    (acceptCommand 2 s).fault = .badLength ∧ (acceptCommand 0 s).fault = .badCommand ∧
      (acceptCommand 2 { s with srcLen := 4 }).status = .busy := by decide

/-- The search and the choice of R117's example: "abc_bcdefgh_abcdefgh" at 12. -/
theorem test_search_R117 :
    let x : List Byte := [0x61, 0x62, 0x63, 0x5F, 0x62, 0x63, 0x64, 0x65, 0x66, 0x67, 0x68, 0x5F, 0x61, 0x62, 0x63, 0x64,
      0x65, 0x66, 0x67, 0x68]
    search x 12 = (3, 0) ∧ search x 13 = (7, 4) ∧ chooseReference x 12 none = (.lit 0x61, some (7, 4)) ∧
      chooseReference x 13 (some (7, 4)) = (.ref 9 7, none) := by decide

/-- The listing of V10 assembles to its stream (R73). -/
theorem test_assemble_V10 :
    assemble [.yaz0 19, .fill 19 0] = some (hdr 19 ++ [0x80, 0x00, 0x00, 0x00, 0x00]) := by decide

/-! ## States that meet the statements' hypotheses: the invariant -/

/-- V3 before its second literal. -/
def midDecomp : State := decoding (hdr 2 ++ [0xFF, 0x41, 0x42]) 18 0xFE 7 [0x41] 2

/-- Z5 before its back-reference. -/
def midComp : State := encoding [0x41, 0x41, 0x41, 0x41] 1 1 16 (hdr 4 ++ [0x80, 0x41])

/-- Data loaded after reset, and a host about to start COMP. -/
theorem witness_Inv_idle : ({ loaded [0x41] with moves := [.writeReg .cmd 3] } : State).Inv where
  cfg := by decide
  src := by decide
  dst := by decide
  faultCode := by decide
  noResult := by decide
  resultFits := by decide
  opLegal := by decide
  lengthLegal := by decide
  decomp := fun h => absurd h (by decide)
  comp := fun h => absurd h (by decide)
  crc := fun h => absurd h (by decide)

theorem witness_Inv_accepted : (accepted 3 [0x41]).Inv where
  cfg := by decide
  src := by decide
  dst := by decide
  faultCode := by decide
  noResult := by decide
  resultFits := by decide
  opLegal := by decide
  lengthLegal := by decide
  decomp := fun _ h => absurd h (by decide)
  comp := fun _ _ h => absurd h (by decide)
  crc := fun _ h => absurd h (by decide)

theorem witness_Inv_decomp : midDecomp.Inv where
  cfg := by decide
  src := by decide
  dst := by decide
  faultCode := by decide
  noResult := by decide
  resultFits := by decide
  opLegal := by decide
  lengthLegal := by decide
  decomp := fun _ _ _ =>
    { spLow := by decide, spHigh := by decide, dpHigh := by decide, fits := by decide, cntHigh := by decide
      ctlLow := by decide, written := by unfold State.DstWritten; decide }
  comp := fun _ h => absurd h (by decide)
  crc := fun _ h => absurd h (by decide)

theorem witness_Inv_comp : midComp.Inv where
  cfg := by decide
  src := by decide
  dst := by decide
  faultCode := by decide
  noResult := by decide
  resultFits := by decide
  opLegal := by decide
  lengthLegal := by decide
  decomp := fun _ h => absurd h (by decide)
  comp := fun _ _ _ =>
    { epHigh := by decide, dpLow := by decide, fits := by decide, group := by decide, size := ⟨1, by decide⟩
      deferLength := by decide, deferDistance := by decide, written := by unfold State.DstWritten; decide }
  crc := fun _ h => absurd h (by decide)

theorem witness_Inv_crc : ({ accepted 4 [0x01] with started := true, crc := 0x0080, sp := 2 } : State).Inv where
  cfg := by decide
  src := by decide
  dst := by decide
  faultCode := by decide
  noResult := by decide
  resultFits := by decide
  opLegal := by decide
  lengthLegal := by decide
  decomp := fun _ h => absurd h (by decide)
  comp := fun _ h => absurd h (by decide)
  crc := by decide

/-! ## States that meet the statements' hypotheses: encoding, reset, host -/

theorem witness_DecodeOfEncode :
    (Instr.ref 1 0 0).wf = true ∧ (Instr.ref 15 15 0xFF).wf = true ∧ (Instr.reservedCmd 0).wf = true ∧
      (Instr.reservedCmd 7).wf = true := by decide

theorem witness_EncodeOfDecode :
    decode (.token false [0x10, 0x00]) = .ok (.ref 1 0 0, []) ∧
      decode (.token false [0x0F, 0xFF, 0xFF, 0x01]) = .ok (.refx 15 0xFF 0xFF, [0x01]) ∧
      decode (.command 7) = .ok (.reservedCmd 7, []) := by decide

theorem witness_TokenFormByControlBitAndNibble :
    (0x10 : Byte).extractLsb 7 4 ≠ 0 ∧ (0x0F : Byte).extractLsb 7 4 = 0 := by decide

theorem witness_ReferenceOperands :
    highNibble 0x10 ≠ 0 ∧ shortLength (highNibble 0x10) = 3 ∧ shortLength (highNibble 0xFF) = 17 ∧ longLength 0 = 18 ∧
      longLength 0xFF = 273 ∧ distance 0 0 = 1 ∧ distance 15 0xFF = 4096 := by decide

/-- Both ends of the distances, and the lengths where the forms meet (R120's corner cases). -/
theorem witness_ReferenceOperands_encoding :
    itemBytes (.ref 1 3) = [0x10, 0x00] ∧ itemBytes (.ref 4096 17) = [0xFF, 0xFF] ∧
      itemBytes (.ref 4096 18) = [0x0F, 0xFF, 0x00] ∧ itemBytes (.ref 1 273) = [0x00, 0x00, 0xFF] := by decide

theorem witness_ResetLeavesStatedValues :
    ({ midDecomp with moves := [.reset, .tick] } : State).moves = .reset :: [.tick] := by decide

/-- From states that meet the invariant: the host's command, and the engine's step in each operation. -/
theorem witness_InvariantKeptByStep :
    (after (step { loaded [0x41] with moves := [.writeReg .cmd 3] }) State.status = some .busy) ∧
      (after (step midDecomp) State.status = some .done) ∧ (after (step midComp) State.status = some .done) ∧
      (after (step (accepted 3 [0x41])) State.dp = some 16) ∧
      (after (step { accepted 4 [0x01] with started := true, crc := 0x0080, sp := 2 }) State.status = some .done) := by
  decide

theorem witness_EngineNeverStopsUnderInvariant :
    midDecomp.moves = [] ∧ ({ midComp with moves := [.tick, .reset] } : State).moves.head? = some .tick := by decide

theorem witness_NothingHappensUnlessBusy :
    ((loaded []).moves = [] ∧ (loaded []).status ≠ .busy) ∧
      (let s : State := { (loaded []).raise .badLength with moves := [.tick, .reset] }
       s.status ≠ .busy ∧ s.moves = .tick :: [.reset] ∧ nextOf (step s) = some { s with moves := [.reset] }) ∧
      (let s : State := { (loaded []).raise .badDistance with moves := [.readReg .fault] }
       s.moves = .readReg .fault :: [] ∧ s.status = .fault ∧ HostMove.readReg .fault ≠ .reset ∧
        after (step s) State.rdata = some 3) := by decide

theorem witness_StatusTransitions :
    after (step { midDecomp with moves := [.reset] }) State.status = some .idle ∧
      after (step { midDecomp with moves := [.writeReg .cmd 0] }) State.status = some .busy ∧
      after (step { loaded [] with moves := [.writeReg .cmd 0] }) State.status = some .fault ∧
      after (step { loaded [] with moves := [.writeReg .cmd 1] }) State.status = some .busy ∧
      after (step { loaded [] with moves := [.tick] }) State.status = some .idle := by decide

/-- SRC_LEN at SRC_MAX and one above it; a reserved code; a write of more bits than `CMD` has. -/
theorem witness_CommandAcceptance :
    let s : State := { State.reset with cfg := { State.reset.cfg with srcMax := 4 }, srcLen := 4 }
    s.status ≠ .busy ∧ after (step { s with moves := [.writeReg .cmd 4] }) State.status = some .busy ∧
      after (step { s with srcLen := 5, moves := [.writeReg .cmd 4] }) State.fault = some .badLength ∧
      after (step { s with srcLen := 5, moves := [.writeReg .cmd 5] }) State.fault = some .badCommand ∧
      after (step { s with moves := [.writeReg .cmd 9] }) State.op = some 1 := by decide

theorem witness_CommandIgnoredWhileBusy :
    let s : State := { midDecomp with moves := [.writeReg .cmd 7] }
    s.moves = .writeReg .cmd 7 :: [] ∧ s.status = .busy := by decide

theorem witness_ReservedCommandRaisesBadCommand :
    (loaded []).status ≠ .busy ∧
      ({ loaded [] with moves := [.writeReg .cmd 5] } : State).moves =
        .writeReg .cmd ((5 : BitVec 3).setWidth 33) :: [] := by decide

theorem witness_HostRegisterAccess :
    after (step { midDecomp with moves := [.readReg .status] }) State.rdata = some 1 ∧
      after (step { loaded [1, 2] with moves := [.readReg .srcLen] }) State.rdata = some 2 ∧
      after (step { loaded [1, 2] with cmd := 3, moves := [.readReg .cmd] }) State.rdata = some 0 ∧
      after (step { loaded [] with moves := [.writeReg .status 3] }) State.status = some .idle ∧
      after (step { loaded [] with moves := [.writeReg .srcLen 0xFFFFFFFF] }) State.srcLen = some 0xFFFFFFFF := by decide

/-- R145's numbers, as the host reads them. -/
theorem test_fault_numbers_R145 :
    ([.none, .formatError, .truncatedInput, .badDistance, .dstOverflow, .badCommand, .badLength] : List FaultCode).map
        (fun f => after (step { loaded [] with fault := f, moves := [.readReg .fault] }) State.rdata) =
      [some 0, some 1, some 2, some 3, some 4, some 5, some 6] := by decide

/-- The last byte of each buffer, the last byte of a result, and the first address that does not exist. -/
theorem witness_HostBufferAccess :
    let s : State := { State.reset with cfg := { State.reset.cfg with srcMax := 4, dstMax := some 16 } }
    let d : State := { s with status := .done, dstLen := 16, dst := cells 14 [7, 8] }
    s.status ≠ .busy ∧ 3 < s.cfg.srcMax ∧
      after (step { s with moves := [.writeSrc 3 9] }) (fun t => Memory.read t.src 3) = some (some 9) ∧
      after (step { s with src := cells 3 [9], moves := [.readSrc 3] }) State.rdata = some 9 ∧
      s.cfg.dstMax = some 16 ∧
      after (step { s with moves := [.writeDst 15 9] }) (fun t => Memory.read t.dst 15) = some (some 9) ∧
      15 < d.dstLen.toNat ∧ after (step { d with moves := [.readDst 15] }) State.rdata = some 8 := by
  decide

/-- At the capacities. -/
theorem witness_HostBufferAccess_capacity :
    let s : State := { State.reset with cfg := { State.reset.cfg with srcMax := 4, dstMax := some 16 } }
    s.status ≠ .busy ∧ s.cfg.srcMax ≤ 4 ∧ s.cfg.dstMax = some 16 ∧
      step { s with moves := [.writeSrc 4 9] } = .fault .hostAddress ∧
      step { s with moves := [.readSrc 4] } = .fault .hostAddress ∧
      step { s with moves := [.writeDst 16 9] } = .fault .hostAddress ∧
      step { s with moves := [.readDst 16] } = .fault .hostAddress :=
  ⟨by decide, by decide, rfl, rfl, rfl, rfl, rfl⟩

theorem witness_HostBufferAccessRefusedWhileBusy :
    midDecomp.status = .busy ∧ ({ midDecomp with moves := [.writeSrc 0 0] } : State).moves = .writeSrc 0 0 :: [] ∧
      nextOf (step { midDecomp with moves := [.writeSrc 0 0] }) = none ∧
      nextOf (step { midDecomp with moves := [.readDst 0] }) = none ∧
      nextOf (step { midDecomp with moves := [.readReg .srcLen] }) = none ∧
      nextOf (step { midDecomp with moves := [.writeReg .srcLen 0] }) = none := by decide

/-! ## States that meet the statements' hypotheses: DECOMP and its tokens -/

theorem witness_StepRunsCommandInOp :
    midDecomp.status = .busy ∧ midDecomp.moves = [] ∧ ({ midComp with moves := [.tick] } : State).moves = .tick :: [] ∧
      after (step { loaded [] with started := true, moves := [.writeReg .cmd 2] }) State.started = some false ∧
      after (exec .decomp (accepted 2 (hdr 1))) (fun t => (t.status, t.started)) = some (.busy, true) ∧
      after (exec .comp (accepted 3 [])) (fun t => (t.status, t.started)) = some (.done, true) ∧
      after (exec .crc16 (accepted 4 [])) (fun t => (t.status, t.started)) = some (.busy, true) := by decide

/-- A token that is there, and one whose byte is missing. -/
theorem witness_StepRunsDecodedToken :
    let t : State := decoding (hdr 2 ++ [0xFF, 0x41]) 18 0xFE 7 [0x41] 2
    midDecomp.moves = [] ∧ midDecomp.status = .busy ∧ midDecomp.op = 2 ∧ midDecomp.started = true ∧
      midDecomp.dp.toNat < midDecomp.dsize.toNat ∧ midDecomp.cnt ≠ 0 ∧
      decodeToken midDecomp.ctl.msb (midDecomp.input.drop midDecomp.sp.toNat) = .ok (.lit 0x42, []) ∧
      t.cnt ≠ 0 ∧ decodeToken t.ctl.msb (t.input.drop t.sp.toNat) = .error .missingLiteral := by decide

/-- The control byte missing (F5), there with its token, and there with its token missing (F6). -/
theorem witness_StepTakesControlByteThenToken :
    let a : State := decoding (hdr 1) 16 0 0 [] 1
    let b : State := decoding (hdr 1 ++ [0x80, 0x41]) 16 0 0 [] 1
    let c : State := decoding (hdr 1 ++ [0x80]) 16 0 0 [] 1
    (a.moves = [] ∧ a.status = .busy ∧ a.op = 2 ∧ a.started = true ∧ a.dp.toNat < a.dsize.toNat ∧ a.cnt = 0) ∧
      a.srcLen.toNat ≤ a.sp.toNat ∧ b.sp.toNat < b.srcLen.toNat ∧
      after (exec (.ctlf 0x80) b) (fun u => decodeToken u.ctl.msb (u.input.drop u.sp.toNat)) =
        some (.ok (.lit 0x41, [])) ∧
      c.sp.toNat < c.srcLen.toNat ∧
      decodeToken (c.srcByte c.sp.toNat).msb (c.input.drop (c.sp.toNat + 1)) = .error .missingLiteral := by decide

/-- A declared size of 0, and one that fills DST. -/
theorem witness_DecompStart_loads :
    let a : State := accepted 2 (hdr 0)
    let b : State := { accepted 2 (hdr 16) with cfg := { State.reset.cfg with dstMax := some 16 } }
    a.started = false ∧ 16 ≤ a.srcLen.toNat ∧ a.input.take 4 = [0x59, 0x61, 0x7A, 0x30] ∧ a.fitsDst 0 = true ∧
      b.fitsDst 16 = true ∧ after (exec .decomp b) State.dsize = some 16 := by decide

/-- Three and four bytes, fifteen and sixteen, and a declared size one above DST_MAX. -/
theorem witness_DecompStart_faults :
    let a : State := accepted 2 [0x59, 0x61, 0x7A]
    let b : State := accepted 2 [0x59, 0x61, 0x7A, 0x30]
    let c : State := accepted 2 ((hdr 17).take 15)
    let d : State := { accepted 2 (hdr 17) with cfg := { State.reset.cfg with dstMax := some 16 } }
    a.started = false ∧ a.srcLen.toNat < 4 ∧ (4 ≤ b.srcLen.toNat ∧ b.srcLen.toNat < 16) ∧
      b.input.take 4 = [0x59, 0x61, 0x7A, 0x30] ∧ after (exec .decomp b) State.fault = some .truncatedInput ∧
      after (exec .decomp c) State.fault = some .truncatedInput ∧ 16 ≤ d.srcLen.toNat ∧
      d.input.take 4 = [0x59, 0x61, 0x7A, 0x30] ∧ d.fitsDst (declaredSizeOf d.input).toNat = false := by decide

/-- A control byte due and there, at the last byte; due and missing; not due. -/
theorem witness_ControlByteFetch :
    let a : State := decoding (hdr 1 ++ [0x80]) 16 0 0 [] 1
    let b : State := decoding (hdr 1) 16 0 0 [] 1
    (a.cnt = 0 ∧ a.sp.toNat < a.srcLen.toNat) ∧ (b.cnt = 0 ∧ b.srcLen.toNat ≤ b.sp.toNat) ∧ midDecomp.cnt ≠ 0 := by decide

/-- One byte before the declared size, and two before it. -/
theorem witness_LiteralToken :
    let b : State := decoding (hdr 3 ++ [0xFF, 0x41, 0x42]) 18 0xFE 7 [0x41] 3
    midDecomp.sp.toNat < midDecomp.srcLen.toNat ∧ midDecomp.dp.toNat < midDecomp.dsize.toNat ∧
      midDecomp.fitsDst midDecomp.dsize.toNat = true ∧ b.sp.toNat < b.srcLen.toNat ∧ b.dp.toNat < b.dsize.toNat ∧
      b.fitsDst b.dsize.toNat = true := by decide

/-- V12: `dist = DP`, and the copy ends at the declared size; V4: the copy is cut. -/
theorem witness_ShortReferenceToken :
    let a : State := decoding (hdr 4 ++ [0x80, 0x41, 0x10, 0x00]) 18 0x00 7 [0x41] 4
    let b : State := decoding (hdr 5 ++ [0x80, 0x41, 0x70, 0x00]) 18 0x00 7 [0x41] 5
    (a.sp.toNat + 2 ≤ a.srcLen.toNat ∧ 1 ≤ a.dp.toNat ∧ a.dp.toNat ≤ a.dsize.toNat ∧ a.fitsDst a.dsize.toNat = true) ∧
      min (1 + 2) (a.dsize.toNat - a.dp.toNat) = 3 ∧
      (b.sp.toNat + 2 ≤ b.srcLen.toNat ∧ 1 ≤ b.dp.toNat ∧ b.dp.toNat ≤ b.dsize.toNat ∧ b.fitsDst b.dsize.toNat = true) ∧
      min (7 + 2) (b.dsize.toNat - b.dp.toNat) = 4 := by decide

/-- V10 before its `REFX`. -/
theorem witness_LongReferenceToken :
    let a : State := decoding (hdr 19 ++ [0x80, 0x00, 0x00, 0x00, 0x00]) 18 0x00 7 [0x00] 19
    a.sp.toNat + 3 ≤ a.srcLen.toNat ∧ 1 ≤ a.dp.toNat ∧ a.dp.toNat ≤ a.dsize.toNat ∧ a.fitsDst a.dsize.toNat = true ∧
      min (0 + 18) (a.dsize.toNat - a.dp.toNat) = 18 := by decide

/-- F6, F7, F8, F10 and its long form, each at the boundary of its clause. -/
theorem witness_Tokens_trap :
    let a : State := decoding (hdr 1 ++ [0x80]) 17 0x80 8 [] 1
    let b : State := decoding (hdr 4 ++ [0x80, 0x41, 0x10]) 18 0x00 7 [0x41] 4
    let c : State := decoding (hdr 30 ++ [0x80, 0x41, 0x00, 0x00]) 18 0x00 7 [0x41] 30
    let d : State := decoding (hdr 3 ++ [0x00, 0x10, 0x00]) 17 0x00 8 [] 3
    let e : State := decoding (hdr 30 ++ [0x00, 0x00, 0x00, 0x00]) 17 0x00 8 [] 30
    a.srcLen.toNat ≤ a.sp.toNat ∧ b.srcLen.toNat < b.sp.toNat + 2 ∧ c.srcLen.toNat < c.sp.toNat + 3 ∧
      (d.sp.toNat + 2 ≤ d.srcLen.toNat ∧ d.dp.toNat < 256 * (0 : BitVec 4).toNat + (0 : Byte).toNat + 1) ∧
      (e.sp.toNat + 3 ≤ e.srcLen.toNat ∧ e.dp.toNat < 256 * (0 : BitVec 4).toNat + (0 : Byte).toNat + 1) := by decide

/-- A token of each form, completing; and one that traps. -/
theorem witness_TokenFrame :
    let a : State := decoding (hdr 40 ++ [0x80, 0x41, 0x10, 0x00, 0x00]) 18 0x00 7 [0x41] 40
    a.dp.toNat ≤ a.dsize.toNat ∧ after (exec (.lit 0x10) a) State.dp = some 2 ∧
      after (exec (.ref 1 0 0) a) State.dp = some 4 ∧ after (exec (.refx 0 0 0) a) State.dp = some 19 ∧
      after (exec (.ref 1 0 1) a) State.status = some .fault := by decide

theorem witness_TokenStepProgress :
    midDecomp.started = true ∧ midDecomp.dp.toNat < midDecomp.dsize.toNat ∧
      after (exec .decomp midDecomp) (fun t => (t.status, t.sp, t.dp)) = some (.done, 19, 2) := by decide

/-- The start step; a token step that completes; one that faults. -/
theorem witness_DecompFrame :
    after (exec .decomp (accepted 2 (hdr 1))) State.sp = some 16 ∧ midDecomp.started = true ∧
      after (exec .decomp midDecomp) State.dp = some 2 ∧
      after (exec .decomp (decoding (hdr 3 ++ [0x00, 0x10, 0x00]) 16 0 0 [] 3)) State.fault = some .badDistance ∧
      after (exec .decomp (accepted 2 (hdr 0))) (fun t => (t.status, t.result)) = some (.done, 0) := by decide

theorem witness_DecompRunIsDecompress_DecompRunLength :
    let s := accepted 2 (hdr 1 ++ [0x80, 0x41])
    s.moves = [] ∧ s.status = .busy ∧ s.op = 2 ∧ s.started = false ∧ s.srcLen.toNat ≠ 16 := by decide

/-- F5, the empty body on which R174's count and the step rules differ: still BUSY after the start step (R90), TruncatedInput
in the next (R92). -/
theorem test_F5_faults_in_the_second_step :
    let s := accepted 2 (hdr 1)
    s.srcLen.toNat = 16 ∧ after (runFor 1 s) State.status = some .busy ∧
      after (runFor 2 s) State.fault = some .truncatedInput := by decide

theorem witness_DecompressDeliversDeclaredSize :
    decompress (some 16) (hdr 2 ++ [0xC0, 0x41, 0x42]) = .ok [0x41, 0x42] := by decide

theorem witness_DecompressIgnoresUnusedBytes :
    ((hdr 1).take 8).length = 8 ∧ (List.replicate 8 (0 : Byte)).length = 8 ∧ (List.replicate 8 (0xFF : Byte)).length = 8 ∧
      decompress none ((hdr 1).take 8 ++ List.replicate 8 0xFF ++ [0x80, 0x7A]) = .ok [0x7A] := by decide

/-- `H(1) 80 7A` from its only group boundary, one token before the end; all seven bits behind it are set instead. -/
theorem witness_DecompressIgnoresUnusedControlBits :
    let s := accepted 2 (hdr 1 ++ [0x80, 0x7A])
    let x := hdr 1 ++ [0xFF, 0x7A]
    (s.moves = [] ∧ s.status = .busy ∧ s.op = 2 ∧ s.started = false) ∧
      after (runFor 1 s) (fun w => (w.started, w.cnt, w.sp)) = some (true, 0, 16) ∧
      ((nextOf (runFor 1 s)).bind fun w => after (runFor 1 w) State.status) = some .done ∧
      x.length = s.input.length ∧ x.set 16 0x80 = s.input ∧
      (x.getD 16 0).getMsbD 0 = (s.input.getD 16 0).getMsbD 0 ∧
      decompress s.cfg.dstMax x = .ok [0x7A] := by decide

/-! ## States that meet the statements' hypotheses: COMP -/

theorem witness_CompStartWritesHeader :
    (accepted 3 []).started = false ∧ (accepted 3 []).cfg.wf = true ∧
      after (exec .comp (accepted 3 [])) State.status = some .done ∧ (accepted 3 [0x41]).started = false ∧
      after (exec .comp (accepted 3 [0x41])) State.status = some .busy := by decide

/-- The first literal of a group at the end of the data, and a later one. -/
theorem witness_CompEmitsLiteral :
    let a : State := { encoding [0x41] 0 0 0 (hdr 1) with cfg := { State.reset.cfg with dstMax := some 18 } }
    let b : State := encoding [0x41, 0x42, 0x43] 1 1 16 (hdr 3 ++ [0x80, 0x41])
    (a.started = true ∧ a.ep.toNat < a.srcLen.toNat ∧
      choose a.cfg.chooser a.input a.ep.toNat a.deferred = (.lit 0x41, none) ∧ a.fitsDst 18 = true ∧ a.nbits = 0) ∧
    (b.started = true ∧ b.ep.toNat < b.srcLen.toNat ∧
      choose b.cfg.chooser b.input b.ep.toNat b.deferred = (.lit 0x42, none) ∧ b.fitsDst 19 = true ∧ b.nbits ≠ 0 ∧
      b.ctlpos.toNat < b.dp.toNat) := by decide

/-- Z5, where DST ends with the reference; and a reference that opens a group. -/
theorem witness_CompEmitsReference :
    let a : State := { midComp with cfg := { State.reset.cfg with dstMax := some 20 } }
    let b : State := { encoding [0x41, 0x41, 0x41, 0x41, 0x42] 1 0 16 (hdr 5 ++ [0x80, 0x41]) with deferPos := 0 }
    (a.started = true ∧ a.ep.toNat < a.srcLen.toNat ∧
      choose a.cfg.chooser a.input a.ep.toNat a.deferred = (.ref 1 3, none) ∧ a.nbits ≠ 0 ∧ a.fitsDst 20 = true) ∧
    (b.ep.toNat < b.srcLen.toNat ∧ choose b.cfg.chooser b.input b.ep.toNat b.deferred = (.ref 1 3, none) ∧
      b.nbits = 0 ∧ b.fitsDst 21 = true) := by decide

/-- One byte too few for a reference inside a group, and no room for a control byte. -/
theorem witness_CompEmits_overflow :
    let a : State := { midComp with cfg := { State.reset.cfg with dstMax := some 19 } }
    let b : State := { encoding [0x41] 0 0 0 (hdr 1) with cfg := { State.reset.cfg with dstMax := some 16 } }
    (choose a.cfg.chooser a.input a.ep.toNat a.deferred = (.ref 1 3, none) ∧ a.fitsDst a.dp.toNat = true ∧
      a.ctlpos.toNat < a.dp.toNat ∧ a.fitsDst (a.dp.toNat + 0 + (itemBytes (.ref 1 3)).length) = false) ∧
    (choose b.cfg.chooser b.input b.ep.toNat b.deferred = (.lit 0x41, none) ∧ b.fitsDst b.dp.toNat = true ∧
      b.fitsDst (b.dp.toNat + 1 + (itemBytes (.lit 0x41)).length) = false) := by decide

/-- No match at the first and at the last position; the first of two equal matches. -/
theorem witness_SearchFindsFirstLongest :
    search [0x41, 0x41] 0 = (0, 0) ∧ search [0x41, 0x41] 2 = (0, 0) ∧ search [0x41, 0x41, 0x41] 1 = (2, 0) ∧
      search [0x41, 0x42, 0x41, 0x42, 0x41] 4 = (1, 0) := by decide

/-- A deferral (R117's example, shortened), and the iteration that consumes it. -/
theorem witness_DeferredMatchLife :
    let x : List Byte := [0x61, 0x62, 0x63, 0x5F, 0x62, 0x63, 0x64, 0x65, 0x66, 0x61, 0x62, 0x63, 0x64, 0x65, 0x66]
    let s : State := encoding x 9 1 16 (hdr 15 ++ [0x80, 0x61])
    s.started = true ∧ after (exec .comp s) (fun t => (t.deferV, t.ep, t.deferLen, t.deferPos, t.status)) =
        some (true, 10, 5, 4, .busy) ∧
      after (exec .comp { s with ep := 10, deferV := true, deferLen := 5, deferPos := 4 })
        (fun t => (t.deferV, t.ep, t.status)) = some (false, 15, .done) := by decide

theorem witness_ValidParseExpandsToData :
    validFrom [0x41, 0x41, 0x41, 0x41] 0 [.lit 0x41, .ref 1 3] = true ∧ validFrom [] 0 [] = true := by decide

theorem witness_CompRunIsCompress :
    let s := accepted 3 [0x41]
    s.cfg.wf = true ∧ s.moves = [] ∧ s.status = .busy ∧ s.op = 3 ∧ s.started = false := by decide

/-- Z5's stream. -/
theorem witness_DecompressOfWellFormedStream :
    ([0x41, 0x41, 0x41, 0x41] : List Byte).length < 2 ^ 32 ∧
      WellFormedStream (hdr 4 ++ [0x80, 0x41, 0x10, 0x00]) [0x41, 0x41, 0x41, 0x41] ∧ fits (some 16) 4 = true :=
  ⟨by decide, ⟨by decide, [.lit 0x41, .ref 1 3], by decide, by decide⟩, by decide⟩

/-- Eight tokens fill a group, and a ninth opens another (Z15's shape). -/
theorem witness_EmitIsGroups :
    (List.replicate 8 (Item.lit 0x41)).length % 8 = 0 ∧
      emit (List.replicate 8 (.lit 0x41) ++ [.ref 1 3]) = 0xFF :: List.replicate 8 0x41 ++ [0x00, 0x10, 0x00] ∧
      ([.ref 1 3] : List Item).length ≤ 7 ∧ emit [.lit 0x41, .ref 1 3] = [0x80, 0x41, 0x10, 0x00] := by decide

/-- A match one too short to use, one that loses to a match longer by 2, and the carried one. -/
theorem witness_ReferenceChoice :
    let x : List Byte := [0x61, 0x62, 0x63, 0x5F, 0x62, 0x63, 0x64, 0x65, 0x66, 0x61, 0x62, 0x63, 0x64, 0x65, 0x66]
    let a : State := encoding x 4 4 16 (hdr 15)
    let b : State := { a with ep := 9 }
    let c : State := { a with ep := 10, deferV := true, deferLen := 5, deferPos := 4 }
    (a.cfg.chooser = .reference ∧ a.started = true ∧ a.ep.toNat < a.srcLen.toNat ∧ search a.input 4 = (2, 1)) ∧
      (b.deferV = false ∧ search b.input 9 = (3, 0) ∧ search b.input 10 = (5, 4)) ∧
      choose c.cfg.chooser c.input c.ep.toNat c.deferred = (.ref 6 5, none) := by
  decide

/-- COMP of one byte, done after two steps, and the state in which its output is to be decompressed. -/
theorem witness_RoundTripOnTheMachine :
    let s := accepted 3 [0x41]
    let v := accepted 2 (hdr 1 ++ [0x80, 0x41])
    (s.cfg.wf = true ∧ s.moves = [] ∧ s.status = .busy ∧ s.op = 3 ∧ s.started = false) ∧
      after (runFor 2 s) (fun u => (u.status, u.output u.dstLen.toNat)) = some (.done, v.input) ∧
      (v.moves = [] ∧ v.status = .busy ∧ v.op = 2 ∧ v.started = false ∧ v.fitsDst s.srcLen.toNat = true) := by decide

theorem witness_StreamSizeBound :
    validFrom [0x41, 0x42] 0 [.lit 0x41, .lit 0x42] = true ∧ (streamOf 2 [.lit 0x41, .lit 0x42]).length = 16 + 2 + 1 := by
  decide

theorem witness_CompressContract_CompressedStreamShape :
    ([0x41] : List Byte).length < 2 ^ 32 ∧ compress State.reset.cfg [0x41] = .ok (hdr 1 ++ [0x80, 0x41]) ∧
      compress State.reset.cfg [] = .ok (hdr 0) := by decide

/-! ## States that meet the statements' hypotheses: CRC16 and the whole machine -/

theorem witness_CrcStartLoadsSeed : (accepted 4 [0x01]).started = false := by decide

/-- A data byte, and the last virtual zero byte (K1's trace). -/
theorem witness_CrcByteStep :
    let a : State := { accepted 4 [0x01] with started := true, crc := 0x8000 }
    let b : State := { accepted 4 [] with started := true, crc := 0x0080, sp := 1 }
    (a.started = true ∧ a.crcIndex < a.srcLen.toNat) ∧ (b.crcIndex < b.srcLen.toNat + 2 ∧ ¬ b.crcIndex < b.srcLen.toNat) ∧
      after (exec .crc16 (accepted 4 [])) State.crcIndex = some 0 := by decide

/-- The longest input: `SP` passes its 32 bits before the second virtual zero byte, which completes (R28, R174). -/
theorem witness_CrcByteStep_longest :
    let s : State := { accepted 4 [] with started := true, srcLen := 0xFFFFFFFF, sp := 0xFFFFFFFF }
    s.crcIndex < s.srcLen.toNat + 2 ∧
      after (exec .crc16 s) (fun t => (t.sp, t.crcIndex, t.status)) = some (0, 0x100000000, .busy) ∧
      after (exec .crc16 { s with sp := 0, spCarry := true }) State.status = some .done := by decide

theorem witness_CrcRunIsCrc16 :
    let s := accepted 4 []
    s.moves = [] ∧ s.status = .busy ∧ s.op = 4 ∧ s.started = false := by decide

theorem witness_CrcIsAffine : ([1, 2] : List Byte).length = ([3, 4] : List Byte).length := by decide

/-- K7 and K16: the CRC of `02 06`. -/
theorem witness_CrcResidue : (0x5A6A : BitVec 16) = crc16 [0x02, 0x06] := by decide +kernel

theorem witness_FaultEntry_FaultReplacesTheStep :
    let s := decoding (hdr 3 ++ [0x00, 0x10, 0x00]) 16 0 0 [] 3
    s.moves = [] ∧ s.status = .busy ∧ after (step s) State.status = some .fault := by decide

/-- A reserved code, and a length above SRC_MAX. -/
theorem witness_FaultReplacesTheStep_acceptance :
    let s : State := { State.reset with cfg := { State.reset.cfg with srcMax := 4 }, srcLen := 5, moves := [.writeReg .cmd 2] }
    s.status ≠ .busy ∧ s.moves = .writeReg .cmd 2 :: [] ∧ after (step s) State.status = some .fault ∧
      after (exec (.reservedCmd 7) (loaded [])) (fun t => (t.status, t.op)) = some (.fault, 7) := by decide

/-- F1, F4, F9, F11 for DECOMP; DstOverflow for COMP. -/
theorem witness_WhichOperationRaisesWhat :
    (accepted 2 (hdr 1)).status = .busy ∧
      after (exec .decomp (accepted 2 [0])) State.fault = some .formatError ∧
      after (exec .decomp (decoding (hdr 4 ++ [0x80, 0x41, 0x10, 0x01]) 18 0 7 [0x41] 4)) State.fault =
        some .badDistance ∧
      after (exec .comp { encoding [0x41] 0 0 0 (hdr 1) with cfg := { State.reset.cfg with dstMax := some 16 } })
        State.fault = some .dstOverflow ∧
      after (exec .iscomp (accepted 1 [])) State.status = some .done ∧
      after (exec .crc16 (accepted 4 [])) State.status = some .busy := by decide

theorem witness_EngineNeverWritesSource :
    after (exec .decomp midDecomp) State.dp = some 2 ∧ after (exec .crc16 (accepted 4 [])) State.crc = some 0x8000 ∧
      after (exec (.reservedCmd 6) (loaded [])) State.status = some .fault := by decide

theorem witness_CompFrame :
    midComp.started = true ∧ midComp.dp.toNat + 4 < 2 ^ 33 ∧ after (exec .comp midComp) State.dp = some 20 ∧
      (accepted 3 []).started = false ∧ after (exec .comp (accepted 3 [])) State.dp = some 16 := by decide

/-- The same command on the same input, from states that differ in DST and the working registers. -/
theorem witness_ResultDependsOnInputOnly :
    let s := accepted 3 []
    let t : State := { accepted 3 [] with dst := cells 0 [1, 2, 3], sp := 7, crc := 9, ep := 5 }
    s ≠ t ∧ (s.moves = [] ∧ t.moves = [] ∧ s.status = .busy ∧ t.status = .busy ∧ s.started = false ∧ t.started = false) ∧
      s.op = t.op ∧ s.cfg = t.cfg ∧ s.srcLen = t.srcLen ∧ s.input = t.input ∧
      after (runFor 1 s) State.status = some .done := by decide

theorem witness_ResultDependsOnInputOnly_Inv :
    ({ accepted 3 [] with dst := cells 0 [1, 2, 3], sp := 7, crc := 9, ep := 5 } : State).Inv where
  cfg := by decide
  src := by decide
  dst := by decide
  faultCode := by decide
  noResult := by decide
  resultFits := by decide
  opLegal := by decide
  lengthLegal := by decide
  decomp := fun _ h => absurd h (by decide)
  comp := fun _ _ h => absurd h (by decide)
  crc := fun _ h => absurd h (by decide)

end Sys2Proof.Tests
end

/-! # Two engines side by side (R29)

Two runs of one command on one input go in lock step. `Alike` relates their states between engine steps: they share the
job, and of the working registers and DST what the operation has itself written. No step tells two such states apart. -/

namespace Sys2Proof.Machine

section SideBySide

/-! ## What the two engines share -/

/-- What an engine step reads besides the working registers and DST, and the registers that say where the command stands. -/
structure Job where
  cfg : Config
  status : Status
  fault : FaultCode
  op : BitVec 3
  srcLen : BitVec 32
  started : Bool
  moves : List HostMove
  input : List Byte

/-- The job of an engine in state `s`. -/
def State.job (s : State) : Job where
  cfg := s.cfg
  status := s.status
  fault := s.fault
  op := s.op
  srcLen := s.srcLen
  started := s.started
  moves := s.moves
  input := s.input

/-- The job of an engine that has taken the start step of `op`, with the host's later moves. -/
structure Job.Running (op : BitVec 3) (later : List HostMove) (j : Job) : Prop where
  status : j.status = .busy
  op : j.op = op
  started : j.started = true
  moves : j.moves = later

/-- DECOMP between its steps: the interpreter's registers and the output written so far. -/
structure DecompAlike (later : List HostMove) (s t : State) : Prop where
  job : s.job = t.job
  running : s.job.Running 2 later
  sp : s.sp = t.sp
  dp : s.dp = t.dp
  dsize : s.dsize = t.dsize
  ctl : s.ctl = t.ctl
  cnt : s.cnt = t.cnt
  dst : ∀ a, a < s.dp.toNat → s.dstByte a = t.dstByte a

/-- COMP between its steps: the encoder's registers, the deferred match, the stream written so far and the control byte of
the open group. -/
structure CompAlike (later : List HostMove) (s t : State) : Prop where
  job : s.job = t.job
  running : s.job.Running 3 later
  dp : s.dp = t.dp
  ep : s.ep = t.ep
  ctlpos : s.ctlpos = t.ctlpos
  nbits : s.nbits = t.nbits
  deferred : s.deferred = t.deferred
  dst : ∀ a, a < s.dp.toNat ∨ a = s.ctlpos.toNat → s.dstByte a = t.dstByte a

/-- CRC16 between its steps: the index and the remainder. -/
structure CrcAlike (later : List HostMove) (s t : State) : Prop where
  job : s.job = t.job
  running : s.job.Running 4 later
  sp : s.sp = t.sp
  spCarry : s.spCarry = t.spCarry
  crc : s.crc = t.crc

/-- Two runs that have ended alike: everything R29 calls the result. -/
structure EndAlike (later : List HostMove) (s t : State) : Prop where
  ended : s.Ended
  status : s.status = t.status
  fault : s.fault = t.fault
  dstLen : s.dstLen = t.dstLen
  result : s.result = t.result
  output : s.output s.dstLen.toNat = t.output s.dstLen.toNat
  movesLeft : s.moves = later
  movesRight : t.moves = later

/-- Two runs of one command on one input, at the same point. Before the start step, and for commands that use no working
register, the job alone counts. -/
inductive Alike (later : List HostMove) (s t : State) : Prop
  | job (hjob : s.job = t.job) (hbusy : s.status = .busy) (hmoves : s.moves = later)
      (hregs : s.started = true → s.op ≠ 2 ∧ s.op ≠ 3 ∧ s.op ≠ 4)
  | decomp (h : DecompAlike later s t)
  | comp (h : CompAlike later s t)
  | crc (h : CrcAlike later s t)
  | ended (h : EndAlike later s t)

variable {later : List HostMove} {s t u : State}

/-! ## What the job settles -/

theorem cfg_eq_of_job (h : s.job = t.job) : s.cfg = t.cfg := congrArg Job.cfg h

theorem inDst_eq_of_job (h : s.job = t.job) : s.inDst = t.inDst := State.inDst_congr (cfg_eq_of_job h)

theorem fitsDst_eq_of_job (h : s.job = t.job) : s.fitsDst = t.fitsDst := State.fitsDst_congr (cfg_eq_of_job h)

theorem srcLen_eq_of_job (h : s.job = t.job) : s.srcLen = t.srcLen := congrArg Job.srcLen h

theorem input_eq_of_job (h : s.job = t.job) : s.input = t.input := congrArg Job.input h

theorem fault_eq_of_job (h : s.job = t.job) : s.fault = t.fault := congrArg Job.fault h

theorem moves_eq_of_job (h : s.job = t.job) : s.moves = t.moves := congrArg Job.moves h

theorem window_eq_of_job (h : s.job = t.job) (a k : Nat) : s.window a k = t.window a k := by
  rw [State.window_eq, State.window_eq, input_eq_of_job h]

theorem srcByte_eq_of_job (h : s.job = t.job) {a : Nat} (ha : a < s.srcLen.toNat) : s.srcByte a = t.srcByte a := by
  rw [← s.input_getD ha 0, ← t.input_getD (srcLen_eq_of_job h ▸ ha) 0, input_eq_of_job h]

theorem hasMagic_eq_of_job (h : s.job = t.job) (h4 : 4 ≤ s.srcLen.toNat) : s.hasMagic = t.hasMagic := by
  rw [Bool.eq_iff_iff, State.hasMagic_iff h4, State.hasMagic_iff (srcLen_eq_of_job h ▸ h4), input_eq_of_job h]

theorem declaredSize_eq_of_job (h : s.job = t.job) (h16 : 16 ≤ s.srcLen.toNat) : s.declaredSize = t.declaredSize := by
  rw [State.declaredSize_eq h16, State.declaredSize_eq (srcLen_eq_of_job h ▸ h16), input_eq_of_job h]

/-- Engines that share their job share it past the start step. -/
theorem job_start (h : s.job = t.job) : ({ s.job with started := true } : Job) = { t.job with started := true } := by
  rw [h]

/-! ## Writing and ending alike -/

/-- The same byte stored in both engines extends the addresses at which their DST agrees. -/
theorem dstByte_storeDst_agree {P : Nat → Prop} {a : Nat} (v : Byte)
    (h : ∀ b, P b → b ≠ a → s.dstByte b = t.dstByte b) :
    ∀ b, P b → (s.storeDst a v).dstByte b = (t.storeDst a v).dstByte b := by
  intro b hb
  rw [State.dstByte_storeDst, State.dstByte_storeDst]
  split
  · rfl
  · next hne => exact h b hb hne

/-- Past a byte written at `DP`, `DP` goes up by one (or wraps to 0): the addresses below it were below it, or are it. -/
theorem lt_dp_of_lt_succ {d : BitVec 33} {b : Nat} (hb : b < (d + 1).toNat) (hne : b ≠ d.toNat) : b < d.toNat := by
  rw [BitVec.toNat_add] at hb
  have : (1 : BitVec 33).toNat = 1 := rfl
  omega

/-- Completion (R83) ends both runs alike where their output agrees. -/
theorem complete_alike (h : s.job = t.job) (hm : s.moves = later) {n : BitVec 33} {r : BitVec 16}
    (hout : ∀ a, a < n.toNat → s.dstByte a = t.dstByte a) : EndAlike later (s.complete n r) (t.complete n r) where
  ended := .inl rfl
  status := rfl
  fault := fault_eq_of_job (s := s) (t := t) h
  dstLen := rfl
  result := rfl
  output := State.output_congr hout
  movesLeft := hm
  movesRight := (moves_eq_of_job h).symm.trans hm

/-- Fault entry (R153) ends both runs alike. -/
theorem raise_alike (h : s.job = t.job) (hm : s.moves = later) (f : FaultCode) :
    EndAlike later (s.raise f) (t.raise f) where
  ended := .inr rfl
  status := rfl
  fault := rfl
  dstLen := rfl
  result := rfl
  output := rfl
  movesLeft := hm
  movesRight := (moves_eq_of_job h).symm.trans hm

/-! ## Rules that leave off alike -/

/-- Two rules that leave off alike: in states that `R` relates, or for the same reason. -/
inductive Matched (R : State → State → Prop) : Except Stop State → Except Stop State → Prop
  | ok {s t : State} (h : R s t) : Matched R (.ok s) (.ok t)
  | error (e : Stop) : Matched R (.error e) (.error e)

variable {R Q : State → State → Prop} {x y : Except Stop State}

theorem Matched.bind {f g : State → Except Stop State} (h : Matched R x y)
    (hf : ∀ {s t}, R s t → Matched Q (f s) (g t)) : Matched Q (x.bind f) (y.bind g) := by
  cases h with
  | ok h => exact hf h
  | error e => exact .error e

theorem Matched.map {f g : State → State} (h : Matched R x y) (hf : ∀ {s t}, R s t → Q (f s) (g t)) :
    Matched Q (x.map f) (y.map g) := by
  cases h with
  | ok h => exact .ok (hf h)
  | error e => exact .error e

theorem Matched.ite {c d : Prop} [Decidable c] [Decidable d] {x' y' : Except Stop State} (hcd : c ↔ d)
    (hpos : c → Matched R x y) (hneg : ¬c → Matched R x' y') :
    Matched R (if c then x else x') (if d then y else y') := by
  by_cases hc : c
  · rw [if_pos hc, if_pos (hcd.1 hc)]; exact hpos hc
  · rw [if_neg hc, if_neg (mt hcd.2 hc)]; exact hneg hc

/-- The end of a step: a raised fault ends both runs alike (R153). -/
theorem finish_alike (hjob : s.job = t.job) (hm : s.moves = later) (h : Matched (Alike later) x y)
    (hu : finish s x = .next u) : ∃ v, finish t y = .next v ∧ Alike later u v := by
  cases h with
  | ok h =>
    obtain rfl := Host.Outcome.next.inj hu
    exact ⟨_, rfl, h⟩
  | error e =>
    cases e with
    | raise f =>
      obtain rfl := Host.Outcome.next.inj hu
      exact ⟨_, rfl, .ended (raise_alike hjob hm f)⟩
    | halt f => cases hu

/-- A byte written to DST at an address and a value that the two engines share. -/
theorem writeDst_alike {a : Nat} {v : Byte} (h : s.job = t.job) (hR : R (s.storeDst a v) (t.storeDst a v)) :
    Matched R (writeDst a v s) (writeDst a v t) := by
  unfold writeDst
  rw [← inDst_eq_of_job h]
  split
  · exact .ok hR
  · exact .error _

/-! ## ISCOMP -/

theorem isCompStep_alike (h : s.job = t.job) (hm : s.moves = later) :
    EndAlike later (isCompStep s) (isCompStep t) := by
  have hanswer : (if 16 < s.srcLen.toNat then s.hasMagic else false) =
      if 16 < t.srcLen.toNat then t.hasMagic else false := by
    rw [← srcLen_eq_of_job h]
    split
    · exact hasMagic_eq_of_job h (by omega)
    · rfl
  unfold isCompStep
  rw [← hanswer]
  exact complete_alike h hm fun _ ha => absurd ha (Nat.not_lt_zero _)

/-! ## DECOMP -/

theorem DecompAlike.takeBit (h : DecompAlike later s t) : DecompAlike later s.takeBit t.takeBit :=
  { h with ctl := by simp [h.ctl], cnt := by simp [h.cnt] }

theorem DecompAlike.advanceSp (h : DecompAlike later s t) (k : BitVec 32) :
    DecompAlike later (s.advanceSp k) (t.advanceSp k) :=
  { h with sp := by simp [h.sp] }

/-- The stop rule's test (R91): DECOMP goes on, or both runs end with the bytes written so far. -/
theorem stopIfFull_alike (h : DecompAlike later s t) : Alike later (stopIfFull s) (stopIfFull t) := by
  unfold stopIfFull
  rw [← h.dp, ← h.dsize]
  split
  · next hfull =>
    refine .ended (complete_alike h.job h.running.moves fun a ha => h.dst a ?_)
    rwa [BitVec.toNat_setWidth, Nat.mod_eq_of_lt (by have := s.dsize.isLt; omega), ← hfull] at ha
  · exact .decomp h

/-- The fetch test (R92, R147) fails in both engines or in neither. -/
theorem needBytes_alike (k : Nat) (h : DecompAlike later s t) :
    Matched (fun u w => u = s ∧ w = t) (needBytes k s) (needBytes k t) := by
  unfold needBytes
  rw [← h.sp, ← srcLen_eq_of_job h.job]
  split
  · exact .ok ⟨rfl, rfl⟩
  · exact .error _

theorem appendDst_alike (v : Byte) (h : DecompAlike later s t) :
    Matched (fun u w => DecompAlike later u w ∧ u.dp = s.dp + 1 ∧ u.dsize = s.dsize) (appendDst v s) (appendDst v t) := by
  unfold appendDst
  rw [← h.dp]
  refine Matched.map (R := fun u w => u = s.storeDst s.dp.toNat v ∧ w = t.storeDst s.dp.toNat v)
    (writeDst_alike h.job ⟨rfl, rfl⟩) ?_
  rintro _ _ ⟨rfl, rfl⟩
  refine ⟨{ h with dp := ?_, dst := ?_ }, rfl, rfl⟩
  · simp [h.dp]
  · exact dstByte_storeDst_agree v fun b hb hne => h.dst b (lt_dp_of_lt_succ hb hne)

/-- The copy back reads only what has been written (R97). -/
theorem copyBack_alike {dist : Nat} (hd : 1 ≤ dist) (len : Nat) (h : DecompAlike later s t)
    (hback : dist ≤ s.dp.toNat) (hroom : s.dp.toNat ≤ s.dsize.toNat) :
    Matched (DecompAlike later) (copyBack dist len s) (copyBack dist len t) := by
  induction len generalizing s t with
  | zero => exact .ok h
  | succ len ih =>
    unfold copyBack
    rw [← h.dp, ← h.dsize, ← h.dst _ (by omega)]
    split
    · exact .ok h
    · next hne =>
      have hlt := s.dsize.isLt
      have hsucc : (s.dp + 1).toNat = s.dp.toNat + 1 := State.dp_succ (by omega)
      refine (appendDst_alike _ h).bind fun ⟨hu, hdp, hdsize⟩ => ih hu ?_ ?_
      · rw [hdp, hsucc]; omega
      · rw [hdp, hsucc, hdsize]; omega

theorem copyChecked_alike {dist : Nat} (hd : 1 ≤ dist) (len : Nat) (h : DecompAlike later s t)
    (hroom : s.dp.toNat ≤ s.dsize.toNat) :
    Matched (DecompAlike later) (copyChecked dist len s) (copyChecked dist len t) := by
  unfold copyChecked
  rw [← h.dp]
  split
  · exact .error _
  · next hback => exact copyBack_alike hd len h (Nat.not_lt.1 hback) hroom

theorem tokenEffect_alike (i : Instr) (h : DecompAlike later s t) (hroom : s.dp.toNat ≤ s.dsize.toNat) :
    Matched (Alike later) (tokenEffect i s) (tokenEffect i t) := by
  cases i with
  | lit d =>
    refine Matched.map (R := fun u w => DecompAlike later u w ∧ u.dp = s.dp + 1 ∧ u.dsize = s.dsize)
      (Matched.bind (needBytes_alike 1 h.takeBit) ?_) fun hu => stopIfFull_alike hu.1
    rintro _ _ ⟨rfl, rfl⟩
    exact appendDst_alike d (h.takeBit.advanceSp 1)
  | ref n b l =>
    refine Matched.map (Matched.bind (needBytes_alike 2 h.takeBit) ?_) stopIfFull_alike
    rintro _ _ ⟨rfl, rfl⟩
    exact copyChecked_alike (distance_pos b l) _ (h.takeBit.advanceSp 2) hroom
  | refx b l c =>
    refine Matched.map (Matched.bind (needBytes_alike 2 h.takeBit) ?_) stopIfFull_alike
    rintro _ _ ⟨rfl, rfl⟩
    refine Matched.bind (needBytes_alike 1 (h.takeBit.advanceSp 2)) ?_
    rintro _ _ ⟨rfl, rfl⟩
    exact copyChecked_alike (distance_pos b l) _ ((h.takeBit.advanceSp 2).advanceSp 1) hroom
  | _ => exact .error _

/-- The control byte's fetch (R92) reads the input alone and leaves `DP` and `DSIZE`. -/
theorem controlFetch_alike (h : DecompAlike later s t) :
    Matched (fun u w => DecompAlike later u w ∧ u.dp = s.dp ∧ u.dsize = s.dsize) (controlFetch s) (controlFetch t) := by
  unfold controlFetch
  rw [← h.cnt, ← h.sp, ← window_eq_of_job h.job]
  split
  · split
    · next hdue _ k _ _ =>
      unfold controlByte
      rw [if_pos hdue, if_pos (h.cnt ▸ hdue)]
      refine Matched.map (needBytes_alike 1 h) ?_
      rintro _ _ ⟨rfl, rfl⟩
      exact ⟨{ h with sp := by simp [h.sp], ctl := rfl, cnt := rfl }, rfl, rfl⟩
    · exact .error _
  · exact .ok ⟨h, rfl, rfl⟩

theorem fetchToken_eq (h : DecompAlike later s t) : fetchToken s = fetchToken t := by
  unfold fetchToken
  rw [h.ctl, h.sp, window_eq_of_job h.job]

theorem decompStep_alike (h : DecompAlike later s t) : Matched (Alike later) (decompStep s) (decompStep t) := by
  unfold decompStep
  rw [← h.dp, ← h.dsize]
  split
  · next hroom =>
    refine (controlFetch_alike h).bind fun {u w} ⟨hu, hdp, hdsize⟩ => ?_
    rw [← fetchToken_eq hu]
    cases fetchToken u with
    | error e => exact .error e
    | ok i => exact tokenEffect_alike i hu (by rw [hdp, hdsize]; omega)
  · exact .error _

/-- The start step (R90) reads the header alone and sets every register the interpreter reads. -/
theorem decompStart_alike (h : s.job = t.job) (hbusy : s.status = .busy) (hop : s.op = 2) (hm : s.moves = later) :
    Matched (Alike later) (decompStart s) (decompStart t) := by
  have hlen := srcLen_eq_of_job h
  have hformat : (s.srcLen.toNat < 4 ∨ s.hasMagic = false) ↔ (t.srcLen.toNat < 4 ∨ t.hasMagic = false) := by
    rw [← hlen]
    by_cases h4 : s.srcLen.toNat < 4
    · simp [h4]
    · rw [hasMagic_eq_of_job h (Nat.not_lt.1 h4)]
  unfold decompStart
  refine .ite hformat (fun _ => .error _) fun _ => .ite (by rw [hlen]) (fun _ => .error _) fun h16 => ?_
  have hsize := declaredSize_eq_of_job h (Nat.not_lt.1 h16)
  refine .ite (by rw [hsize, fitsDst_eq_of_job h]) (fun _ => .error _) fun _ => .ok (stopIfFull_alike ?_)
  exact { job := job_start h, running := ⟨hbusy, hop, rfl, hm⟩, sp := rfl, dp := rfl, dsize := hsize, ctl := rfl,
          cnt := rfl, dst := fun _ ha => absurd ha (Nat.not_lt_zero _) }

/-! ## COMP -/

theorem putByte_alike {v : Byte} (h : s.job = t.job) (hdp : s.dp = t.dp)
    (hR : R { s.storeDst s.dp.toNat v with dp := s.dp + 1 } { t.storeDst t.dp.toNat v with dp := t.dp + 1 }) :
    Matched R (putByte v s) (putByte v t) :=
  .ite (by rw [inDst_eq_of_job h, hdp]) (fun _ => .ok hR) fun _ => .error _

theorem CompAlike.put (v : Byte) (h : CompAlike later s t) : Matched (CompAlike later) (putByte v s) (putByte v t) := by
  refine putByte_alike h.job h.dp { h with dp := by simp [h.dp], dst := ?_ }
  rw [← h.dp]
  exact dstByte_storeDst_agree v fun b hb hne => h.dst b (hb.imp_left fun hlt => lt_dp_of_lt_succ hlt hne)

theorem putBytes_alike (vs : List Byte) (h : CompAlike later s t) :
    Matched (CompAlike later) (putBytes vs s) (putBytes vs t) := by
  induction vs generalizing s t with
  | nil => exact .ok h
  | cons v vs ih => exact (h.put v).bind ih

/-- A new group's control byte (R121) is written before anything reads it. -/
theorem openGroup_alike (h : CompAlike later s t) : Matched (CompAlike later) (openGroup s) (openGroup t) := by
  refine .ite (by rw [h.nbits]) (fun _ => putByte_alike h.job h.dp ?_) fun _ => .ok h
  refine { h with ctlpos := h.dp, dp := by simp [h.dp], dst := ?_ }
  rw [← h.dp]
  exact dstByte_storeDst_agree 0 fun b hb hne => h.dst b (.inl (lt_dp_of_lt_succ (hb.resolve_right hne) hne))

/-- The literal's bit (R121): the control byte is read and written back. -/
theorem setLiteralBit_alike (h : CompAlike later s t) :
    Matched (CompAlike later) (setLiteralBit s) (setLiteralBit t) := by
  unfold setLiteralBit
  rw [← h.ctlpos, ← h.nbits, ← h.dst _ (.inr rfl)]
  exact writeDst_alike h.job { h with dst := dstByte_storeDst_agree _ fun b hb _ => h.dst b hb }

theorem CompAlike.closeToken (k : Nat) (h : CompAlike later s t) :
    CompAlike later (s.closeToken k) (t.closeToken k) :=
  { h with ep := by simp [h.ep], nbits := by simp [h.nbits] }

theorem emitItem_alike (it : Item) (h : CompAlike later s t) :
    Matched (CompAlike later) (emitItem it s) (emitItem it t) := by
  cases it with
  | lit b =>
    exact (openGroup_alike h).bind fun h => (setLiteralBit_alike h).bind fun h =>
      (h.put b).map fun h => h.closeToken 1
  | ref d l => exact (openGroup_alike h).bind fun h => (putBytes_alike _ h).map fun h => h.closeToken l

theorem CompAlike.setDeferred (d : Option (Nat × Nat)) (h : CompAlike later s t) :
    CompAlike later (s.setDeferred d) (t.setDeferred d) := by
  cases d with
  | none => exact { h with deferred := rfl }
  | some m => exact { h with deferred := rfl }

theorem compStep_alike (h : CompAlike later s t) : Matched (Alike later) (compStep s) (compStep t) := by
  refine .ite (by rw [h.ep, srcLen_eq_of_job h.job]) (fun _ => ?_) fun _ => .error _
  rw [← cfg_eq_of_job h.job, ← input_eq_of_job h.job, ← h.ep, ← h.deferred]
  refine (emitItem_alike _ (h.setDeferred _)).map fun {u w} hu => ?_
  rw [← hu.ep, ← srcLen_eq_of_job hu.job, ← hu.dp]
  split
  · exact .ended (complete_alike hu.job hu.running.moves fun a ha => hu.dst a (.inl ha))
  · exact .comp hu

/-- The header's bytes (R110), whatever DST held. -/
theorem writeDstList_alike {j : Job} (vs : List Byte) {a : Nat} (hs : s.job = j) (ht : t.job = j)
    (hdst : ∀ b, b < a → s.dstByte b = t.dstByte b) :
    Matched (fun u w => u.job = j ∧ w.job = j ∧ ∀ b, b < a + vs.length → u.dstByte b = w.dstByte b)
      (writeDstList a vs s) (writeDstList a vs t) := by
  induction vs generalizing s t a with
  | nil => exact .ok ⟨hs, ht, hdst⟩
  | cons v vs ih =>
    refine Matched.bind (R := fun u w => u = s.storeDst a v ∧ w = t.storeDst a v)
      (writeDst_alike (hs.trans ht.symm) ⟨rfl, rfl⟩) ?_
    rintro _ _ ⟨rfl, rfl⟩
    rw [List.length_cons, Nat.add_comm vs.length, ← Nat.add_assoc]
    exact ih hs ht (dstByte_storeDst_agree v fun b hb hne => hdst b (by omega))

/-- The start step (R110) sets every register the encoder reads. -/
theorem compStart_alike (h : s.job = t.job) (hbusy : s.status = .busy) (hop : s.op = 3) (hm : s.moves = later) :
    Matched (Alike later) (compStart s) (compStart t) := by
  unfold compStart
  rw [← srcLen_eq_of_job h]
  refine (writeDstList_alike (header s.srcLen) (a := 0) rfl h.symm (by simp)).map fun {u w} ⟨hu, hw, hdst⟩ => ?_
  have hjob : u.job = w.job := hu.trans hw.symm
  have hstart : CompAlike later
      { u with dp := 16, ep := 0, nbits := 0, ctlpos := 0, deferV := false, started := true }
      { w with dp := 16, ep := 0, nbits := 0, ctlpos := 0, deferV := false, started := true } :=
    { job := job_start hjob
      running := ⟨(congrArg Job.status hu).trans hbusy, (congrArg Job.op hu).trans hop, rfl,
        (congrArg Job.moves hu).trans hm⟩
      dp := rfl, ep := rfl, ctlpos := rfl, nbits := rfl, deferred := rfl
      dst := fun b hb => hdst b (by simpa using hb.elim id fun h0 => by simp [h0]) }
  by_cases hempty : u.srcLen = 0
  · rw [if_pos hempty, if_pos ((srcLen_eq_of_job hjob).symm.trans hempty)]
    exact .ended (complete_alike hstart.job hstart.running.moves fun b hb => hstart.dst b (.inl hb))
  · rw [if_neg hempty, if_neg (srcLen_eq_of_job hjob ▸ hempty)]
    exact .comp hstart

/-! ## CRC16 -/

theorem crcStart_alike (h : s.job = t.job) (hbusy : s.status = .busy) (hop : s.op = 4) (hm : s.moves = later) :
    CrcAlike later (crcStart s) (crcStart t) where
  job := job_start h
  running := ⟨hbusy, hop, rfl, hm⟩
  sp := rfl
  spCarry := rfl
  crc := rfl

theorem crcStep_alike (h : CrcAlike later s t) : Matched (Alike later) (crcStep s) (crcStep t) := by
  have hindex : s.crcIndex = t.crcIndex := State.crcIndex_congr h.sp h.spCarry
  have hbyte : s.crcInput = t.crcInput := by
    unfold State.crcInput
    rw [← hindex, ← srcLen_eq_of_job h.job]
    split
    · next hlt => exact srcByte_eq_of_job h.job hlt
    · rfl
  by_cases hlt : s.crcIndex < s.srcLen.toNat + 2
  · rw [crcStep_eq s hlt, crcStep_eq t (by rwa [← hindex, ← srcLen_eq_of_job h.job]), ← hindex,
      ← srcLen_eq_of_job h.job, ← hbyte, ← h.crc]
    have hnext : CrcAlike later { s.advanceCrc with crc := crcByte s.crc s.crcInput }
        { t.advanceCrc with crc := crcByte s.crc s.crcInput } :=
      { h with sp := by simp [h.sp], spCarry := by simp [h.sp, h.spCarry], crc := rfl }
    split
    · exact .ok (.ended (complete_alike hnext.job hnext.running.moves fun _ ha => absurd ha (Nat.not_lt_zero _)))
    · exact .ok (.crc hnext)
  · rw [crcStep_stuck s (Nat.not_lt.1 hlt),
      crcStep_stuck t (by rw [← hindex, ← srcLen_eq_of_job h.job]; exact Nat.not_lt.1 hlt)]
    exact .error _

/-! ## One engine step, and a run -/

theorem exec_op_iscomp (h : s.op = 1) : exec (decodeCommand s.op) s = .next (isCompStep s) := by rw [h]; rfl

theorem exec_op_decomp (h : s.op = 2) :
    exec (decodeCommand s.op) s = finish s (if s.started then decompStep s else decompStart s) := by rw [h]; rfl

theorem exec_op_comp (h : s.op = 3) :
    exec (decodeCommand s.op) s = finish s (if s.started then compStep s else compStart s) := by rw [h]; rfl

theorem exec_op_crc16 (h : s.op = 4) :
    exec (decodeCommand s.op) s = finish s (if s.started then crcStep s else .ok (crcStart s)) := by rw [h]; rfl

/-- A BUSY engine with a reserved code, which no run reaches, stays as it is (log 25). -/
theorem exec_op_reserved (h : ¬ (s.op = 1 ∨ s.op = 2 ∨ s.op = 3 ∨ s.op = 4)) (hbusy : s.status = .busy) :
    exec (decodeCommand s.op) s = .next s := by
  rw [(decodeCommand_reserved_iff s.op).2 h]
  simp [exec, execReservedCmd, hbusy]

theorem Alike.status_eq (h : Alike later s t) : s.status = t.status := by
  cases h with
  | job h => exact congrArg Job.status h
  | decomp h => exact congrArg Job.status h.job
  | comp h => exact congrArg Job.status h.job
  | crc h => exact congrArg Job.status h.job
  | ended h => exact h.status

theorem Alike.moves_eq (h : Alike later s t) : s.moves = later ∧ t.moves = later := by
  cases h with
  | job h _ hm => exact ⟨hm, moves_eq_of_job h ▸ hm⟩
  | decomp h => exact ⟨h.running.moves, moves_eq_of_job h.job ▸ h.running.moves⟩
  | comp h => exact ⟨h.running.moves, moves_eq_of_job h.job ▸ h.running.moves⟩
  | crc h => exact ⟨h.running.moves, moves_eq_of_job h.job ▸ h.running.moves⟩
  | ended h => exact ⟨h.movesLeft, h.movesRight⟩

theorem Alike.busy_or_end (h : Alike later s t) : s.status = .busy ∨ EndAlike later s t := by
  cases h with
  | job _ hbusy => exact .inl hbusy
  | decomp h => exact .inl h.running.status
  | comp h => exact .inl h.running.status
  | crc h => exact .inl h.running.status
  | ended h => exact .inr h

theorem Job.Running.both {op : BitVec 3} (h : s.job.Running op later) (hjob : s.job = t.job) :
    (s.op = op ∧ s.started = true) ∧ t.op = op ∧ t.started = true :=
  ⟨⟨h.op, h.started⟩, (hjob ▸ h).op, (hjob ▸ h).started⟩

theorem State.Ended.not_busy (h : s.Ended) : s.status ≠ .busy := by
  rcases h with h | h <;> simp [h]

/-- A BUSY engine is alike itself, whatever its state: what holds of two engines in lock step holds of one. -/
theorem alike_self (hbusy : s.status = .busy) : Alike s.moves s s := by
  by_cases hstarted : s.started = true
  · by_cases h2 : s.op = 2
    · exact .decomp ⟨rfl, ⟨hbusy, h2, hstarted, rfl⟩, rfl, rfl, rfl, rfl, rfl, fun _ _ => rfl⟩
    · by_cases h3 : s.op = 3
      · exact .comp ⟨rfl, ⟨hbusy, h3, hstarted, rfl⟩, rfl, rfl, rfl, rfl, rfl, fun _ _ => rfl⟩
      · by_cases h4 : s.op = 4
        · exact .crc ⟨rfl, ⟨hbusy, h4, hstarted, rfl⟩, rfl, rfl, rfl⟩
        · exact .job rfl hbusy rfl fun _ => ⟨h2, h3, h4⟩
  · exact .job rfl hbusy rfl fun h => absurd h hstarted

/-- The first step of a command, where the working registers may hold anything. -/
theorem exec_alike_of_job (hjob : s.job = t.job) (hbusy : s.status = .busy) (hm : s.moves = later)
    (hregs : s.started = true → s.op ≠ 2 ∧ s.op ≠ 3 ∧ s.op ≠ 4) (hu : exec (decodeCommand s.op) s = .next u) :
    ∃ v, exec (decodeCommand t.op) t = .next v ∧ Alike later u v := by
  have hop : t.op = s.op := (congrArg Job.op hjob).symm
  have hstarted : t.started = s.started := (congrArg Job.started hjob).symm
  by_cases hlegal : s.op = 1 ∨ s.op = 2 ∨ s.op = 3 ∨ s.op = 4
  · obtain h1 | h2 | h3 | h4 := hlegal
    · rw [exec_op_iscomp h1] at hu
      obtain rfl := Host.Outcome.next.inj hu
      exact ⟨_, exec_op_iscomp (hop.trans h1), .ended (isCompStep_alike hjob hm)⟩
    · have hfresh : ¬ s.started = true := fun h => (hregs h).1 h2
      rw [exec_op_decomp h2, if_neg hfresh] at hu
      rw [exec_op_decomp (hop.trans h2), hstarted, if_neg hfresh]
      exact finish_alike hjob hm (decompStart_alike hjob hbusy h2 hm) hu
    · have hfresh : ¬ s.started = true := fun h => (hregs h).2.1 h3
      rw [exec_op_comp h3, if_neg hfresh] at hu
      rw [exec_op_comp (hop.trans h3), hstarted, if_neg hfresh]
      exact finish_alike hjob hm (compStart_alike hjob hbusy h3 hm) hu
    · have hfresh : ¬ s.started = true := fun h => (hregs h).2.2 h4
      rw [exec_op_crc16 h4, if_neg hfresh] at hu
      rw [exec_op_crc16 (hop.trans h4), hstarted, if_neg hfresh]
      exact finish_alike hjob hm (.ok (.crc (crcStart_alike hjob hbusy h4 hm))) hu
  · rw [exec_op_reserved hlegal hbusy] at hu
    obtain rfl := Host.Outcome.next.inj hu
    exact ⟨t, exec_op_reserved (hop ▸ hlegal) ((congrArg Job.status hjob).symm.trans hbusy), .job hjob hbusy hm hregs⟩

/-- An engine step does not tell the two engines apart. -/
theorem engineStep_alike (h : Alike later s t) (hu : engineStep s = .next u) :
    ∃ v, engineStep t = .next v ∧ Alike later u v := by
  unfold engineStep at hu ⊢
  rw [← h.status_eq]
  split at hu
  · next hbusy =>
    rw [if_pos hbusy]
    cases h with
    | job hjob _ hm hregs => exact exec_alike_of_job hjob hbusy hm hregs hu
    | decomp h =>
      obtain ⟨⟨hop, hstarted⟩, hop', hstarted'⟩ := h.running.both h.job
      rw [exec_op_decomp hop, if_pos hstarted] at hu
      rw [exec_op_decomp hop', if_pos hstarted']
      exact finish_alike h.job h.running.moves (decompStep_alike h) hu
    | comp h =>
      obtain ⟨⟨hop, hstarted⟩, hop', hstarted'⟩ := h.running.both h.job
      rw [exec_op_comp hop, if_pos hstarted] at hu
      rw [exec_op_comp hop', if_pos hstarted']
      exact finish_alike h.job h.running.moves (compStep_alike h) hu
    | crc h =>
      obtain ⟨⟨hop, hstarted⟩, hop', hstarted'⟩ := h.running.both h.job
      rw [exec_op_crc16 hop, if_pos hstarted] at hu
      rw [exec_op_crc16 hop', if_pos hstarted']
      exact finish_alike h.job h.running.moves (crcStep_alike h) hu
    | ended h => exact absurd hbusy h.ended.not_busy
  · next hidle =>
    obtain rfl := Host.Outcome.next.inj hu
    rw [if_neg hidle]
    exact ⟨t, rfl, h⟩

/-- Two engines that are alike run in lock step. -/
theorem runFor_alike (k : Nat) (h : Alike [] s t) (hu : runFor k s = .next u) :
    ∃ v, runFor k t = .next v ∧ Alike [] u v := by
  induction k generalizing s t with
  | zero =>
    obtain rfl := Host.Outcome.next.inj hu
    exact ⟨t, rfl, h⟩
  | succ k ih =>
    cases hs : step s with
    | next s' =>
      rw [step_nil h.moves_eq.1] at hs
      obtain ⟨t', ht, h'⟩ := engineStep_alike h hs
      rw [runFor_of_step ((step_nil h.moves_eq.1).trans hs)] at hu
      rw [runFor_of_step ((step_nil h.moves_eq.2).trans ht)]
      exact ih h' hu
    | fault r => rw [runFor_succ, hs] at hu; cases hu
    | refused r => rw [runFor_succ, hs] at hu; cases hu

end SideBySide

/-- Settles O59: before the start step the two engines share their job, so they run in lock step and end alike. -/
theorem resultDependsOnInputOnly : Obligations.ResultDependsOnInputOnly := by
  unfold Obligations.ResultDependsOnInputOnly
  intro s t hs ht hms hmt hbs hbt hfs hft hop hcfg hlen hin k u hu hended
  have hfault : s.fault = .none ∧ t.fault = .none := by
    constructor
    · simpa [hbs] using hs.faultCode
    · simpa [hbt] using ht.faultCode
  have hjob : s.job = t.job := by
    simp only [State.job, hcfg, hbs, hbt, hfault, hop, hlen, hfs, hft, hms, hmt, hin]
  obtain ⟨v, hv, halike⟩ := runFor_alike k (.job hjob hbs hms (by simp [hfs])) hu
  obtain hbusy | hend := halike.busy_or_end
  · exact absurd hbusy hended.not_busy
  · exact ⟨k, v, hv, hend.status.symm, hend.fault.symm, hend.dstLen.symm, hend.result.symm,
      by rw [← hend.dstLen, hend.output]⟩

/-! # The transitions of STATUS (R20) -/

/-- The engine's turn: a BUSY engine goes on, completes or faults; any other stays as it is. Each stage that a step can
lead to is BUSY or an end. -/
theorem engineStep_status {s t : State} (h : engineStep s = .next t) :
    if s.status = .busy then t.status ≠ .idle else t.status = s.status := by
  split
  · next hbusy =>
    obtain ⟨v, -, halike⟩ := engineStep_alike (alike_self hbusy) h
    obtain hb | hend := halike.busy_or_end
    · simp [hb]
    · rcases hend.ended with hd | hf
      · simp [hd]
      · simp [hf]
  · next hidle =>
    unfold engineStep at h
    rw [if_neg hidle] at h
    exact congrArg State.status (Host.Outcome.next.inj h).symm

/-- A write of `CMD` (R80, R81): ignored while BUSY, otherwise a fault or BUSY. -/
theorem acceptCommand_status (c : BitVec 3) (s : State) :
    (s.status = .busy → (acceptCommand c s).status = .busy) ∧
      (s.status ≠ .busy → (acceptCommand c s).status =
        if decodeCommand c = .reservedCmd c ∨ s.cfg.srcMax < s.srcLen.toNat then .fault else .busy) := by
  refine ⟨fun hbusy => by rw [acceptCommand_busy hbusy, hbusy], fun hidle => ?_⟩
  obtain ⟨hc, ht⟩ | ⟨-, hl, ht⟩ | ⟨hc, hl, ht⟩ := acceptCommand_cases (c := c) hidle
  · rw [ht, if_pos (.inl ((decodeCommand_reserved_iff c).2 hc))]; rfl
  · rw [ht, if_pos (.inr hl)]; rfl
  · rw [ht, if_neg (not_or.2 ⟨fun h => (decodeCommand_reserved_iff c).1 h hc, Nat.not_lt.2 hl⟩)]

/-- Every other move of the host but a reset leaves STATUS. -/
theorem step_status_of_other_move {s t : State} {m : HostMove} {later : List HostMove} (hm : s.moves = m :: later)
    (htick : m ≠ .tick) (hreset : m ≠ .reset) (hcmd : ∀ v, m ≠ .writeReg .cmd v) (h : step s = .next t) :
    t.status = s.status := by
  rw [step_move hm htick] at h
  rw [(hostMove_frame hreset hcmd h).1]

/-- Settles O11, by the host's next move or the engine's turn. -/
theorem statusTransitions : Obligations.StatusTransitions := by
  unfold Obligations.StatusTransitions
  intro s t h
  cases hm : s.moves with
  | nil => rw [step_nil hm] at h; exact engineStep_status h
  | cons m later =>
    cases m with
    | tick => rw [step_tick hm] at h; exact engineStep_status (s := { s with moves := later }) h
    | reset =>
      rw [step_move hm (by simp)] at h
      obtain rfl := Host.Outcome.next.inj h
      rfl
    | writeReg r v =>
      cases r with
      | cmd =>
        rw [step_move hm (by simp)] at h
        obtain rfl := Host.Outcome.next.inj ((hostWriteReg_cmd v _).symm.trans h)
        exact acceptCommand_status (v.setWidth 3) { s with moves := later }
      | _ => exact step_status_of_other_move hm (by simp) (by simp) (by simp) h
    | _ => exact step_status_of_other_move hm (by simp) (by simp) (by simp) h

end Sys2Proof.Machine

/-! # The encoding of tokens and commands (30_encoding)

A token's form from its control bit and first byte (R59 to R61, R64), the operands of a back-reference in both directions
(R62, R63), and the reserved command codes (R72, R150). -/

namespace Sys2Proof.Machine

/-! ## The nibbles of a back-reference's first byte -/

theorem highNibble_toNat (a : Byte) : (highNibble a).toNat = a.toNat >>> 4 := by
  have := a.isLt
  simp only [highNibble, BitVec.extractLsb'_toNat, Nat.shiftRight_eq_div_pow]
  omega

theorem lowNibble_toNat (a : Byte) : (lowNibble a).toNat = a.toNat &&& 0xF := by
  rw [Nat.and_two_pow_sub_one_eq_mod a.toNat 4]
  simp [lowNibble]

/-- Two nibbles given as numbers, as one byte. -/
theorem ofNat_append_ofNat_nibble {n h : Nat} (hh : h < 16) :
    BitVec.ofNat 4 n ++ BitVec.ofNat 4 h = BitVec.ofNat 8 (n * 16 + h) := by
  apply BitVec.eq_of_toNat_eq
  rw [BitVec.toNat_append, ← Nat.shiftLeft_add_eq_or_of_lt (BitVec.isLt _), Nat.shiftLeft_eq]
  simp only [BitVec.toNat_ofNat]
  omega

theorem zero_append_ofNat_nibble {h : Nat} (hh : h < 16) : (0 : BitVec 4) ++ BitVec.ofNat 4 h = BitVec.ofNat 8 h := by
  simpa using ofNat_append_ofNat_nibble (n := 0) hh

/-! ## The two forms of a back-reference (R60, R61, R64) -/

theorem decodeReference_short {a : Byte} (ha : highNibble a ≠ 0) (b : Byte) (rest : List Byte) :
    decodeReference (a :: b :: rest) = .ok (.ref (highNibble a) (lowNibble a) b, rest) := if_neg ha

theorem decodeReference_long {a : Byte} (ha : highNibble a = 0) (b c : Byte) (rest : List Byte) :
    decodeReference (a :: b :: c :: rest) = .ok (.refx (lowNibble a) b c, rest) := if_pos ha

/-- The bytes of a short back-reference read back as its fields (R60). -/
theorem decodeToken_append_short {n : BitVec 4} (hn : n ≠ 0) (h : BitVec 4) (l : Byte) :
    decodeToken false [n ++ h, l] = .ok (.ref n h l, []) := by
  have hnibble := highNibble_append n h
  have hdecode := decodeReference_short (a := n ++ h) (by rwa [hnibble]) l []
  rwa [hnibble, lowNibble_append] at hdecode

/-- The bytes of a long back-reference read back as its fields (R61). -/
theorem decodeToken_append_long (h : BitVec 4) (l c : Byte) :
    decodeToken false [(0 : BitVec 4) ++ h, l, c] = .ok (.refx h l c, []) := by
  have hdecode := decodeReference_long (highNibble_append 0 h) l c []
  rwa [lowNibble_append] at hdecode

/-- Settles O4, by the control bit and then the high nibble. -/
theorem tokenFormByControlBitAndNibble : Obligations.TokenFormByControlBitAndNibble := by
  unfold Obligations.TokenFormByControlBitAndNibble
  intro a b c rest
  exact ⟨rfl, fun hhigh => decodeReference_short hhigh b rest, fun hlow => decodeReference_long hlow b c rest⟩

/-! ## Distances and lengths as fields (R62, R63) -/

/-- The spec's expression for the distance, in the bytes A and B. -/
theorem distance_lowNibble (a b : Byte) : distance (lowNibble a) b = (((a.toNat &&& 0xF) <<< 8) ||| b.toNat) + 1 := by
  rw [distance, BitVec.toNat_append, lowNibble_toNat]

/-- The fields of a distance assemble to it (R62, encoding direction). -/
theorem distance_fields {d : Nat} (hpos : 1 ≤ d) (hmax : d ≤ 4096) :
    distance (BitVec.ofNat 4 ((d - 1) / 256)) (BitVec.ofNat 8 ((d - 1) % 256)) = d := by
  simp only [distance_eq, BitVec.toNat_ofNat]
  omega

/-- The length nibble of a short back-reference: never 0, and it says the length (R63, encoding direction). -/
theorem shortLength_field {l : Nat} (hmin : 3 ≤ l) (hmax : l ≤ 17) :
    BitVec.ofNat 4 (l - 2) ≠ 0 ∧ shortLength (BitVec.ofNat 4 (l - 2)) = l := by
  have htoNat : (BitVec.ofNat 4 (l - 2)).toNat = l - 2 := by rw [BitVec.toNat_ofNat]; omega
  refine ⟨fun hzero => ?_, by rw [shortLength, htoNat]; omega⟩
  have : l - 2 = 0 := by simpa [hzero] using htoNat.symm
  omega

/-- The length byte of a long back-reference says the length (R63, encoding direction). -/
theorem longLength_field {l : Nat} (hmin : 18 ≤ l) (hmax : l ≤ 273) : longLength (BitVec.ofNat 8 (l - 18)) = l := by
  rw [longLength, BitVec.toNat_ofNat]
  omega

/-! ## The bytes of a back-reference (R62, R63, R114) -/

/-- The encoding with the distance split by quotient and remainder, as `omega` reads it. -/
theorem referenceInstr_eq (d l : Nat) :
    referenceInstr d l =
      if l ≤ 17 then .ref (BitVec.ofNat 4 (l - 2)) (BitVec.ofNat 4 ((d - 1) / 256)) (BitVec.ofNat 8 ((d - 1) % 256))
      else .refx (BitVec.ofNat 4 ((d - 1) / 256)) (BitVec.ofNat 8 ((d - 1) % 256)) (BitVec.ofNat 8 (l - 18)) := by
  simp only [referenceInstr, shortMax, Nat.shiftRight_eq_div_pow, Nat.and_two_pow_sub_one_eq_mod (d - 1) 8]

theorem itemBytes_ref_short {d l : Nat} (hl : l ≤ 17) :
    itemBytes (.ref d l) =
      [BitVec.ofNat 4 (l - 2) ++ BitVec.ofNat 4 ((d - 1) / 256), BitVec.ofNat 8 ((d - 1) % 256)] := by
  rw [itemBytes, itemInstr, referenceInstr_eq, if_pos hl]
  rfl

theorem itemBytes_ref_long {d l : Nat} (hl : ¬ l ≤ 17) :
    itemBytes (.ref d l) =
      [(0 : BitVec 4) ++ BitVec.ofNat 4 ((d - 1) / 256), BitVec.ofNat 8 ((d - 1) % 256), BitVec.ofNat 8 (l - 18)] := by
  rw [itemBytes, itemInstr, referenceInstr_eq, if_neg hl]
  rfl

/-- Settles O5: decoding by the assembly of the fields, encoding by the form that the length asks for. -/
theorem referenceOperands : Obligations.ReferenceOperands := by
  unfold Obligations.ReferenceOperands
  refine ⟨fun a b c => ⟨distance_lowNibble a b, distance_pos _ _, distance_le _ _, by rw [shortLength, highNibble_toNat],
    fun ha => ⟨shortLength_ge ha, shortLength_le _⟩, rfl, longLength_ge c, longLength_le c⟩,
    fun d l hd hdmax hl hlmax => ?_⟩
  have hnibble : (d - 1) / 256 < 16 := by omega
  have hdistance := distance_fields hd hdmax
  by_cases hshort : l ≤ 17
  · obtain ⟨hne, hlength⟩ := shortLength_field hl hshort
    rw [if_pos hshort, itemBytes_ref_short hshort]
    refine ⟨by rw [ofNat_append_ofNat_nibble hnibble], _, _, hdistance, ?_⟩
    rw [if_pos hshort]
    exact ⟨_, hne, hlength, decodeToken_append_short hne _ _⟩
  · have hlength := longLength_field (l := l) (by omega) hlmax
    rw [if_neg hshort, itemBytes_ref_long hshort]
    refine ⟨by rw [zero_append_ofNat_nibble hnibble], _, _, hdistance, ?_⟩
    rw [if_neg hshort]
    exact ⟨_, hlength, decodeToken_append_long _ _ _⟩

/-! ## The reserved command codes (R72, R150) -/

theorem exec_reservedCmd (c : BitVec 3) {s : State} (hidle : s.status ≠ .busy) :
    exec (.reservedCmd c) s = .next ((s.latchCommand c).raise .badCommand) :=
  congrArg Host.Outcome.next (if_neg hidle)

/-- The codes of R72 are those of no command. -/
theorem not_command_of_reserved {c : BitVec 3} (hc : c = 0 ∨ c = 5 ∨ c = 6 ∨ c = 7) :
    ¬ (c = 1 ∨ c = 2 ∨ c = 3 ∨ c = 4) := by
  revert c; decide

/-- The host's write of a reserved code is the meaning of that code. -/
theorem hostWriteReg_cmd_reserved {c : BitVec 3} (hc : c = 0 ∨ c = 5 ∨ c = 6 ∨ c = 7) (s : State) :
    hostWriteReg .cmd (c.setWidth 33) s = exec (.reservedCmd c) s := by
  have hdecode := (decodeCommand_reserved_iff c).2 (not_command_of_reserved hc)
  have hwidth : (c.setWidth 33).setWidth 3 = c := BitVec.setWidth_setWidth_of_le c (by decide)
  simp only [hostWriteReg, hwidth, hdecode, exec]

/-- BadCommand at command acceptance is fault entry (R153). -/
theorem latchCommand_raise_faultEntered (s : State) (c : BitVec 3) (f : FaultCode) :
    s.FaultEntered f ((s.latchCommand c).raise f) := by
  constructor <;> simp

/-- Settles O14, by the meaning of a reserved code and the host's write of it. -/
theorem reservedCommandRaisesBadCommand : Obligations.ReservedCommandRaisesBadCommand := by
  unfold Obligations.ReservedCommandRaisesBadCommand
  intro s c hc hidle
  refine ⟨⟨_, exec_reservedCmd c hidle, latchCommand_raise_faultEntered s c _⟩, fun later hmoves => ?_⟩
  rw [step_move hmoves (by simp)]
  exact hostWriteReg_cmd_reserved hc _

end Sys2Proof.Machine

/-! # The commands (40_commands)

Writing `CMD` while the engine is not BUSY (R80, R151) and while it is (R81), and the answer of ISCOMP (R84). -/

namespace Sys2Proof.Machine

/-! ## Writing CMD -/

/-- The host's write of `CMD`, as a step, is command acceptance of the value's three lowest bits (log 7). -/
theorem step_writeCmd {s : State} {v : BitVec 33} {later : List HostMove} (h : s.moves = .writeReg .cmd v :: later) :
    step s = .next (acceptCommand (v.setWidth 3) { s with moves := later }) := by
  rw [step_move h (by simp)]
  exact hostWriteReg_cmd v _

/-- The numbers of R71 are the codes of the four commands. -/
theorem toNat_mod_mem_commands_iff (v : BitVec 33) :
    v.toNat % 8 ∈ [1, 2, 3, 4] ↔ v.setWidth 3 = 1 ∨ v.setWidth 3 = 2 ∨ v.setWidth 3 = 3 ∨ v.setWidth 3 = 4 := by
  have hcodes : ∀ c : BitVec 3, c.toNat ∈ [1, 2, 3, 4] ↔ c = 1 ∨ c = 2 ∨ c = 3 ∨ c = 4 := by decide
  simpa only [BitVec.toNat_setWidth] using hcodes (v.setWidth 3)

/-- Fault entry does not speak of the host's pending moves. -/
theorem State.FaultEntered.of_moves {s t : State} {f : FaultCode} {later : List HostMove}
    (h : State.FaultEntered { s with moves := later } f t) : s.FaultEntered f t where
  code := h.code
  status := h.status
  dstLen := h.dstLen
  result := h.result
  src := h.src
  srcLen := h.srcLen

/-- Settles O12, by the three outcomes of command acceptance: a reserved code, an input too long, and the start. -/
theorem commandAcceptance : Obligations.CommandAcceptance := by
  unfold Obligations.CommandAcceptance
  intro s v later hmoves hidle
  refine ⟨_, step_writeCmd hmoves, ?_⟩
  obtain ⟨hcode, ht⟩ | ⟨hcode, hlong, ht⟩ | ⟨hcode, hfits, ht⟩ :=
    acceptCommand_cases (c := v.setWidth 3) (s := { s with moves := later }) hidle
  · rw [if_neg (mt (toNat_mod_mem_commands_iff v).1 hcode), ht]
    exact (latchCommand_raise_faultEntered _ _ _).of_moves
  · rw [if_pos ((toNat_mod_mem_commands_iff v).2 hcode), if_pos hlong, ht]
    exact (latchCommand_raise_faultEntered _ _ _).of_moves
  · rw [if_pos ((toNat_mod_mem_commands_iff v).2 hcode), if_neg (Nat.not_lt.2 hfits), ht]
    exact ⟨rfl, rfl, rfl, rfl, rfl, rfl⟩

/-- Settles O13: command acceptance leaves a BUSY engine as it is. -/
theorem commandIgnoredWhileBusy : Obligations.CommandIgnoredWhileBusy := by
  unfold Obligations.CommandIgnoredWhileBusy
  intro s v later hmoves hbusy
  rw [step_writeCmd hmoves, acceptCommand_busy (s := { s with moves := later }) hbusy]

/-! ## ISCOMP -/

/-- ISCOMP's question, put to the input: the length test lets the four bytes be read. -/
theorem isComp_question_iff (s : State) :
    (if 16 < s.srcLen.toNat then s.hasMagic else false) = true ↔ 16 < s.srcLen.toNat ∧ s.input.take 4 = magic := by
  by_cases hlen : 16 < s.srcLen.toNat
  · rw [if_pos hlen, and_iff_right hlen]
    exact State.hasMagic_iff (by omega)
  · simp [hlen]

/-- The answer is 1 exactly where the question holds. -/
theorem answer_eq_ite {b : Bool} {p : Prop} [Decidable p] (h : b = true ↔ p) : answer b = if p then 1 else 0 :=
  if_congr h rfl rfl

/-- Settles O21: ISCOMP completes with the answer to its question. -/
theorem iscompAnswers : Obligations.IscompAnswers := by
  unfold Obligations.IscompAnswers
  intro s
  calc exec .iscomp s
      = .next (s.complete 0 (answer (if 16 < s.srcLen.toNat then s.hasMagic else false))) := rfl
    _ = .next (s.complete 0 (if 16 < s.srcLen.toNat ∧ s.input.take 4 = magic then 1 else 0)) := by
        rw [answer_eq_ite (isComp_question_iff s)]

end Sys2Proof.Machine

/-! # Decompression (41_decompress)

The start step (R90), the control byte (R92) and the three tokens (R94 to R97). A token that completes takes its control
bit, moves `SP` and `DP` and writes DST, which gives `State.afterToken`, and then makes the stop test (R91). -/

namespace Sys2Proof.Machine

theorem raise_faultEntered (s : State) (f : FaultCode) : s.FaultEntered f (s.raise f) := ⟨rfl, rfl, rfl, rfl, rfl, rfl⟩

/-- A rule that raises a fault ends in fault entry (R153). -/
theorem finish_faultEntered {s : State} {r : Except Stop State} {f : FaultCode} (h : r = .error (.raise f)) :
    ∃ t, finish s r = .next t ∧ s.FaultEntered f t :=
  ⟨s.raise f, by rw [h, finish_raise], raise_faultEntered s f⟩

/-! ## The stop rule (R91) -/

/-- The stop test changes the status registers alone. -/
theorem stopIfFull_frame (s : State) :
    stopIfFull s = { s with status := (stopIfFull s).status, dstLen := (stopIfFull s).dstLen,
                            result := (stopIfFull s).result } := by
  obtain ⟨-, h⟩ | ⟨-, h⟩ := stopIfFull_cases s
  · rw [h]
    rfl
  · rw [h]

@[simp] theorem stopIfFull_sp (s : State) : (stopIfFull s).sp = s.sp := by rw [stopIfFull_frame]
@[simp] theorem stopIfFull_dp (s : State) : (stopIfFull s).dp = s.dp := by rw [stopIfFull_frame]
@[simp] theorem stopIfFull_ctl (s : State) : (stopIfFull s).ctl = s.ctl := by rw [stopIfFull_frame]
@[simp] theorem stopIfFull_cnt (s : State) : (stopIfFull s).cnt = s.cnt := by rw [stopIfFull_frame]
@[simp] theorem stopIfFull_dst (s : State) : (stopIfFull s).dst = s.dst := by rw [stopIfFull_frame]
@[simp] theorem stopIfFull_resets (s : State) : (stopIfFull s).resets = s.resets := by rw [stopIfFull_frame]
@[simp] theorem stopIfFull_started (s : State) : (stopIfFull s).started = s.started := by rw [stopIfFull_frame]

/-- The stop rule's writes (R91). -/
theorem stopIfFull_status (s : State) :
    if s.dp.toNat = s.dsize.toNat then
      (stopIfFull s).status = .done ∧ (stopIfFull s).dstLen.toNat = s.dsize.toNat ∧ (stopIfFull s).result = 0
    else (stopIfFull s).status = s.status ∧ (stopIfFull s).dstLen = s.dstLen ∧ (stopIfFull s).result = s.result := by
  obtain ⟨hfull, h⟩ | ⟨hnot, h⟩ := stopIfFull_cases s
  · rw [if_pos hfull, h]
    exact ⟨rfl, BitVec.toNat_setWidth_of_le (by decide), rfl⟩
  · rw [if_neg hnot, h]
    exact ⟨rfl, rfl, rfl⟩

/-! ## The start step (R90) -/

/-- The interpreter's registers as the start step sets them. -/
def State.interpreterReset (s : State) : State :=
  { s with dsize := s.declaredSize, sp := 16, dp := 0, ctl := 0, cnt := 0, started := true }

/-- The start step's checks, put to the input as `Decompress` puts them. -/
theorem decompStart_eq (s : State) :
    decompStart s =
      if s.input.length < 4 ∨ s.input.take 4 ≠ magic then .error (.raise .formatError)
      else if s.input.length < 16 then .error (.raise .truncatedInput)
      else if s.fitsDst s.declaredSize.toNat = false then .error (.raise .dstOverflow)
      else .ok (stopIfFull s.interpreterReset) := by
  have hformat : (s.srcLen.toNat < 4 ∨ s.hasMagic = false) ↔ (s.input.length < 4 ∨ s.input.take 4 ≠ magic) := by
    rw [State.input_length]
    refine or_congr_right' fun h4 => ?_
    rw [ne_eq, ← State.hasMagic_iff (Nat.not_lt.1 h4), Bool.not_eq_true]
  unfold decompStart
  rw [if_congr hformat rfl rfl, State.input_length]
  rfl

/-- A declared size of 0 completes at once (R90, R91). -/
theorem stopIfFull_interpreterReset (s : State) :
    stopIfFull s.interpreterReset =
      if s.declaredSize.toNat = 0 then s.interpreterReset.complete 0 0 else s.interpreterReset := by
  obtain ⟨hfull, ht⟩ | ⟨hnot, ht⟩ := stopIfFull_cases s.interpreterReset
  · have hzero : s.declaredSize.toNat = 0 := hfull.symm
    rw [ht, if_pos hzero]
    show s.interpreterReset.complete (s.declaredSize.setWidth 33) 0 = _
    rw [BitVec.eq_of_toNat_eq (y := 0) hzero]
    rfl
  · have hpos : s.declaredSize.toNat ≠ 0 := Ne.symm hnot
    rw [ht, if_neg hpos]

/-- Settles O22, by the start step's three checks. -/
theorem decompStartStep : Obligations.DecompStart := by
  unfold Obligations.DecompStart
  intro s hstart
  have hexec : exec .decomp s = finish s (decompStart s) := by
    show finish s (if s.started = true then decompStep s else decompStart s) = _
    rw [hstart, if_neg Bool.false_ne_true]
  rw [hexec, decompStart_eq, State.input_length]
  refine ⟨?_, fun hformat => finish_faultEntered (if_pos hformat),
    fun h4 h16 (hmagic : s.input.take 4 = magic) => finish_faultEntered ?_⟩
  · intro h16 (hmagic : s.input.take 4 = magic) size hsize
    obtain rfl : size = s.declaredSize.toNat := by rw [hsize, State.declaredSize, readBE32_toNat]
    rw [if_neg (not_or.2 ⟨by omega, not_not_intro hmagic⟩), if_neg (Nat.not_lt.2 h16), BitVec.ofNat_toNat,
      BitVec.setWidth_eq]
    refine ⟨fun hfits => ?_, fun hover => finish_faultEntered (if_pos hover)⟩
    rw [if_neg (ne_false_of_eq_true hfits)]
    refine ⟨_, rfl, ?_⟩
    intro u
    have hu : u = s.interpreterReset := by
      simp only [u, stopIfFull_started]
      rfl
    rw [hu, stopIfFull_interpreterReset]
    split <;> rfl
  · rw [if_neg (not_or.2 ⟨Nat.not_lt.2 h4, not_not_intro hmagic⟩), if_pos h16]

/-! ## The control byte (R92) -/

/-- DECOMP behind the control byte `k`. -/
def State.openGroup (s : State) (k : Byte) : State := { s with ctl := k, sp := s.sp + 1, cnt := 8 }

theorem controlByte_due {s : State} (k : Byte) (hdue : s.cnt = 0) (hsp : s.sp.toNat < s.srcLen.toNat) :
    controlByte k s = .ok (s.openGroup k) := by
  rw [controlByte, if_pos hdue, needBytes_of_le hsp]
  rfl

theorem controlByte_missing {s : State} (k : Byte) (hdue : s.cnt = 0) (hsp : s.srcLen.toNat ≤ s.sp.toNat) :
    controlByte k s = .error (.raise .truncatedInput) := by
  rw [controlByte, if_pos hdue, needBytes_of_lt (Nat.lt_succ_of_le hsp)]
  rfl

theorem controlByte_not_due {s : State} (k : Byte) (hdue : s.cnt ≠ 0) : controlByte k s = .ok s := if_neg hdue

/-- Settles O23, by whether a control byte is due, and then whether it is there. -/
theorem controlByteFetch : Obligations.ControlByteFetch := by
  unfold Obligations.ControlByteFetch
  intro s k
  exact ⟨fun hdue hsp => congrArg (finish s) (controlByte_due k hdue hsp),
    fun hdue hsp => finish_faultEntered (controlByte_missing k hdue hsp),
    fun hdue => congrArg (finish s) (controlByte_not_due k hdue)⟩

/-! ## Behind a token (R93) -/

/-- The state once the control bit and the bytes of a token, up to `sp`, are read. -/
def State.tokenRead (s : State) (sp : BitVec 32) : State := { s.takeBit with sp := sp }

/-- The state behind a token, before the stop test. -/
def State.afterToken (s : State) (sp : BitVec 32) (dp : BitVec 33) (m : Memory) : State :=
  { s.tokenRead sp with dp := dp, dst := m }

/-- What a token leaves unchanged. -/
theorem stopIfFull_afterToken_frame (s : State) (sp : BitVec 32) (dp : BitVec 33) (m : Memory) :
    let t := stopIfFull (s.afterToken sp dp m)
    t = { s with sp := t.sp, dp := t.dp, ctl := t.ctl, cnt := t.cnt, dst := t.dst, status := t.status,
                 dstLen := t.dstLen, result := t.result } := by
  intro t
  have ht : t = stopIfFull (s.afterToken sp dp m) := rfl
  rw [ht, stopIfFull_sp, stopIfFull_dp, stopIfFull_ctl, stopIfFull_cnt, stopIfFull_dst]
  exact stopIfFull_frame _

/-! ## The literal (R94) -/

theorem litToken_missing {d : Byte} {s : State} (h : s.srcLen.toNat ≤ s.sp.toNat) :
    litToken d s = .error (.raise .truncatedInput) := by
  rw [litToken, needBytes_of_lt (s := s.takeBit) (Nat.lt_succ_of_le h)]
  rfl

theorem litToken_ok {d : Byte} {s : State} (hsp : s.sp.toNat < s.srcLen.toNat) (hroom : s.dp.toNat < s.dsize.toNat)
    (hfits : s.fitsDst s.dsize.toNat = true) :
    litToken d s = .ok (stopIfFull (s.afterToken (s.sp + 1) (s.dp + 1) (Memory.write s.dp.toNat d s.dst))) :=
  litToken_eq hsp ((s.fitsDst_iff _).1 hfits _ hroom)

/-- The next `DP`, where the declared size is above. -/
theorem State.dp_succ_of_room {s : State} (h : s.dp.toNat < s.dsize.toNat) : (s.dp + 1).toNat = s.dp.toNat + 1 :=
  State.dp_succ (h.trans s.dsize.isLt)

/-- Settles O24: the literal's byte is missing, or it is appended. -/
theorem literalToken : Obligations.LiteralToken := by
  unfold Obligations.LiteralToken
  intro s d
  refine ⟨fun hsp => finish_faultEntered (litToken_missing hsp), fun hsp hroom hfits => ?_⟩
  have hdp := State.dp_succ_of_room hroom
  refine ⟨_, congrArg (finish s) (litToken_ok hsp hroom hfits), stopIfFull_sp _, ?_, stopIfFull_ctl _, stopIfFull_cnt _,
    ?_, fun a ha => ?_, ?_, stopIfFull_afterToken_frame s _ _ _⟩
  · rw [stopIfFull_dp]; exact hdp
  · rw [stopIfFull_dst]; exact Memory.read_write_same _ _ _
  · rw [stopIfFull_dst]; exact Memory.read_write_other ha _ _
  · rw [← hdp]; exact stopIfFull_status (s.afterToken _ _ _)

/-! ## The output so far, and the copy back (R97) -/

/-- The bytes of SRC that DECOMP has not read. -/
def State.unread (s : State) : List Byte := s.input.drop s.sp.toNat

/-- The bytes DECOMP has written. -/
def State.produced (s : State) : List Byte := s.output s.dp.toNat

@[simp] theorem State.produced_length (s : State) : s.produced.length = s.dp.toNat := s.output_length _

@[simp] theorem State.unread_length (s : State) : s.unread.length = s.srcLen.toNat - s.sp.toNat := by
  rw [State.unread, List.length_drop, State.input_length]

/-- Behind `k` more bytes of SRC. -/
theorem State.unread_afterToken {s : State} {sp : BitVec 32} {k : Nat} (h : sp.toNat = s.sp.toNat + k) (dp : BitVec 33)
    (m : Memory) : (s.afterToken sp dp m).unread = s.unread.drop k := by
  rw [State.unread, State.unread, List.drop_drop, ← h]
  rfl

/-- A byte appended to DST is appended to the output. -/
theorem produced_of_append {v : Byte} {s : State} (hroom : s.dp.toNat < s.dsize.toNat) :
    State.produced { s.storeDst s.dp.toNat v with dp := s.dp + 1 } = s.produced ++ [v] := by
  have hbelow : (s.storeDst s.dp.toNat v).output s.dp.toNat = s.output s.dp.toNat :=
    State.output_congr fun a ha => by rw [State.dstByte_storeDst, if_neg (Nat.ne_of_lt ha)]
  have htop : (s.storeDst s.dp.toNat v).dstByte s.dp.toNat = v := by rw [State.dstByte_storeDst, if_pos rfl]
  calc State.produced { s.storeDst s.dp.toNat v with dp := s.dp + 1 }
      = (s.storeDst s.dp.toNat v).output (s.dp.toNat + 1) := by rw [← State.dp_succ_of_room hroom]; rfl
    _ = s.produced ++ [v] := by rw [State.output_succ, hbelow, htop]; rfl

/-- The copy back appends to the output what `Decompress` appends. -/
theorem copyBack_produced {dist len : Nat} {s t : State} (h : copyBack dist len s = .ok t) (hpos : 1 ≤ dist)
    (hback : dist ≤ s.dp.toNat) (hroom : s.dp.toNat ≤ s.dsize.toNat) :
    t.produced = copyOut s.dsize.toNat dist len s.produced := by
  induction len generalizing s with
  | zero =>
    obtain rfl := Except.ok.inj h
    rfl
  | succ len ih =>
    unfold copyBack at h
    unfold copyOut
    rw [State.produced_length]
    split at h
    · next hfull =>
      obtain rfl := Except.ok.inj h
      rw [if_pos hfull]
    · next hnot =>
      have hlt : s.dp.toNat < s.dsize.toNat := Nat.lt_of_le_of_ne hroom hnot
      have hdp := State.dp_succ_of_room hlt
      have hbyte : s.produced.getD (s.dp.toNat - dist) 0 = s.dstByte (s.dp.toNat - dist) := by
        rw [List.getD, State.produced, State.output_getElem? _ (by omega)]
        rfl
      rw [if_neg hnot, hbyte, ← produced_of_append hlt]
      cases happ : appendDst (s.dstByte (s.dp.toNat - dist)) s with
      | error e => rw [happ] at h; cases h
      | ok u =>
        rw [happ] at h
        obtain ⟨-, rfl⟩ := appendDst_ok_iff.1 happ
        exact ih h (by show dist ≤ (s.dp + 1).toNat; omega) (by show (s.dp + 1).toNat ≤ s.dsize.toNat; omega)

/-- A byte of DST that something has written. -/
theorem State.read_of_isSome {s : State} {a : Nat} (h : (Memory.read s.dst a).isSome = true) :
    Memory.read s.dst a = some (s.dstByte a) := by
  obtain ⟨v, hv⟩ := Option.isSome_iff_exists.1 h
  rw [State.dstByte, hv]

theorem State.dstByte_of_read {s t : State} {a : Nat} (h : Memory.read t.dst a = Memory.read s.dst a)
    (hresets : t.resets = s.resets) : t.dstByte a = s.dstByte a := by
  rw [State.dstByte, State.dstByte, h, hresets]

/-- One period on, the copy repeats itself. -/
theorem dstByte_of_periodic {s t : State} {p dist n : Nat} (hpos : 1 ≤ dist) (hback : dist ≤ p)
    (hold : ∀ a, a < p → t.dstByte a = s.dstByte a)
    (hcopy : ∀ k, k < n → t.dstByte (p + k) = s.dstByte (p - dist + k % dist)) {k : Nat} (hk : k < n) :
    t.dstByte (p + k) = t.dstByte (p + k - dist) := by
  rw [hcopy k hk]
  by_cases hfirst : k < dist
  · rw [Nat.mod_eq_of_lt hfirst, hold _ (by omega)]
    congr 1
    omega
  · have hearlier := hcopy (k - dist) (by omega)
    rw [← Nat.mod_eq_sub_mod (Nat.not_lt.1 hfirst)] at hearlier
    rw [← hearlier]
    congr 1
    omega

/-- A back-reference that reaches back into the output completes: each byte is the one `dist` before it, every other
byte of DST is as before, and the output grows as in `Decompress`. -/
theorem copyChecked_ok {s : State} (sp : BitVec 32) {dist : Nat} (len : Nat) (hpos : 1 ≤ dist)
    (hback : dist ≤ s.dp.toNat) (hroom : s.dp.toNat ≤ s.dsize.toNat) (hfits : s.fitsDst s.dsize.toNat = true) :
    ∃ dp m, copyChecked dist len (s.tokenRead sp) = .ok (s.afterToken sp dp m) ∧
      dp.toNat = s.dp.toNat + copied s len ∧
      (∀ k, k < copied s len →
        Memory.read m (s.dp.toNat + k) = some ((s.afterToken sp dp m).dstByte (s.dp.toNat + k - dist))) ∧
      (∀ a, a < s.dp.toNat ∨ s.dp.toNat + copied s len ≤ a → Memory.read m a = Memory.read s.dst a) ∧
      (s.afterToken sp dp m).produced = copyOut s.dsize.toNat dist len s.produced := by
  obtain ⟨t, hcopy⟩ := copyBack_fits (s := s.tokenRead sp) (dist := dist) (len := len) hroom hfits
  obtain ⟨m, ht, hdp, hframe, -, hsome, hperiod⟩ := copyBack_ok hcopy hroom
  obtain rfl : t = s.afterToken sp (s.dp + BitVec.ofNat 33 (copied s len)) m := ht
  refine ⟨_, m, (copyChecked_of_le (s := s.tokenRead sp) hback).trans hcopy, hdp, fun k hk => ?_, hframe,
    copyBack_produced (s := s.tokenRead sp) hcopy hpos hback hroom⟩
  have hbyte := dstByte_of_periodic (s := s.tokenRead sp) (t := s.afterToken sp _ m) hpos hback
    (fun a ha => State.dstByte_of_read (hframe a (.inl ha)) rfl) (hperiod hpos hback) hk
  exact (State.read_of_isSome (s := s.afterToken sp _ m) (hsome k hk)).trans (congrArg some hbyte)

/-! ## The two back-references (R95, R96) -/

theorem refToken_missing {n h : BitVec 4} {l : Byte} {s : State} (hsp : s.srcLen.toNat < s.sp.toNat + 2) :
    refToken n h l s = .error (.raise .truncatedInput) := by
  rw [refToken, needBytes_of_lt (s := s.takeBit) hsp]
  rfl

theorem refxToken_missing {h : BitVec 4} {l c : Byte} {s : State} (hsp : s.srcLen.toNat < s.sp.toNat + 3) :
    refxToken h l c s = .error (.raise .truncatedInput) := by
  by_cases htwo : s.srcLen.toNat < s.sp.toNat + 2
  · rw [refxToken, needBytes_of_lt (s := s.takeBit) htwo]
    rfl
  · have hsp2 : (s.sp + 2).toNat = s.sp.toNat + 2 := State.sp_advance (k := 2) (Nat.not_lt.1 htwo)
    have hthird : needBytes 1 (s.takeBit.advanceSp 2) = .error (.raise .truncatedInput) :=
      needBytes_of_lt (by rw [State.advanceSp_sp, State.takeBit_sp, hsp2]; exact hsp)
    rw [refxToken, needBytes_of_le (s := s.takeBit) (Nat.not_lt.1 htwo)]
    simp only [Except.bind, hthird]
    rfl

/-- `SP` past the three bytes of a long back-reference. -/
theorem State.sp_advance_three {s : State} (h : s.sp.toNat + 3 ≤ s.srcLen.toNat) :
    (s.sp + 2 + 1).toNat = s.sp.toNat + 3 := by
  rw [BitVec.add_assoc]
  exact State.sp_advance (k := 3) h

/-- A back-reference that reaches back past the output is BadDistance. -/
theorem reference_badDistance {s : State} (sp : BitVec 32) {dist : Nat} (len : Nat) (h : s.dp.toNat < dist) :
    (copyChecked dist len (s.tokenRead sp)).map stopIfFull = .error (.raise .badDistance) := by
  rw [copyChecked_of_lt (s := s.tokenRead sp) h]
  rfl

/-- A back-reference of `size` bytes that completes, of either form. -/
theorem reference_completes {s : State} {sp : BitVec 32} {size dist : Nat} (len : Nat)
    (hsp : sp.toNat = s.sp.toNat + size) (hpos : 1 ≤ dist) (hback : dist ≤ s.dp.toNat)
    (hroom : s.dp.toNat ≤ s.dsize.toNat) (hfits : s.fitsDst s.dsize.toNat = true) :
    ∃ t, finish s ((copyChecked dist len (s.tokenRead sp)).map stopIfFull) = .next t ∧
      t.sp.toNat = s.sp.toNat + size ∧ t.dp.toNat = s.dp.toNat + copied s len ∧ t.ctl = s.ctl <<< 1 ∧
      t.cnt = s.cnt - 1 ∧
      (∀ k, k < copied s len → Memory.read t.dst (s.dp.toNat + k) = some (t.dstByte (s.dp.toNat + k - dist))) ∧
      (∀ a, a < s.dp.toNat ∨ s.dp.toNat + copied s len ≤ a → Memory.read t.dst a = Memory.read s.dst a) ∧
      (if s.dp.toNat + copied s len = s.dsize.toNat
       then t.status = .done ∧ t.dstLen.toNat = s.dsize.toNat ∧ t.result = 0
       else t.status = s.status ∧ t.dstLen = s.dstLen ∧ t.result = s.result) ∧
      t = { s with sp := t.sp, dp := t.dp, ctl := t.ctl, cnt := t.cnt, dst := t.dst, status := t.status,
                   dstLen := t.dstLen, result := t.result } := by
  obtain ⟨dp, m, hcopy, hdp, hbytes, hframe, -⟩ := copyChecked_ok sp len hpos hback hroom hfits
  refine ⟨stopIfFull (s.afterToken sp dp m), by rw [hcopy]; rfl, by rw [stopIfFull_sp]; exact hsp,
    by rw [stopIfFull_dp]; exact hdp, stopIfFull_ctl _, stopIfFull_cnt _, fun k hk => ?_, fun a ha => ?_, ?_,
    stopIfFull_afterToken_frame s sp dp m⟩
  · rw [State.dstByte_congr (stopIfFull_dst _) (stopIfFull_resets _), stopIfFull_dst]
    exact hbytes k hk
  · rw [stopIfFull_dst]
    exact hframe a ha
  · rw [← hdp]
    exact stopIfFull_status (s.afterToken sp dp m)

/-- Settles O25, by the order of the checks: the bytes, then the distance. -/
theorem shortReferenceToken : Obligations.ShortReferenceToken := by
  unfold Obligations.ShortReferenceToken
  rintro s n h l _ _ rfl rfl
  rw [← distance_eq]
  have hexec : exec (.ref n h l) s = finish s (refToken n h l s) := rfl
  refine ⟨fun hsp => finish_faultEntered (refToken_missing hsp), fun hsp hfar => finish_faultEntered ?_,
    fun hsp hback hroom hfits => ?_⟩
  · rw [refToken_eq hsp]
    exact reference_badDistance (s.sp + 2) _ hfar
  · rw [hexec, refToken_eq hsp]
    exact reference_completes (shortLength n) (State.sp_advance (k := 2) hsp) (distance_pos h l) hback hroom hfits

/-- Settles O26, by the order of the checks: all three bytes, then the distance. -/
theorem longReferenceToken : Obligations.LongReferenceToken := by
  unfold Obligations.LongReferenceToken
  rintro s h l c _ _ rfl rfl
  rw [← distance_eq]
  have hexec : exec (.refx h l c) s = finish s (refxToken h l c s) := rfl
  refine ⟨fun hsp => finish_faultEntered (refxToken_missing hsp), fun hsp hfar => finish_faultEntered ?_,
    fun hsp hback hroom hfits => ?_⟩
  · rw [refxToken_eq hsp]
    exact reference_badDistance (s.sp + 2 + 1) _ hfar
  · rw [hexec, refxToken_eq hsp]
    exact reference_completes (longLength c) (State.sp_advance_three hsp) (distance_pos h l) hback hroom hfits

end Sys2Proof.Machine

/-! # A run of DECOMP (R101)

The state of a running DECOMP is also a state of the loop of `Decompress`: the bytes it has not read, its control bits and
the output so far (`State.decompressRest`). Each engine step is one round of that loop. -/

namespace Sys2Proof.Machine

/-! ## Decoding at `SP` (R64, R98) -/

/-- The three forms a token can have, by the bytes it takes (R59 to R61). -/
theorem decodeToken_ok {ctl : Bool} {bytes rest : List Byte} {i : Instr} (h : decodeToken ctl bytes = .ok (i, rest)) :
    (∃ d, i = .lit d ∧ bytes = d :: rest) ∨
      (∃ a b, i = .ref (highNibble a) (lowNibble a) b ∧ bytes = a :: b :: rest) ∨
      ∃ a b c, i = .refx (lowNibble a) b c ∧ bytes = a :: b :: c :: rest := by
  match ctl, bytes, h with
  | true, d :: _, h =>
    obtain ⟨rfl, rfl⟩ := Prod.mk.inj (Except.ok.inj h)
    exact .inl ⟨d, rfl, rfl⟩
  | false, [a, b], h =>
    by_cases ha : highNibble a = 0
    · simp [decodeToken, decodeReference, ha] at h
    · obtain ⟨rfl, rfl⟩ := Prod.mk.inj (Except.ok.inj ((decodeReference_short ha b []).symm.trans h))
      exact .inr (.inl ⟨a, b, rfl, rfl⟩)
  | false, a :: b :: c :: more, h =>
    by_cases ha : highNibble a = 0
    · obtain ⟨rfl, rfl⟩ := Prod.mk.inj (Except.ok.inj ((decodeReference_long ha b c more).symm.trans h))
      exact .inr (.inr ⟨a, b, c, rfl, rfl⟩)
    · obtain ⟨rfl, rfl⟩ := Prod.mk.inj (Except.ok.inj ((decodeReference_short ha b (c :: more)).symm.trans h))
      exact .inr (.inl ⟨a, b, rfl, rfl⟩)

/-- No token takes more than three bytes. -/
theorem decodeToken_take_three (ctl : Bool) (bytes : List Byte) :
    (decodeToken ctl (bytes.take 3)).map Prod.fst = (decodeToken ctl bytes).map Prod.fst := by
  match ctl, bytes with
  | true, [] => rfl
  | true, _ :: _ => rfl
  | false, [] => rfl
  | false, [_] => rfl
  | false, [_, _] => rfl
  | false, a :: b :: c :: more =>
    simp only [List.take_succ_cons, List.take_zero, decodeToken, decodeReference]
    split <;> rfl

/-- The fetch reads the token from all the bytes left, and takes what cannot be decoded for cut short (R147). -/
theorem fetchToken_eq_map (s : State) :
    fetchToken s = ((decodeToken s.ctl.msb s.unread).map Prod.fst).mapError fun _ => .raise .truncatedInput := by
  rw [← decodeToken_take_three, State.unread, ← s.window_eq, fetchToken]
  split
  · next h => rw [h]; rfl
  · next h => rw [h]; rfl

/-- As many bytes as are left can be read. -/
theorem State.sp_add_le {s : State} {k : Nat} (hk : 0 < k) (h : k ≤ s.unread.length) :
    s.sp.toNat + k ≤ s.srcLen.toNat := by
  rw [State.unread_length] at h
  omega

theorem State.unread_openGroup {s : State} {k : Byte} {rest : List Byte} (h : s.unread = k :: rest) :
    (s.openGroup k).unread = rest := by
  have hsp : (s.sp + 1).toNat = s.sp.toNat + 1 :=
    State.sp_advance (k := 1) (State.sp_add_le Nat.one_pos (by rw [h]; exact Nat.le_add_left 1 _))
  calc (s.openGroup k).unread
      = s.input.drop (s.sp.toNat + 1) := by rw [← hsp]; rfl
    _ = s.unread.drop 1 := List.drop_drop.symm
    _ = rest := by rw [h]; rfl

theorem controlFetch_missing {s : State} (hdue : s.cnt = 0) (h : s.unread = []) :
    controlFetch s = .error (.raise .truncatedInput) := by
  rw [controlFetch, if_pos hdue, s.window_eq, ← State.unread, h]
  rfl

theorem controlFetch_due {s : State} {k : Byte} {rest : List Byte} (hdue : s.cnt = 0) (h : s.unread = k :: rest) :
    controlFetch s = .ok (s.openGroup k) := by
  rw [controlFetch, if_pos hdue, s.window_eq, ← State.unread, h]
  exact controlByte_due k hdue (State.sp_add_le Nat.one_pos (by rw [h]; exact Nat.le_add_left 1 _))

theorem controlFetch_not_due {s : State} (hdue : s.cnt ≠ 0) : controlFetch s = .ok s := if_neg hdue

/-! ## The token's effect, on the machine and in `Decompress` -/

/-- A token's effect `r` in the state `s` and what it appends, `o`: both fault alike, or the machine goes on with the
longer output and the bytes `rest`. -/
def TokenAgrees (s : State) (rest : List Byte) (r : Except Stop State) (o : Except FaultCode (List Byte)) : Prop :=
  (∃ f, r = .error (.raise f) ∧ o = .error f) ∨
    ∃ sp dp m, r = .ok (stopIfFull (s.afterToken sp dp m)) ∧ o = .ok (s.afterToken sp dp m).produced ∧
      (s.afterToken sp dp m).unread = rest ∧ s.dp.toNat < dp.toNat ∧ dp.toNat ≤ s.dsize.toNat

theorem reference_agrees {s : State} {sp : BitVec 32} {size dist len : Nat} (hsp : sp.toNat = s.sp.toNat + size)
    (hpos : 1 ≤ dist) (hlen : 0 < len) (hroom : s.dp.toNat < s.dsize.toNat) (hfits : s.fitsDst s.dsize.toNat = true) :
    TokenAgrees s (s.unread.drop size) ((copyChecked dist len (s.tokenRead sp)).map stopIfFull)
      (if s.produced.length < dist then .error .badDistance
       else .ok (copyOut s.dsize.toNat dist len s.produced)) := by
  rw [State.produced_length]
  by_cases hfar : s.dp.toNat < dist
  · exact .inl ⟨_, reference_badDistance sp len hfar, if_pos hfar⟩
  · obtain ⟨dp, m, hcopy, hdp, -, -, hout⟩ := copyChecked_ok sp len hpos (Nat.not_lt.1 hfar) (Nat.le_of_lt hroom) hfits
    refine .inr ⟨sp, dp, m, by rw [hcopy]; rfl, by rw [if_neg hfar, hout], State.unread_afterToken hsp dp m, ?_, ?_⟩
    all_goals
      rw [hdp, copied]
      omega

theorem literal_agrees {s : State} {d : Byte} (hsp : s.sp.toNat + 1 ≤ s.srcLen.toNat)
    (hroom : s.dp.toNat < s.dsize.toNat) (hfits : s.fitsDst s.dsize.toNat = true) :
    TokenAgrees s (s.unread.drop 1) (litToken d s) (.ok (s.produced ++ [d])) := by
  have hdp := State.dp_succ_of_room hroom
  refine .inr ⟨_, _, _, litToken_ok hsp hroom hfits, congrArg Except.ok ?_,
    State.unread_afterToken (State.sp_advance (k := 1) hsp) _ _, ?_, ?_⟩
  · exact (produced_of_append (s := s.tokenRead (s.sp + 1)) hroom).symm
  all_goals omega

/-- Each token does on the machine what it does in `Decompress`. -/
theorem tokenEffect_agrees {s : State} {i : Instr} {rest : List Byte}
    (hdecode : decodeToken s.ctl.msb s.unread = .ok (i, rest)) (hroom : s.dp.toNat < s.dsize.toNat)
    (hfits : s.fitsDst s.dsize.toNat = true) :
    TokenAgrees s rest (tokenEffect i s) (tokenOutput s.dsize.toNat s.produced i) := by
  obtain ⟨d, rfl, hbytes⟩ | ⟨a, b, rfl, hbytes⟩ | ⟨a, b, c, rfl, hbytes⟩ := decodeToken_ok hdecode
  · have hrest : rest = s.unread.drop 1 := by rw [hbytes]; rfl
    have hsp : s.sp.toNat + 1 ≤ s.srcLen.toNat := State.sp_add_le (by omega) (by rw [hbytes]; simp)
    rw [hrest]
    exact literal_agrees hsp hroom hfits
  · have hrest : rest = s.unread.drop 2 := by rw [hbytes]; rfl
    have hsp : s.sp.toNat + 2 ≤ s.srcLen.toNat := State.sp_add_le (by omega) (by rw [hbytes]; simp)
    rw [hrest, tokenEffect, refToken_eq hsp]
    exact reference_agrees (State.sp_advance (k := 2) hsp) (distance_pos _ _) (Nat.succ_pos _) hroom hfits
  · have hrest : rest = s.unread.drop 3 := by rw [hbytes]; rfl
    have hsp : s.sp.toNat + 3 ≤ s.srcLen.toNat := State.sp_add_le (by omega) (by rw [hbytes]; simp)
    rw [hrest, tokenEffect, refxToken_eq hsp]
    exact reference_agrees (State.sp_advance_three hsp) (distance_pos _ _) (Nat.succ_pos _) hroom hfits

/-! ## The loop of `Decompress` (R101) -/

/-- What the loop of `Decompress` makes of the state of a running DECOMP. -/
def State.decompressRest (s : State) (fuel : Nat) : Except FaultCode (List Byte) :=
  decompressLoop s.dsize.toNat fuel s.unread s.ctl s.cnt.toNat s.produced

theorem decompressLoop_full {size : Nat} {out : List Byte} (h : ¬ out.length < size) (fuel : Nat) (rest : List Byte)
    (ctl : Byte) (cnt : Nat) : decompressLoop size fuel rest ctl cnt out = .ok out := by
  cases fuel with
  | zero => rfl
  | succ fuel => unfold decompressLoop; rw [if_neg h]

theorem decompressLoop_missing_control {size : Nat} {out : List Byte} (h : out.length < size) (fuel : Nat) (ctl : Byte) :
    decompressLoop size (fuel + 1) [] ctl 0 out = .error .truncatedInput := by
  unfold decompressLoop
  rw [if_pos h]
  rfl

/-- Reading a control byte is no round of its own. -/
theorem decompressLoop_control {size : Nat} {out : List Byte} (h : out.length < size) (fuel : Nat) (k : Byte)
    (rest : List Byte) (ctl : Byte) :
    decompressLoop size (fuel + 1) (k :: rest) ctl 0 out = decompressLoop size (fuel + 1) rest k 8 out := by
  unfold decompressLoop
  simp only [if_pos h]
  rfl

/-- A round with control bits left is one token. -/
theorem decompressLoop_token {size cnt : Nat} {out : List Byte} (h : out.length < size) (hcnt : cnt ≠ 0) (fuel : Nat)
    (rest : List Byte) (ctl : Byte) :
    decompressLoop size (fuel + 1) rest ctl cnt out =
      ((decodeToken ctl.msb rest).mapError fun _ => .truncatedInput).bind fun d =>
        (tokenOutput size out d.1).bind fun out => decompressLoop size fuel d.2 (ctl <<< 1) (cnt - 1) out := by
  conv_lhs => unfold decompressLoop
  rw [if_pos h, if_neg hcnt]
  dsimp only
  cases decodeToken ctl.msb rest with
  | error e => rfl
  | ok d => cases h : tokenOutput size out d.1 <;> simp [Except.mapError, Except.bind, h]

/-! ## An engine step is a round of the loop -/

/-- DECOMP between its start step and its end, before the stop test. -/
structure State.Interpreting (s : State) : Prop where
  moves : s.moves = []
  busy : s.status = .busy
  op : s.op = 2
  started : s.started = true
  room : s.dp.toNat ≤ s.dsize.toNat
  fits : s.fitsDst s.dsize.toNat = true

/-- The bytes of the declared size that are still to come. -/
def State.toCome (s : State) : Nat := s.dsize.toNat - s.dp.toNat

/-- A rule's result `r` and a round of the loop from `s`: both fault alike, or the loop goes on from the machine's new
state, which is nearer to the declared size. -/
def RoundAgrees (s : State) (r : Except Stop State) : Prop :=
  (∃ f, r = .error (.raise f) ∧ ∀ fuel, s.decompressRest (fuel + 1) = .error f) ∨
    ∃ u : State, r = .ok (stopIfFull u) ∧ u.Interpreting ∧ u.toCome < s.toCome ∧
      ∀ fuel, s.decompressRest (fuel + 1) = u.decompressRest fuel

theorem State.cnt_pred {s : State} (h : s.cnt ≠ 0) : (s.cnt - 1).toNat = s.cnt.toNat - 1 := by
  bv_omega

/-- With control bits left, the token at `SP` is a round. -/
theorem token_round {s : State} (hs : s.Interpreting) (hroom : s.dp.toNat < s.dsize.toNat) (hcnt : s.cnt ≠ 0) :
    RoundAgrees s ((fetchToken s).bind fun i => tokenEffect i s) := by
  have hcnt' : s.cnt.toNat ≠ 0 := fun h0 => hcnt (BitVec.eq_of_toNat_eq h0)
  have hround := decompressLoop_token (by rwa [State.produced_length] : s.produced.length < s.dsize.toNat) hcnt'
    (rest := s.unread) (ctl := s.ctl)
  rw [fetchToken_eq_map]
  cases hdecode : decodeToken s.ctl.msb s.unread with
  | error e =>
    exact .inl ⟨_, rfl, fun fuel => by rw [State.decompressRest, hround, hdecode]; rfl⟩
  | ok d =>
    obtain ⟨i, rest⟩ := d
    rw [hdecode] at hround
    obtain ⟨f, heffect, hout⟩ | ⟨sp, dp, m, heffect, hout, hunread, hmore, hbound⟩ :=
      tokenEffect_agrees hdecode hroom hs.fits
    · exact .inl ⟨f, heffect, fun fuel => by
        rw [State.decompressRest, hround]
        exact congrArg (Except.bind · _) hout⟩
    · refine .inr ⟨s.afterToken sp dp m, heffect, ⟨hs.moves, hs.busy, hs.op, hs.started, hbound, hs.fits⟩, ?_,
        fun fuel => ?_⟩
      · show s.dsize.toNat - dp.toNat < s.dsize.toNat - s.dp.toNat
        omega
      · rw [State.decompressRest, hround, ← hunread]
        show (tokenOutput _ _ i).bind _ = _
        rw [hout, ← State.cnt_pred hcnt]
        rfl

/-- An engine step of a running DECOMP is a round of the loop. -/
theorem decompStep_round {s : State} (hs : s.Interpreting) (hroom : s.dp.toNat < s.dsize.toNat) :
    RoundAgrees s (decompStep s) := by
  have hlength : s.produced.length < s.dsize.toNat := by rwa [State.produced_length]
  rw [decompStep, if_pos hroom]
  by_cases hdue : s.cnt = 0
  · have hcnt : s.cnt.toNat = 0 := by rw [hdue]; rfl
    cases hunread : s.unread with
    | nil =>
      refine .inl ⟨.truncatedInput, by rw [controlFetch_missing hdue hunread]; rfl, fun fuel => ?_⟩
      rw [State.decompressRest, hunread, hcnt]
      exact decompressLoop_missing_control hlength fuel _
    | cons k rest =>
      have hopen : ∀ fuel, s.decompressRest (fuel + 1) = (s.openGroup k).decompressRest (fuel + 1) := by
        intro fuel
        rw [State.decompressRest, State.decompressRest, hunread, hcnt, State.unread_openGroup hunread]
        exact decompressLoop_control hlength fuel k rest _
      simp only [RoundAgrees, controlFetch_due hdue hunread, hopen]
      exact token_round (s := s.openGroup k) ⟨hs.moves, hs.busy, hs.op, hs.started, hs.room, hs.fits⟩ hroom
        (by decide : (8 : BitVec 4) ≠ 0)
  · rw [controlFetch_not_due hdue]
    exact token_round hs hroom hdue

/-! ## The run -/

/-- A step that faults ends the run and delivers the fault. -/
theorem run_of_raise {s : State} {f : FaultCode} (h : step s = .next (s.raise f)) :
    ∃ k t, runFor k s = .next t ∧ t.Ended ∧ t.delivered = .error f :=
  ⟨1, s.raise f, runFor_of_step h 0, .inr rfl, rfl⟩

/-- An end reached from the next state is reached. -/
theorem run_of_step {s u : State} {o : Except FaultCode (List Byte)} (h : step s = .next u)
    (hrun : ∃ k t, runFor k u = .next t ∧ t.Ended ∧ t.delivered = o) :
    ∃ k t, runFor k s = .next t ∧ t.Ended ∧ t.delivered = o := by
  obtain ⟨k, t, hrun, hend⟩ := hrun
  exact ⟨k + 1, t, (runFor_of_step h k).trans hrun, hend⟩

/-- Where the declared size is reached, the run has ended and delivers the output. -/
theorem stopIfFull_delivers {s : State} (hfull : s.dp.toNat = s.dsize.toNat) (fuel : Nat) :
    (stopIfFull s).Ended ∧ (stopIfFull s).delivered = s.decompressRest fuel := by
  have hwrites := stopIfFull_status s
  rw [if_pos hfull] at hwrites
  obtain ⟨hdone, hdstLen, -⟩ := hwrites
  have houtput : (stopIfFull s).output s.dp.toNat = s.produced :=
    State.output_congr fun a _ => congrFun (State.dstByte_congr (stopIfFull_dst s) (stopIfFull_resets s)) a
  refine ⟨.inl hdone, ?_⟩
  rw [State.delivered, if_pos hdone, hdstLen, ← hfull, houtput, State.decompressRest, decompressLoop_full]
  rw [State.produced_length, hfull]
  exact Nat.lt_irrefl _

theorem step_decomp {s : State} (hmoves : s.moves = []) (hbusy : s.status = .busy) (hop : s.op = 2) :
    step s = finish s (if s.started then decompStep s else decompStart s) :=
  (step_busy hmoves hbusy).trans (exec_op_decomp hop)

/-- A running DECOMP ends and delivers what is left of `Decompress`; each step comes nearer to the declared size. -/
theorem run_interpreting (fuel : Nat) {s : State} (hs : s.Interpreting) (hfuel : s.toCome ≤ fuel) :
    ∃ k t, runFor k (stopIfFull s) = .next t ∧ t.Ended ∧ t.delivered = s.decompressRest fuel := by
  induction fuel generalizing s with
  | zero => exact ⟨0, _, rfl, stopIfFull_delivers (by have := hs.room; rw [State.toCome] at hfuel; omega) 0⟩
  | succ fuel ih =>
    by_cases hfull : s.dp.toNat = s.dsize.toNat
    · exact ⟨0, _, rfl, stopIfFull_delivers hfull (fuel + 1)⟩
    · have hroom : s.dp.toNat < s.dsize.toNat := Nat.lt_of_le_of_ne hs.room hfull
      have hstep : step s = finish s (decompStep s) := by rw [step_decomp hs.moves hs.busy hs.op, hs.started]; rfl
      rw [stopIfFull, if_neg hfull]
      obtain ⟨f, hraise, hrest⟩ | ⟨u, hok, hu, hleft, hrest⟩ := decompStep_round hs hroom
      · rw [hrest]
        exact run_of_raise (hstep.trans (by rw [hraise, finish_raise]))
      · rw [hrest]
        exact run_of_step (hstep.trans (by rw [hok, finish_ok])) (ih hu (by omega))

/-- Settles O30: the start step makes the checks of `Decompress`, and each later step is a round of its loop. -/
theorem decompRunIsDecompress : Obligations.DecompRunIsDecompress := by
  unfold Obligations.DecompRunIsDecompress
  intro s hmoves hbusy hop hstart
  have hstep : step s = finish s (decompStart s) := by rw [step_decomp hmoves hbusy hop, hstart]; rfl
  rw [decompStart_eq] at hstep
  unfold decompress
  split at hstep
  · next hformat => rw [if_pos hformat]; exact run_of_raise hstep
  · next hformat =>
    rw [if_neg hformat]
    split at hstep
    · next hshort => rw [if_pos hshort]; exact run_of_raise hstep
    · next hlong =>
      have hsize : s.declaredSize = declaredSizeOf s.input := by
        rw [State.input_length] at hlong
        exact State.declaredSize_eq (Nat.not_lt.1 hlong)
      rw [if_neg hlong, ← hsize]
      show ∃ k t, _ ∧ _ ∧ _ = if s.fitsDst s.declaredSize.toNat = false then _ else _
      split at hstep
      · next hover => rw [if_pos hover]; exact run_of_raise hstep
      · next hfits =>
        rw [if_neg hfits]
        refine run_of_step hstep (run_interpreting s.declaredSize.toNat (s := s.interpreterReset) ?_ (Nat.sub_le _ _))
        exact ⟨hmoves, hbusy, hop, rfl, Nat.zero_le _, eq_true_of_ne_false hfits⟩

end Sys2Proof.Machine

/-! # The choice of a parse (R112, R116, R117)

The search finds a match for its position, and a match that is carried is one for the position behind the literal, so
that every item the chooser picks is valid where it stands. -/

namespace Sys2Proof.Machine

/-! ## The search (R116) -/

/-- The first longest of the candidates `lo`, ..., `lo + n - 1`, where `f` is the length of a candidate's match. -/
structure FirstLongest (f : Nat → Nat) (lo n : Nat) (best : Nat × Nat) : Prop where
  absent : best.1 = 0 → best.2 = 0
  candidate : best.1 ≠ 0 → lo ≤ best.2 ∧ best.2 < lo + n ∧ best.1 = f best.2
  longest : ∀ i, lo ≤ i → i < lo + n → f i ≤ best.1
  first : ∀ i, lo ≤ i → i < best.2 → f i < best.1

/-- One more candidate replaces the best so far only where its match is longer. -/
theorem FirstLongest.succ {f : Nat → Nat} {lo n : Nat} {best : Nat × Nat} (h : FirstLongest f lo n best) :
    FirstLongest f lo (n + 1) (if best.1 < f (lo + n) then (f (lo + n), lo + n) else best) := by
  split
  · next hlonger =>
    refine ⟨fun hzero => ?_, fun _ => ⟨?_, ?_, rfl⟩, fun i hlo hi => ?_, fun i hlo hi => ?_⟩
    · have : f (lo + n) = 0 := hzero
      omega
    · exact Nat.le_add_right lo n
    · exact Nat.lt_succ_self (lo + n)
    · rcases Nat.lt_succ_iff_lt_or_eq.1 hi with hi | rfl
      · exact (h.longest i hlo hi).trans (Nat.le_of_lt hlonger)
      · exact Nat.le_refl _
    · exact Nat.lt_of_le_of_lt (h.longest i hlo hi) hlonger
  · next hnot =>
    refine ⟨h.absent, fun hfound => ?_, fun i hlo hi => ?_, h.first⟩
    · obtain ⟨hlo, hhigh, hlength⟩ := h.candidate hfound
      exact ⟨hlo, Nat.lt_succ_of_lt hhigh, hlength⟩
    · rcases Nat.lt_succ_iff_lt_or_eq.1 hi with hi | rfl
      · exact h.longest i hlo hi
      · exact Nat.not_lt.1 hnot

theorem firstLongest_foldl (f : Nat → Nat) (lo n : Nat) :
    FirstLongest f lo n
      ((List.range' lo n).foldl (fun best i => if best.1 < f i then (f i, i) else best) (0, 0)) := by
  induction n with
  | zero =>
    exact ⟨fun _ => rfl, fun h => absurd rfl h, fun i hlo hi => absurd hlo (Nat.not_le.2 hi),
      fun i _ hi => absurd hi (Nat.not_lt_zero i)⟩
  | succ n ih =>
    rw [search_succ]
    exact ih.succ

/-- `Search` is the first longest match that starts in the window. -/
theorem search_firstLongest (x : List Byte) (pos : Nat) :
    FirstLongest (matchAt x pos) (pos - 4096) (pos - (pos - 4096)) (search x pos) :=
  firstLongest_foldl _ _ _

/-- A match for position `pos` of length `l` that starts at `q`: within the data, the cap and the window (R116). -/
structure IsMatch (x : List Byte) (pos l q : Nat) : Prop where
  inData : l ≤ x.length - pos
  cap : l ≤ 273
  inWindow : pos ≤ q + 4096
  before : q < pos
  agree : ∀ k, k < l → x[q + k]? = x[pos + k]?

/-- What the search finds is a match. -/
theorem search_isMatch {x : List Byte} {pos : Nat} (hfound : (search x pos).1 ≠ 0) :
    IsMatch x pos (search x pos).1 (search x pos).2 := by
  obtain ⟨hlo, hhigh, hlength⟩ := (search_firstLongest x pos).candidate hfound
  have hbound := matchAt_le x pos (search x pos).2
  rw [← hlength] at hbound
  obtain ⟨hdata, hcap⟩ := Nat.le_min.1 hbound
  exact ⟨hdata, hcap, by omega, by omega, fun k hk => matchAt_agree x pos _ (hlength ▸ hk)⟩

theorem search_length_le (x : List Byte) (pos : Nat) : (search x pos).1 ≤ x.length - pos ∧ (search x pos).1 ≤ 273 := by
  by_cases hzero : (search x pos).1 = 0
  · omega
  · exact ⟨(search_isMatch hzero).inData, (search_isMatch hzero).cap⟩

/-- Settles O37: the loop keeps the first longest of the candidates it has seen. -/
theorem searchFindsFirstLongest : Obligations.SearchFindsFirstLongest := by
  unfold Obligations.SearchFindsFirstLongest
  intro x pos l q _ hsearch
  have hbest := search_firstLongest x pos
  have hlength := search_length_le x pos
  have hmatch := search_isMatch (x := x) (pos := pos)
  rw [hsearch] at hbest hlength hmatch
  refine ⟨hlength.1, hlength.2, hbest.absent,
    fun hfound => ⟨(hmatch hfound).inWindow, (hmatch hfound).before, (hmatch hfound).agree⟩,
    fun i m hi hwindow hdata hcap hagree => ?_⟩
  have hm : m ≤ matchAt x pos i := matchAt_max x pos i hdata hcap hagree
  exact ⟨hm.trans (hbest.longest i (by omega) (by omega)),
    fun hfirst => Nat.lt_of_le_of_lt hm (hbest.first i (by omega) hfirst)⟩

/-! ## Every choice is valid (R112, R117, R127) -/

theorem validAt_lit_iff {x : List Byte} {pos : Nat} {b : Byte} : validAt x pos (.lit b) = true ↔ x[pos]? = some b := by
  simp [validAt]

theorem validAt_ref_iff {x : List Byte} {pos d l : Nat} :
    validAt x pos (.ref d l) = true ↔
      (3 ≤ l ∧ l ≤ 273) ∧ (1 ≤ d ∧ d ≤ 4096 ∧ d ≤ pos) ∧ pos + l ≤ x.length ∧
        ∀ k, k < l → x[pos + k]? = x[pos - d + k]? := by
  simp only [validAt, Bool.and_eq_true, decide_eq_true_eq, List.all_eq_true, List.mem_range, beq_iff_eq, and_assoc]
  exact Iff.rfl

/-- A valid item covers at least one byte, and none past the data. -/
theorem validAt_span {x : List Byte} {pos : Nat} {it : Item} (h : validAt x pos it = true) :
    1 ≤ itemSpan it ∧ pos + itemSpan it ≤ x.length := by
  cases it with
  | lit b => exact ⟨Nat.le_refl 1, (List.getElem?_eq_some_iff.1 (validAt_lit_iff.1 h)).1⟩
  | ref d l =>
    obtain ⟨⟨hmin, -⟩, -, hdata, -⟩ := validAt_ref_iff.1 h
    exact ⟨by simp only [itemSpan]; omega, hdata⟩

theorem literalAt_valid {x : List Byte} {pos : Nat} (h : pos < x.length) : validAt x pos (literalAt x pos) = true :=
  validAt_lit_iff.2 (by simp [h])

theorem takeMatch_valid {x : List Byte} {pos l q : Nat} (hpos : pos < x.length) (h : 3 ≤ l → IsMatch x pos l q) :
    validAt x pos (takeMatch x pos l q) = true := by
  unfold takeMatch
  split
  · next hmin =>
    have hmatch := h hmin
    have hbefore := hmatch.before
    have hwindow := hmatch.inWindow
    have hdata := hmatch.inData
    refine validAt_ref_iff.2 ⟨⟨hmin, hmatch.cap⟩, by omega, by omega, fun k hk => ?_⟩
    rw [Nat.sub_sub_self (Nat.le_of_lt hbefore)]
    exact (hmatch.agree k hk).symm
  · exact literalAt_valid hpos

/-- The reference engine with no match carried: the best match here, unless the best one byte later is longer by 2. A
match too short to use is a literal either way. -/
theorem choose_reference_none (x : List Byte) (pos : Nat) :
    choose .reference x pos none =
      if 3 ≤ (search x pos).1 ∧ (search x pos).1 + 2 ≤ (search x (pos + 1)).1
      then (literalAt x pos, some (search x (pos + 1)))
      else (takeMatch x pos (search x pos).1 (search x pos).2, none) := by
  simp only [choose, chooseReference, lazyGain]
  by_cases hmin : 3 ≤ (search x pos).1
  · simp only [minLength, hmin, true_and, if_true]
    congr
  · simp only [takeMatch, minLength, hmin, false_and, if_false]

/-- The deferred match carried to position `pos`, if there is one, is a match there. -/
def CarriesMatch (x : List Byte) (pos : Nat) (carried : Option (Nat × Nat)) : Prop :=
  ∀ l q, carried = some (l, q) → IsMatch x pos l q

/-- Every chooser picks a valid item and carries a match for the position behind it. -/
theorem choose_valid (ch : Chooser) {x : List Byte} {pos : Nat} {carried : Option (Nat × Nat)} (hpos : pos < x.length)
    (h : CarriesMatch x pos carried) :
    validAt x pos (choose ch x pos carried).1 = true ∧
      CarriesMatch x (pos + itemSpan (choose ch x pos carried).1) (choose ch x pos carried).2 := by
  constructor
  · cases ch with
    | other id =>
      simp only [choose, chooseOther]
      split
      · next hvalid => exact hvalid
      · exact literalAt_valid hpos
    | reference =>
      cases carried with
      | some m => exact takeMatch_valid hpos fun _ => h m.1 m.2 rfl
      | none =>
        rw [choose_reference_none]
        split
        · exact literalAt_valid hpos
        · dsimp only
          exact takeMatch_valid hpos fun hmin => search_isMatch (by omega)
  · generalize hpick : choose ch x pos carried = pick
    obtain ⟨it, next⟩ := pick
    rintro l q rfl
    obtain ⟨-, -, rfl, hm, hmin, hgain⟩ := choose_carried hpick
    have hmatch := search_isMatch (x := x) (pos := pos + 1)
    rw [← hm] at hmatch
    exact hmatch (by simp only [minLength] at hmin; omega)

theorem parseFrom_valid (ch : Chooser) {x : List Byte} {fuel pos : Nat} {carried : Option (Nat × Nat)}
    (hpos : pos ≤ x.length) (hfuel : x.length - pos ≤ fuel) (h : CarriesMatch x pos carried) :
    validFrom x pos (parseFrom ch x fuel pos carried) = true := by
  induction fuel generalizing pos carried with
  | zero => exact decide_eq_true (by omega)
  | succ fuel ih =>
    unfold parseFrom
    split
    · next hlt =>
      obtain ⟨hvalid, hcarries⟩ := choose_valid ch hlt h
      obtain ⟨hspan, hdata⟩ := validAt_span hvalid
      rw [validFrom, hvalid, Bool.true_and]
      exact ih hdata (by omega) hcarries
    · exact decide_eq_true (by omega)

/-- Every chooser's parse is valid (R124). -/
theorem parseOf_valid (ch : Chooser) (x : List Byte) : validFrom x 0 (parseOf ch x) = true :=
  parseFrom_valid ch (Nat.zero_le _) (Nat.le_refl _) (fun _ _ h => nomatch h)

end Sys2Proof.Machine

/-! # The round trip of Compress (R111)

The emission of a parse is its groups in order (R57, R114), and the loop of `Decompress` (R101) reads each group of a
valid parse back as the data that its items cover. -/

namespace Sys2Proof.Machine

/-! ## The groups of a body (R57, R114) -/

/-- Whether an item is a literal, which its control bit says (R57). -/
def isLiteral : Item → Bool
  | .lit _ => true
  | .ref _ _ => false

/-- The control bit of an item, the `k`th of its group, as a mask (R121). -/
def controlMask (k : Nat) (it : Item) : Byte := if isLiteral it then (0x80 : Byte) >>> k else 0

/-- The control bits of items, of which the first is the `k`th of its group. -/
def controlBits : Nat → List Item → Byte
  | _, [] => 0
  | k, it :: p => controlMask k it ||| controlBits (k + 1) p

/-- A group of at most eight items: its control byte and their bytes (R57). -/
def groupBytes (g : List Item) : List Byte := controlBits 0 g :: g.flatMap itemBytes

/-- Control bit `k` is bit `7 - k` (R57). -/
theorem getMsbD_controlMask {j k : Nat} (hj : j < 8) (hk : k < 8) (it : Item) :
    (controlMask j it).getMsbD k = (decide (k = j) && isLiteral it) := by
  have hbit : ∀ j < 8, ∀ k < 8, ((0x80 : Byte) >>> j).getMsbD k = decide (k = j) := by decide
  cases it with
  | lit b => exact (hbit j hj k hk).trans (Bool.and_true _).symm
  | ref d l => rw [isLiteral, Bool.and_false]; exact BitVec.getMsbD_zero

/-- The control byte of a group says which of its items are literals. -/
theorem getMsbD_controlBits {j k : Nat} {g : List Item} (hg : j + g.length ≤ 8) (hk : k < 8) :
    (controlBits j g).getMsbD k = if j ≤ k then (g[k - j]?.map isLiteral).getD false else false := by
  induction g generalizing j with
  | nil => simp [controlBits]
  | cons it g ih =>
    simp only [List.length_cons] at hg
    rw [controlBits, BitVec.getMsbD_or, getMsbD_controlMask (by omega) hk, ih (by omega)]
    rcases Nat.lt_trichotomy k j with hlt | rfl | hgt
    · simp [Nat.ne_of_lt hlt, Nat.not_le.2 hlt, Nat.not_le.2 (Nat.lt_succ_of_lt hlt)]
    · simp
    · rw [if_pos (Nat.succ_le_of_lt hgt), if_pos (Nat.le_of_lt hgt), show k - j = k - (j + 1) + 1 by omega]
      simp [Nat.ne_of_gt hgt]

/-- One round of the emission inside an open group, whose control byte is `c`. -/
theorem emitFrom_inside {i : Nat} (hi : i % 8 ≠ 0) (front tail : List Byte) (c : Byte) (it : Item) (p : List Item) :
    emitFrom i front.length (front ++ c :: tail) (it :: p) =
      emitFrom (i + 1) front.length (front ++ (c ||| controlMask (i % 8) it) :: (tail ++ itemBytes it)) p := by
  cases it with
  | lit b => simp [emitFrom, hi, controlMask, isLiteral]
  | ref d l => simp [emitFrom, hi, controlMask, isLiteral]

/-- The first round of a group puts its control byte. -/
theorem emitFrom_opens {i : Nat} (hi : i % 8 = 0) (ctlpos : Nat) (out : List Byte) (it : Item) (p : List Item) :
    emitFrom i ctlpos out (it :: p) = emitFrom (i + 1) out.length (out ++ controlMask 0 it :: itemBytes it) p := by
  cases it with
  | lit b => simp [emitFrom, hi, controlMask, isLiteral]
  | ref d l => simp [emitFrom, hi, controlMask, isLiteral]

/-- The rest of a group: its control bits are added, its bytes follow. -/
theorem emitFrom_rest_of_group {i k : Nat} {g : List Item} (hk : 1 ≤ k) (hi : i % 8 = k % 8) (hg : k + g.length ≤ 8)
    (front tail : List Byte) (c : Byte) (q : List Item) :
    emitFrom i front.length (front ++ c :: tail) (g ++ q) =
      emitFrom (i + g.length) front.length (front ++ (c ||| controlBits k g) :: (tail ++ g.flatMap itemBytes)) q := by
  induction g generalizing i k tail c with
  | nil => simp [controlBits]
  | cons it g ih =>
    simp only [List.length_cons] at hg ⊢
    have hik : i % 8 = k := by omega
    rw [List.cons_append, emitFrom_inside (by omega), hik, ih (k := k + 1) (by omega) (by omega) (by omega), controlBits,
      BitVec.or_assoc, List.flatMap_cons, List.append_assoc, Nat.add_assoc, Nat.add_comm 1]

/-- A whole group is its control byte and its bytes. -/
theorem emitFrom_group {i : Nat} {g : List Item} (hi : i % 8 = 0) (hne : g ≠ []) (hg : g.length ≤ 8) (ctlpos : Nat)
    (out : List Byte) (q : List Item) :
    emitFrom i ctlpos out (g ++ q) = emitFrom (i + g.length) out.length (out ++ groupBytes g) q := by
  obtain ⟨it, g, rfl⟩ := List.exists_cons_of_ne_nil hne
  simp only [List.length_cons] at hg ⊢
  rw [List.cons_append, emitFrom_opens hi, emitFrom_rest_of_group (k := 1) (Nat.le_refl 1) (by omega) (by omega),
    groupBytes, controlBits, List.flatMap_cons, Nat.add_assoc, Nat.add_comm 1]

/-- The items of a parse are a group and the rest, which is empty where the group is not full. -/
theorem exists_group {p : List Item} (hne : p ≠ []) :
    ∃ g q, p = g ++ q ∧ g ≠ [] ∧ g.length ≤ 8 ∧ (g.length = 8 ∨ q = []) ∧ q.length < p.length := by
  have hpos := List.length_pos_of_ne_nil hne
  refine ⟨p.take 8, p.drop 8, (List.take_append_drop 8 p).symm, ?_, ?_, ?_, ?_⟩
  · simp [hne]
  · simp
  · rw [List.drop_eq_nil_iff, List.length_take]; omega
  · rw [List.length_drop]; omega

/-- At a group boundary the emission appends a body of its own. -/
theorem emitFrom_boundary {i : Nat} (hi : i % 8 = 0) (ctlpos : Nat) (out : List Byte) (p : List Item) :
    emitFrom i ctlpos out p = out ++ emit p := by
  by_cases hne : p = []
  · rw [hne]; exact (List.append_nil out).symm
  · obtain ⟨g, q, rfl, hg, hlen, hfull, hshort⟩ := exists_group hne
    rw [emit, emitFrom_group hi hg hlen, emitFrom_group rfl hg hlen, List.nil_append]
    rcases hfull with hfull | rfl
    · rw [emitFrom_boundary (by omega) _ _ q, emitFrom_boundary (by omega) _ _ q, List.append_assoc]
    · rfl
termination_by p.length

/-- A body is its groups in order. -/
theorem emit_group_append {g q : List Item} (hne : g ≠ []) (hg : g.length ≤ 8) (hfull : g.length = 8 ∨ q = []) :
    emit (g ++ q) = groupBytes g ++ emit q := by
  rw [emit, emitFrom_group rfl hne hg, List.nil_append]
  rcases hfull with hfull | rfl
  · exact emitFrom_boundary (by omega) _ _ q
  · exact (List.append_nil _).symm

/-! ## Decoding what was emitted (R111) -/

/-- The token of a valid item is read back from its bytes, whatever follows (R64). -/
theorem decodeToken_itemBytes {x : List Byte} {pos : Nat} {it : Item} (h : validAt x pos it = true) (more : List Byte) :
    decodeToken (isLiteral it) (itemBytes it ++ more) = .ok (itemInstr it, more) := by
  cases it with
  | lit b => rfl
  | ref d l =>
    obtain ⟨⟨hmin, -⟩, -⟩ := validAt_ref_iff.1 h
    by_cases hshort : l ≤ 17
    · have hne := (shortLength_field hmin hshort).1
      rw [itemBytes_ref_short hshort, itemInstr, referenceInstr_eq, if_pos hshort]
      have hdecode := decodeReference_short (a := BitVec.ofNat 4 (l - 2) ++ BitVec.ofNat 4 ((d - 1) / 256))
        (by rwa [highNibble_append]) (BitVec.ofNat 8 ((d - 1) % 256)) more
      rwa [highNibble_append, lowNibble_append] at hdecode
    · rw [itemBytes_ref_long hshort, itemInstr, referenceInstr_eq, if_neg hshort]
      have hdecode := decodeReference_long (highNibble_append 0 (BitVec.ofNat 4 ((d - 1) / 256)))
        (BitVec.ofNat 8 ((d - 1) % 256)) (BitVec.ofNat 8 (l - 18)) more
      rwa [lowNibble_append] at hdecode

theorem take_append_of_getElem? {x : List Byte} {n : Nat} {v : Byte} (h : x[n]? = some v) :
    x.take n ++ [v] = x.take (n + 1) := by
  rw [List.take_add_one, h]
  rfl

/-- A copy from a match's distance appends the bytes of the data (R97). -/
theorem copyOut_take {x : List Byte} {pos d l : Nat} (hd : 1 ≤ d) (hback : d ≤ pos) (hdata : pos + l ≤ x.length)
    (hagree : ∀ k, k < l → x[pos + k]? = x[pos - d + k]?) :
    copyOut x.length d l (x.take pos) = x.take (pos + l) := by
  induction l generalizing pos with
  | zero => rfl
  | succ l ih =>
    have hlength : (x.take pos).length = pos := List.length_take_of_le (by omega)
    have hbyte : x[pos]? = some ((x.take pos).getD (pos - d) 0) := by
      rw [List.getD, List.getElem?_take_of_lt (by omega)]
      have hfirst : x[pos]? = x[pos - d]? := hagree 0 (Nat.succ_pos l)
      rw [← hfirst, List.getElem?_eq_getElem (by omega)]
      rfl
    have hrest : ∀ k, k < l → x[pos + 1 + k]? = x[pos + 1 - d + k]? := fun k hk => by
      have := hagree (k + 1) (by omega)
      rwa [show pos + (k + 1) = pos + 1 + k by omega, show pos - d + (k + 1) = pos + 1 - d + k by omega] at this
    rw [copyOut, hlength, if_neg (by omega), take_append_of_getElem? hbyte, ih (by omega) (by omega) hrest]
    congr 1
    omega

/-- The token of a valid item appends the bytes of the data that the item covers (R94 to R96, R113). -/
theorem tokenOutput_itemInstr {x : List Byte} {pos : Nat} {it : Item} (h : validAt x pos it = true) :
    tokenOutput x.length (x.take pos) (itemInstr it) = .ok (x.take (pos + itemSpan it)) := by
  cases it with
  | lit b => exact congrArg Except.ok (take_append_of_getElem? (validAt_lit_iff.1 h))
  | ref d l =>
    obtain ⟨⟨hmin, hmax⟩, ⟨hd, hdmax, hback⟩, hdata, hagree⟩ := validAt_ref_iff.1 h
    have hdistance := distance_fields hd hdmax
    have hlength : (x.take pos).length = pos := List.length_take_of_le (by omega)
    have hcopy := copyOut_take hd hback hdata hagree
    rw [itemInstr, referenceInstr_eq]
    split
    · next hshort =>
      rw [tokenOutput, hdistance, (shortLength_field hmin hshort).2, hlength, if_neg (Nat.not_lt.2 hback), hcopy]
      rfl
    · rw [tokenOutput, hdistance, longLength_field (by omega) hmax, hlength, if_neg (Nat.not_lt.2 hback), hcopy]
      rfl

/-- The bytes of the data that items cover (R112). -/
def spanSum (p : List Item) : Nat := (p.map itemSpan).sum

/-- A round of the loop of `Decompress` reads a valid item. -/
theorem decompressLoop_item {x : List Byte} {pos cnt : Nat} {ctl : Byte} {it : Item} (h : validAt x pos it = true)
    (hcnt : cnt ≠ 0) (hctl : ctl.msb = isLiteral it) (fuel : Nat) (more : List Byte) :
    decompressLoop x.length (fuel + 1) (itemBytes it ++ more) ctl cnt (x.take pos) =
      decompressLoop x.length fuel more (ctl <<< 1) (cnt - 1) (x.take (pos + itemSpan it)) := by
  obtain ⟨hspan, hdata⟩ := validAt_span h
  rw [decompressLoop_token (by rw [List.length_take]; omega) hcnt, hctl, decodeToken_itemBytes h]
  show (tokenOutput _ _ (itemInstr it)).bind _ = _
  rw [tokenOutput_itemInstr h]
  rfl

/-- The loop of `Decompress` reads the valid items of a group, whose control bits are next in `ctl`. -/
theorem decompressLoop_items {x : List Byte} {g q : List Item} {pos cnt : Nat} {ctl : Byte}
    (h : validFrom x pos (g ++ q) = true) (hcnt : g.length ≤ cnt) (hcnt8 : cnt ≤ 8)
    (hctl : ∀ k (hk : k < g.length), ctl.getMsbD k = isLiteral g[k]) (fuel : Nat) (more : List Byte) :
    validFrom x (pos + spanSum g) q = true ∧ ∃ ctl',
      decompressLoop x.length (fuel + g.length) (g.flatMap itemBytes ++ more) ctl cnt (x.take pos) =
        decompressLoop x.length fuel more ctl' (cnt - g.length) (x.take (pos + spanSum g)) := by
  induction g generalizing pos cnt ctl with
  | nil => exact ⟨h, ctl, rfl⟩
  | cons it g ih =>
    simp only [List.length_cons] at hcnt hctl ⊢
    rw [List.cons_append, validFrom, Bool.and_eq_true] at h
    obtain ⟨hvalid, hrest⟩ := h
    have hmsb : ctl.msb = isLiteral it := hctl 0 (Nat.succ_pos _)
    have hshift : ∀ k (hk : k < g.length), (ctl <<< 1).getMsbD k = isLiteral g[k] := fun k hk => by
      rw [BitVec.getMsbD_shiftLeft]
      exact hctl (k + 1) (Nat.succ_lt_succ hk)
    obtain ⟨hq, ctl', hloop⟩ := ih hrest (cnt := cnt - 1) (by omega) (by omega) hshift
    have hspan : pos + spanSum (it :: g) = pos + itemSpan it + spanSum g := by
      simp only [spanSum, List.map_cons, List.sum_cons, Nat.add_assoc]
    rw [hspan]
    refine ⟨hq, ctl', ?_⟩
    rw [List.flatMap_cons, List.append_assoc, ← Nat.add_assoc, decompressLoop_item hvalid (by omega) hmsb, hloop]
    congr 1
    omega

/-- A valid parse has at most as many items as bytes are left. -/
theorem validFrom_length {x : List Byte} {pos : Nat} {p : List Item} (h : validFrom x pos p = true) :
    pos + p.length ≤ x.length := by
  induction p generalizing pos with
  | nil => exact Nat.le_of_eq (of_decide_eq_true h)
  | cons it p ih =>
    rw [validFrom, Bool.and_eq_true] at h
    have hspan := (validAt_span h.1).1
    have hrest := ih h.2
    simp only [List.length_cons]
    omega

/-- At a group boundary the loop of `Decompress` reads a valid parse's body and gives the data. -/
theorem decompressLoop_emit {x : List Byte} {pos fuel : Nat} {p : List Item} (h : validFrom x pos p = true)
    (hfuel : p.length ≤ fuel) (ctl : Byte) :
    decompressLoop x.length fuel (emit p) ctl 0 (x.take pos) = .ok x := by
  by_cases hne : p = []
  · have hpos : pos = x.length := by rw [hne] at h; exact of_decide_eq_true h
    rw [hpos, List.take_length, decompressLoop_full (Nat.lt_irrefl _)]
  · obtain ⟨g, q, rfl, hg, hlen, hfull, hshort⟩ := exists_group hne
    have hroom := validFrom_length h
    have hpos := List.length_pos_of_ne_nil hg
    rw [List.length_append] at hfuel hroom
    have hcontrol : ∀ k (hk : k < g.length), (controlBits 0 g).getMsbD k = isLiteral g[k] := fun k hk => by
      rw [getMsbD_controlBits (by omega) (by omega), if_pos (Nat.zero_le k), Nat.sub_zero, List.getElem?_eq_getElem hk]
      rfl
    obtain ⟨hrest, ctl', hloop⟩ := decompressLoop_items h hlen (Nat.le_refl 8) hcontrol (fuel - g.length) (emit q)
    rw [Nat.sub_add_cancel (by omega)] at hloop
    have hopen := decompressLoop_control (size := x.length) (out := x.take pos) (by rw [List.length_take]; omega)
      (fuel - 1) (controlBits 0 g) (g.flatMap itemBytes ++ emit q) ctl
    rw [Nat.sub_add_cancel (by omega)] at hopen
    rw [emit_group_append hg hlen hfull, groupBytes, List.cons_append, hopen, hloop]
    rcases hfull with hfull | rfl
    · rw [hfull]
      exact decompressLoop_emit hrest (by omega) ctl'
    · have hend : pos + spanSum g = x.length := of_decide_eq_true hrest
      rw [hend, List.take_length, decompressLoop_full (Nat.lt_irrefl _)]
termination_by p.length

/-! ## The stream (R115) -/

/-- The header's bytes, the size by quotients. -/
theorem header_eq (m : BitVec 32) :
    header m = [0x59, 0x61, 0x7A, 0x30, BitVec.ofNat 8 (m.toNat / 2 ^ 24), BitVec.ofNat 8 (m.toNat / 2 ^ 16),
      BitVec.ofNat 8 (m.toNat / 2 ^ 8), BitVec.ofNat 8 m.toNat, 0, 0, 0, 0, 0, 0, 0, 0] := by
  have hbyte : ∀ k, m.extractLsb' k 8 = BitVec.ofNat 8 (m.toNat / 2 ^ k) := fun k => by
    apply BitVec.eq_of_toNat_eq
    rw [BitVec.extractLsb'_toNat, BitVec.toNat_ofNat, Nat.shiftRight_eq_div_pow]
  have hlow := hbyte 0
  rw [Nat.pow_zero, Nat.div_one] at hlow
  rw [header, be32, hbyte 24, hbyte 16, hbyte 8, hlow]
  rfl

/-- The declared size of a stream is the number its header was made with (R41). -/
theorem declaredSizeOf_header (m : BitVec 32) (body : List Byte) : declaredSizeOf (header m ++ body) = m := by
  have hm := m.isLt
  show readBE32 (m.extractLsb' 24 8) (m.extractLsb' 16 8) (m.extractLsb' 8 8) (m.extractLsb' 0 8) = m
  apply BitVec.eq_of_toNat_eq
  simp only [readBE32_toNat, BitVec.extractLsb'_toNat, Nat.shiftRight_eq_div_pow]
  omega

/-- `Decompress` gives back the data from the stream of a valid parse (R102, R124). -/
theorem decompress_streamOf {x : List Byte} {p : List Item} {dstMax : Option Nat} (hx : x.length < 2 ^ 32)
    (h : validFrom x 0 p = true) (hfits : fits dstMax x.length = true) :
    decompress dstMax (streamOf x.length p) = .ok x := by
  have hsize : (declaredSizeOf (streamOf x.length p)).toNat = x.length := by
    rw [streamOf, declaredSizeOf_header, BitVec.toNat_ofNat, Nat.mod_eq_of_lt hx]
  have hlength : ¬ (streamOf x.length p).length < 16 := by
    rw [streamOf, List.length_append, header_length]
    omega
  have hmagic : (streamOf x.length p).take 4 = magic := rfl
  have hroom := validFrom_length h
  rw [decompress, if_neg (not_or.2 ⟨by omega, not_not_intro hmagic⟩), if_neg hlength]
  simp only [hsize, hfits, Bool.true_eq_false, if_false]
  exact decompressLoop_emit h (by omega) 0

theorem compress_ok {cfg : Config} {x s : List Byte} (h : compress cfg x = .ok s) :
    s = streamOf x.length (parseOf cfg.chooser x) := by
  unfold compress at h
  dsimp only at h
  split at h
  · exact (Except.ok.inj h).symm
  · cases h

/-- Settles O44: the stream is the header and the emission of the chooser's parse, which is valid. -/
theorem compressContract : Obligations.CompressContract := by
  unfold Obligations.CompressContract
  intro cfg x s hx hs
  have hvalid := parseOf_valid cfg.chooser x
  obtain rfl := compress_ok hs
  refine ⟨?_, decompress_streamOf hx hvalid rfl, hx, _, hvalid, rfl⟩
  rw [streamOf, List.take_left' (header_length _), header_eq, BitVec.toNat_ofNat, Nat.mod_eq_of_lt hx]

end Sys2Proof.Machine

/-! # A step of COMP (R110, R117 to R122)

An item is emitted alike in both forms: a group is opened where one is due and the item's control bit set, which gives
`State.markedDst`; its bytes follow at `State.tokenAt`; the token is closed, and COMP ends at the end of the data. -/

namespace Sys2Proof.Machine

theorem exec_comp_start {s : State} (h : s.started = false) : exec .comp s = finish s (compStart s) :=
  congrArg (finish s) (if_neg (ne_true_of_eq_false h))

theorem exec_comp_step {s : State} (h : s.started = true) : exec .comp s = finish s (compStep s) :=
  congrArg (finish s) (if_pos h)

/-! ## The start step (R110, R115) -/

/-- The encoder's registers as the start step sets them, with the header in DST. -/
def State.encoderReset (s : State) (m : Memory) : State :=
  { s with dst := m, dp := 16, ep := 0, nbits := 0, ctlpos := 0, deferV := false, started := true }

/-- The start step behind its write of the header. -/
theorem compStart_of_header {s : State} {m : Memory} (h : writeDstList 0 (header s.srcLen) s = .ok { s with dst := m }) :
    compStart s = .ok (if s.srcLen = 0 then (s.encoderReset m).complete 16 0 else s.encoderReset m) := by
  rw [compStart, h]
  rfl

/-- Every DST has room for a header (R7). -/
theorem State.fitsDst_header {s : State} (h : s.cfg.wf = true) : s.fitsDst 16 = true :=
  (Bool.and_eq_true_iff.1 h).2

/-- Settles O34: the header is written to DST, where there is always room for it. -/
theorem compStartWritesHeader : Obligations.CompStartWritesHeader := by
  unfold Obligations.CompStartWritesHeader
  intro s hstart hcfg
  have hroom := (s.fitsDst_iff 16).1 (State.fitsDst_header hcfg)
  obtain ⟨m, hwrite, hread, -⟩ := writeDstList_ok (a := 0) (vs := header s.srcLen) (s := s) fun k hk =>
    hroom _ (by rw [header_length] at hk; omega)
  rw [header_length] at hread
  rw [exec_comp_start hstart, compStart_of_header hwrite, finish_ok]
  have hdst : (if s.srcLen = 0 then (s.encoderReset m).complete 16 0 else s.encoderReset m).dst = m := by
    split <;> rfl
  refine ⟨_, rfl, fun a ha => ?_, fun a ha => ?_, ?_⟩
  · rw [hdst, hread, if_pos (by omega), header_eq]
    rfl
  · rw [hdst, hread, if_neg (by omega)]
  · rw [hdst]
    by_cases hempty : s.srcLen = 0
    · simp only [if_pos hempty]
      rfl
    · simp only [if_neg hempty]
      rfl

/-! ## Emission of an item (R119 to R121) -/

/-- Where the control byte of the next token's group stands. -/
def State.controlAt (s : State) : BitVec 33 := if s.nbits = 0 then s.dp else s.ctlpos

/-- Where the next token's bytes go: behind a new group's control byte where one is due. -/
def State.tokenAt (s : State) : Nat := if s.nbits = 0 then s.dp.toNat + 1 else s.dp.toNat

/-- DST once a group is open for the next token. -/
def State.openedDst (s : State) : Memory := if s.nbits = 0 then Memory.write s.dp.toNat 0 s.dst else s.dst

/-- The open group's control byte with the bit of a literal set. -/
def State.literalControl (s : State) : Byte :=
  (if s.nbits = 0 then 0 else s.dstByte s.ctlpos.toNat) ||| ((0x80 : Byte) >>> s.nbits.toNat)

/-- DST once the next token's group is open and its control bit is that of the item. -/
def State.markedDst (s : State) : Item → Memory
  | .lit _ => Memory.write s.controlAt.toNat s.literalControl s.openedDst
  | .ref _ _ => s.openedDst

/-- The write of an item's control bit (R121): a back-reference leaves its bit 0. -/
def markItem : Item → State → Except Stop State
  | .lit _, s => setLiteralBit s
  | .ref _ _, s => .ok s

theorem putBytes_singleton (v : Byte) (s : State) : putBytes [v] s = putByte v s := by
  rw [putBytes]
  cases putByte v s <;> rfl

/-- Both emissions are one sequence: the group and the control bit, the bytes, the end of the token. -/
theorem emitItem_eq (it : Item) (s : State) :
    emitItem it s = ((openGroup s).bind (markItem it)).bind fun s =>
      (putBytes (itemBytes it) s).map fun s => s.closeToken (itemSpan it) := by
  cases it with
  | lit b =>
    simp only [emitItem, emitLit, itemBytes_lit, putBytes_singleton, itemSpan]
    cases openGroup s <;> rfl
  | ref d l =>
    simp only [emitItem, emitRef, itemSpan]
    cases openGroup s <;> rfl

/-- A literal's control bit is set in a byte that lies below the token's bytes. -/
def State.ControlBelow (s : State) (it : Item) : Prop :=
  isLiteral it = true → s.nbits ≠ 0 → s.ctlpos.toNat < s.dp.toNat

theorem State.controlAt_lt {s : State} {it : Item} (h : s.ControlBelow it) (hlit : isLiteral it = true) :
    s.controlAt.toNat < s.tokenAt := by
  unfold State.controlAt State.tokenAt
  split
  · exact Nat.lt_succ_self _
  · next hinside => exact h hlit hinside

theorem State.fitsDst_of_le {s : State} {m n : Nat} (h : s.fitsDst n = true) (hmn : m ≤ n) : s.fitsDst m = true :=
  (s.fitsDst_iff m).2 fun a ha => (s.fitsDst_iff n).1 h a (Nat.lt_of_lt_of_le ha hmn)

/-- Where the group has room, it is opened and the control bit written. -/
theorem openGroup_markItem_ok {s : State} {it : Item} (hw : s.tokenAt + 1 < 2 ^ 33) (hf : s.fitsDst s.tokenAt = true)
    (hc : s.ControlBelow it) :
    ∃ d, (openGroup s).bind (markItem it) = .ok { s with dst := s.markedDst it, dp := d, ctlpos := s.controlAt } ∧
      d.toNat = s.tokenAt := by
  have hin := (s.fitsDst_iff _).1 hf
  have hdp : s.dp.toNat ≤ s.tokenAt := by unfold State.tokenAt; split <;> omega
  obtain ⟨u, hopen, hu, hctl, hudp, hdst⟩ := openGroup_ok (s := s) (by omega) fun hdue =>
    hin _ (by rw [State.tokenAt, if_pos hdue]; omega)
  rw [hopen]
  refine ⟨u.dp, ?_, hudp⟩
  have hu' : u = { s with dst := s.openedDst, dp := u.dp, ctlpos := s.controlAt } := by
    rw [State.controlAt, State.openedDst, ← hctl, ← hdst]
    exact hu
  cases it with
  | ref d l => exact congrArg Except.ok hu'
  | lit b =>
    have hbyte : u.dstByte u.ctlpos.toNat = if s.nbits = 0 then 0 else s.dstByte s.ctlpos.toNat := by
      by_cases hdue : s.nbits = 0
      · rw [if_pos hdue] at hctl hdst ⊢
        rw [hctl, State.dstByte, hdst, Memory.read_write_same]
      · rw [if_neg hdue] at hctl hdst ⊢
        have hresets : u.resets = s.resets := by rw [hu]
        rw [hctl, State.dstByte_congr hdst hresets]
    show setLiteralBit u = _
    rw [setLiteralBit, hbyte]
    refine writeDst_ok_iff.2 ⟨?_, ?_⟩
    · rw [State.inDst_congr (congrArg State.cfg hu), hctl]
      exact hin _ (State.controlAt_lt hc rfl)
    · rw [hu']
      rfl

/-- An item that fits DST: its control bit, and its bytes from where its group leaves room. -/
theorem emitItem_ok {s : State} {it : Item} (hw : s.tokenAt + (itemBytes it).length < 2 ^ 33)
    (hf : s.fitsDst (s.tokenAt + (itemBytes it).length) = true) (hc : s.ControlBelow it) :
    ∃ m d, emitItem it s = .ok (({ s with dst := m, dp := d, ctlpos := s.controlAt } : State).closeToken (itemSpan it)) ∧
      d.toNat = s.tokenAt + (itemBytes it).length ∧
      ∀ a, Memory.read m a =
        if s.tokenAt ≤ a ∧ a < s.tokenAt + (itemBytes it).length then (itemBytes it)[a - s.tokenAt]?
        else Memory.read (s.markedDst it) a := by
  have hpos := itemBytes_length_pos it
  obtain ⟨d, hmark, hd⟩ := openGroup_markItem_ok (by omega) (State.fitsDst_of_le hf (Nat.le_add_right _ _)) hc
  rw [emitItem_eq, hmark]
  rw [← hd] at hw hf ⊢
  obtain ⟨m, hput, hread, -⟩ :=
    putBytes_ok (s := { s with dst := s.markedDst it, dp := d, ctlpos := s.controlAt }) hw hf
  refine ⟨m, d + BitVec.ofNat 33 (itemBytes it).length, ?_, ?_, hread⟩
  · simp only [Except.bind, hput, Except.map]
  · rw [BitVec.toNat_add, BitVec.toNat_ofNat]
    omega

/-- An item that does not fit DST raises DstOverflow (R123). -/
theorem emitItem_overflow {s : State} {it : Item} (hw : s.tokenAt + (itemBytes it).length < 2 ^ 33)
    (hdp : s.fitsDst s.dp.toNat = true) (hf : s.fitsDst (s.tokenAt + (itemBytes it).length) = false)
    (hc : s.ControlBelow it) : emitItem it s = .error (.raise .dstOverflow) := by
  have hpos := itemBytes_length_pos it
  rw [emitItem_eq]
  cases hroom : s.fitsDst s.tokenAt with
  | true =>
    obtain ⟨d, hmark, hd⟩ := openGroup_markItem_ok (by omega) hroom hc
    rw [hmark]
    rw [← hd] at hw hf hroom
    have hput := putBytes_overflow (s := { s with dst := s.markedDst it, dp := d, ctlpos := s.controlAt }) hw hroom hf
    simp only [Except.bind, hput, Except.map]
  | false =>
    obtain ⟨a, ha, hout⟩ := State.fitsDst_false hroom
    have hdue : s.nbits = 0 := by
      by_contra hinside
      rw [State.tokenAt, if_neg hinside, hdp] at hroom
      cases hroom
    have hopen : openGroup s = .error (.raise .dstOverflow) := by
      rw [openGroup, if_pos hdue]
      refine putByte_overflow (s := { s with ctlpos := s.dp }) ?_
      rw [State.tokenAt, if_pos hdue] at ha
      have habove : ¬ a < s.dp.toNat := fun hlt => by
        rw [(s.fitsDst_iff _).1 hdp a hlt] at hout
        cases hout
      obtain rfl : a = s.dp.toNat := by omega
      exact hout
    rw [hopen]
    rfl

/-! ## What an emission leaves unchanged -/

theorem except_bind_ok {r : Except Stop State} {f : State → Except Stop State} {t : State} (h : r.bind f = .ok t) :
    ∃ u, r = .ok u ∧ f u = .ok t := by
  cases r with
  | error e => cases h
  | ok u => exact ⟨u, rfl, h⟩

theorem except_map_ok {r : Except Stop State} {f : State → State} {t : State} (h : r.map f = .ok t) :
    ∃ u, r = .ok u ∧ t = f u := by
  cases r with
  | error e => cases h
  | ok u => exact ⟨u, rfl, (Except.ok.inj h).symm⟩

/-- `t` is `s` but for what the encoder writes inside a token. -/
def OutputOnly (s t : State) : Prop := ∃ m d c, t = { s with dst := m, dp := d, ctlpos := c }

theorem OutputOnly.trans {s t u : State} (h : OutputOnly s t) (h' : OutputOnly t u) : OutputOnly s u := by
  obtain ⟨_, _, _, rfl⟩ := h
  obtain ⟨m, d, c, rfl⟩ := h'
  exact ⟨m, d, c, rfl⟩

theorem putByte_outputOnly {v : Byte} {s t : State} (h : putByte v s = .ok t) : OutputOnly s t :=
  ⟨_, _, _, (putByte_ok_iff.1 h).2⟩

theorem putBytes_outputOnly {vs : List Byte} {s t : State} (h : putBytes vs s = .ok t) : OutputOnly s t := by
  induction vs generalizing s with
  | nil => exact ⟨_, _, _, (Except.ok.inj h).symm⟩
  | cons v vs ih =>
    obtain ⟨u, hu, hrest⟩ := except_bind_ok h
    exact (putByte_outputOnly hu).trans (ih hrest)

theorem openGroup_outputOnly {s t : State} (h : openGroup s = .ok t) : OutputOnly s t := by
  unfold openGroup at h
  split at h
  · exact OutputOnly.trans ⟨_, _, _, rfl⟩ (putByte_outputOnly h)
  · exact ⟨_, _, _, (Except.ok.inj h).symm⟩

theorem markItem_outputOnly {it : Item} {s t : State} (h : markItem it s = .ok t) : OutputOnly s t := by
  cases it with
  | lit b => exact ⟨_, _, _, (writeDst_ok_iff.1 h).2⟩
  | ref d l => exact ⟨_, _, _, (Except.ok.inj h).symm⟩

/-- An emitted item moves `EP` and `NBITS` on; besides it changes only what the encoder writes inside a token. -/
theorem emitItem_outputOnly {it : Item} {s t : State} (h : emitItem it s = .ok t) :
    ∃ u, OutputOnly s u ∧ t = u.closeToken (itemSpan it) := by
  rw [emitItem_eq] at h
  obtain ⟨w, hmark, hrest⟩ := except_bind_ok h
  obtain ⟨v, hopen, hset⟩ := except_bind_ok hmark
  obtain ⟨u, hput, ht⟩ := except_map_ok hrest
  exact ⟨u, (openGroup_outputOnly hopen).trans ((markItem_outputOnly hset).trans (putBytes_outputOnly hput)), ht⟩

/-! ## The token step (R122) -/

/-- COMP ends at the end of the data (R122). -/
def State.endIfRead (s : State) : State := if s.ep = s.srcLen then s.complete s.dp 0 else s

/-- The state behind an item of the given span, before COMP's end is judged. -/
def State.afterItem (s : State) (carried : Option (Nat × Nat)) (span : Nat) (m : Memory) (dp ctlpos : BitVec 33) : State :=
  ({ s.setDeferred carried with dst := m, dp := dp, ctlpos := ctlpos } : State).closeToken span

/-- The end of COMP changes the status registers alone. -/
theorem endIfRead_frame (s : State) :
    s.endIfRead = { s with status := s.endIfRead.status, dstLen := s.endIfRead.dstLen,
                           result := s.endIfRead.result } := by
  by_cases hend : s.ep = s.srcLen
  · rw [State.endIfRead, if_pos hend]
    rfl
  · rw [State.endIfRead, if_neg hend]

@[simp] theorem endIfRead_srcLen (s : State) : s.endIfRead.srcLen = s.srcLen := by rw [endIfRead_frame]
@[simp] theorem endIfRead_dp (s : State) : s.endIfRead.dp = s.dp := by rw [endIfRead_frame]
@[simp] theorem endIfRead_ep (s : State) : s.endIfRead.ep = s.ep := by rw [endIfRead_frame]
@[simp] theorem endIfRead_ctlpos (s : State) : s.endIfRead.ctlpos = s.ctlpos := by rw [endIfRead_frame]
@[simp] theorem endIfRead_nbits (s : State) : s.endIfRead.nbits = s.nbits := by rw [endIfRead_frame]
@[simp] theorem endIfRead_deferV (s : State) : s.endIfRead.deferV = s.deferV := by rw [endIfRead_frame]
@[simp] theorem endIfRead_deferLen (s : State) : s.endIfRead.deferLen = s.deferLen := by rw [endIfRead_frame]
@[simp] theorem endIfRead_deferPos (s : State) : s.endIfRead.deferPos = s.deferPos := by rw [endIfRead_frame]
@[simp] theorem endIfRead_dst (s : State) : s.endIfRead.dst = s.dst := by rw [endIfRead_frame]

/-- The writes of COMP's end (R122). -/
theorem endIfRead_status (s : State) :
    if s.ep = s.srcLen then s.endIfRead.status = .done ∧ s.endIfRead.dstLen = s.dp ∧ s.endIfRead.result = 0
    else s.endIfRead.status = s.status ∧ s.endIfRead.dstLen = s.dstLen ∧ s.endIfRead.result = s.result := by
  by_cases hend : s.ep = s.srcLen
  · rw [State.endIfRead, if_pos hend, if_pos hend]
    exact ⟨rfl, rfl, rfl⟩
  · rw [State.endIfRead, if_neg hend, if_neg hend]
    exact ⟨rfl, rfl, rfl⟩

section AfterItem

variable (s : State) (carried : Option (Nat × Nat)) (span : Nat) (m : Memory) (dp ctlpos : BitVec 33)

@[simp] theorem State.afterItem_ep : (s.afterItem carried span m dp ctlpos).ep = s.ep + BitVec.ofNat 32 span := by
  simp [State.afterItem]

@[simp] theorem State.afterItem_nbits : (s.afterItem carried span m dp ctlpos).nbits = s.nbits + 1 := by
  simp [State.afterItem]

@[simp] theorem State.afterItem_srcLen : (s.afterItem carried span m dp ctlpos).srcLen = s.srcLen := by
  simp [State.afterItem]

@[simp] theorem State.afterItem_deferV : (s.afterItem carried span m dp ctlpos).deferV = carried.isSome := by
  simp [State.afterItem]

/-- The deferred match behind an item is the one carried on (R117). -/
theorem State.afterItem_deferred :
    match carried with
    | some (l, q) => (s.afterItem carried span m dp ctlpos).deferLen = BitVec.ofNat 9 l ∧
        (s.afterItem carried span m dp ctlpos).deferPos = BitVec.ofNat 32 q
    | none => (s.afterItem carried span m dp ctlpos).deferLen = s.deferLen ∧
        (s.afterItem carried span m dp ctlpos).deferPos = s.deferPos := by
  cases carried <;> exact ⟨rfl, rfl⟩

/-- The writes of COMP's end behind an item. -/
theorem State.afterItem_status :
    let t := (s.afterItem carried span m dp ctlpos).endIfRead
    if s.ep + BitVec.ofNat 32 span = s.srcLen then t.status = .done ∧ t.dstLen = dp ∧ t.result = 0
    else t.status = s.status ∧ t.dstLen = s.dstLen ∧ t.result = s.result := by
  have h := endIfRead_status (s.afterItem carried span m dp ctlpos)
  cases carried <;> exact h

/-- What a token step leaves unchanged. -/
theorem State.afterItem_frame :
    let u := s.afterItem carried span m dp ctlpos
    u.endIfRead = { s with ctlpos := u.ctlpos, dp := u.dp, ep := u.ep, nbits := u.nbits, dst := u.dst, deferV := u.deferV,
                           deferLen := u.deferLen, deferPos := u.deferPos, status := u.endIfRead.status,
                           dstLen := u.endIfRead.dstLen, result := u.endIfRead.result } := by
  have h := endIfRead_frame (s.afterItem carried span m dp ctlpos)
  cases carried <;> exact h

end AfterItem

/-- The token step with the chooser's pick. -/
theorem compStep_eq {s : State} {it : Item} {carried : Option (Nat × Nat)} (hep : s.ep.toNat < s.srcLen.toNat)
    (hpick : choose s.cfg.chooser s.input s.ep.toNat s.deferred = (it, carried)) :
    compStep s = (emitItem it (s.setDeferred carried)).map State.endIfRead := by
  rw [compStep, if_pos hep, hpick]
  rfl

/-- All that a token step can do: the chooser picks, and the item is emitted. -/
theorem compStep_ok {s t : State} (h : compStep s = .ok t) :
    s.ep.toNat < s.srcLen.toNat ∧ ∃ it carried m d c,
      choose s.cfg.chooser s.input s.ep.toNat s.deferred = (it, carried) ∧
      t = (s.afterItem carried (itemSpan it) m d c).endIfRead := by
  by_cases hep : s.ep.toNat < s.srcLen.toNat
  · rw [compStep_eq hep rfl] at h
    obtain ⟨u, hemit, rfl⟩ := except_map_ok h
    obtain ⟨_, ⟨m, d, c, rfl⟩, rfl⟩ := emitItem_outputOnly hemit
    exact ⟨hep, _, _, m, d, c, rfl, rfl⟩
  · rw [compStep, if_neg hep] at h
    cases h

/-- The deferred match is no part of what the emission reads. -/
theorem State.setDeferred_eq (s : State) (carried : Option (Nat × Nat)) :
    ∃ v l q, s.setDeferred carried = { s with deferV := v, deferLen := l, deferPos := q } := by
  cases carried <;> exact ⟨_, _, _, rfl⟩

/-- The pick does not fit DST: DstOverflow (R123). -/
theorem exec_comp_overflow {s : State} {it : Item} {carried : Option (Nat × Nat)} (hstart : s.started = true)
    (hep : s.ep.toNat < s.srcLen.toNat) (hpick : choose s.cfg.chooser s.input s.ep.toNat s.deferred = (it, carried))
    (hw : s.tokenAt + (itemBytes it).length < 2 ^ 33) (hc : s.ControlBelow it) (hdp : s.fitsDst s.dp.toNat = true)
    (hf : s.fitsDst (s.tokenAt + (itemBytes it).length) = false) :
    ∃ t, exec .comp s = .next t ∧ s.FaultEntered .dstOverflow t := by
  obtain ⟨v, l, q, hset⟩ := s.setDeferred_eq carried
  rw [exec_comp_step hstart, compStep_eq hep hpick, hset,
    emitItem_overflow (s := { s with deferV := v, deferLen := l, deferPos := q }) hw hdp hf hc]
  exact finish_faultEntered rfl

/-- The pick fits DST: it is emitted (R119 to R122). -/
theorem exec_comp_emits {s : State} {it : Item} {carried : Option (Nat × Nat)} (hstart : s.started = true)
    (hep : s.ep.toNat < s.srcLen.toNat) (hpick : choose s.cfg.chooser s.input s.ep.toNat s.deferred = (it, carried))
    (hw : s.tokenAt + (itemBytes it).length < 2 ^ 33) (hc : s.ControlBelow it)
    (hf : s.fitsDst (s.tokenAt + (itemBytes it).length) = true) :
    ∃ m d, exec .comp s = .next (s.afterItem carried (itemSpan it) m d s.controlAt).endIfRead ∧
      d.toNat = s.tokenAt + (itemBytes it).length ∧
      ∀ a, Memory.read m a =
        if s.tokenAt ≤ a ∧ a < s.tokenAt + (itemBytes it).length then (itemBytes it)[a - s.tokenAt]?
        else Memory.read (s.markedDst it) a := by
  obtain ⟨v, l, q, hset⟩ := s.setDeferred_eq carried
  obtain ⟨m, d, hemit, hd, hread⟩ := emitItem_ok (s := { s with deferV := v, deferLen := l, deferPos := q }) hw hf hc
  refine ⟨m, d, ?_, hd, hread⟩
  rw [exec_comp_step hstart, compStep_eq hep hpick, State.afterItem, hset, hemit]
  rfl

/-! ## The two forms of an item (R119, R120) -/

/-- Opening a group writes its control byte alone. -/
theorem State.read_openedDst_other {s : State} {a : Nat} (h : s.nbits = 0 → a ≠ s.dp.toNat) :
    Memory.read s.openedDst a = Memory.read s.dst a := by
  unfold State.openedDst
  split
  · next hdue => exact Memory.read_write_other (h hdue) _ _
  · rfl

/-- Settles O35: the literal's one byte and its control bit. -/
theorem compEmitsLiteral : Obligations.CompEmitsLiteral := by
  unfold Obligations.CompEmitsLiteral
  intro s b carried ctlAt byteAt hstart hep hpick hctlAt hbyteAt hw hctl hdp
  obtain rfl : byteAt = s.tokenAt := hbyteAt
  obtain rfl : ctlAt = s.controlAt.toNat := by rw [hctlAt, State.controlAt]; split <;> rfl
  have hc : s.ControlBelow (.lit b) := fun _ => hctl
  have hbelow : s.controlAt.toNat < s.tokenAt := State.controlAt_lt hc rfl
  refine ⟨fun hf => exec_comp_overflow hstart hep hpick hw hc hdp hf, fun hf => ?_⟩
  obtain ⟨m, d, hexec, hd, hread⟩ := exec_comp_emits hstart hep hpick hw hc hf
  rw [itemBytes_lit, List.length_singleton] at hd hread
  refine ⟨_, hexec, ?_⟩
  rw [endIfRead_ctlpos, endIfRead_dp, endIfRead_ep, endIfRead_nbits, endIfRead_dst, endIfRead_deferV, endIfRead_deferLen,
    endIfRead_deferPos]
  refine ⟨rfl, hd, State.afterItem_ep .., State.afterItem_nbits .., (hread _).trans ?_, (hread _).trans ?_,
    fun a hne hne' => (hread a).trans ?_, State.afterItem_deferV .., State.afterItem_deferred .., ?_,
    State.afterItem_frame ..⟩
  · rw [if_neg (by omega)]
    exact Memory.read_write_same _ _ _
  · rw [if_pos (by omega), Nat.sub_self]
    rfl
  · rw [if_neg (by omega), State.markedDst, Memory.read_write_other hne]
    refine State.read_openedDst_other fun hdue => ?_
    rwa [State.controlAt, if_pos hdue] at hne
  · have hend : s.ep.toNat + 1 = s.srcLen.toNat ↔ s.ep + 1 = s.srcLen := by bv_omega
    rw [if_congr hend rfl rfl]
    exact State.afterItem_status s carried 1 m d _

/-- The bytes of a back-reference, the first as a number (R62, R63). -/
theorem itemBytes_ref {d l : Nat} (hd : d ≤ 4096) :
    itemBytes (.ref d l) =
      if l ≤ 17 then [BitVec.ofNat 8 ((l - 2) * 16 + (d - 1) / 256), BitVec.ofNat 8 ((d - 1) % 256)]
      else [BitVec.ofNat 8 ((d - 1) / 256), BitVec.ofNat 8 ((d - 1) % 256), BitVec.ofNat 8 (l - 18)] := by
  have hnibble : (d - 1) / 256 < 16 := by omega
  by_cases hshort : l ≤ 17
  · rw [itemBytes_ref_short hshort, if_pos hshort, ofNat_append_ofNat_nibble hnibble]
  · rw [itemBytes_ref_long hshort, if_neg hshort, zero_append_ofNat_nibble hnibble]

/-- Settles O36: the back-reference's two or three bytes, its control bit left 0. -/
theorem compEmitsReference : Obligations.CompEmitsReference := by
  unfold Obligations.CompEmitsReference
  intro s d l carried bytesAt bytes hstart hep hpick _ hd _ _ hbytesAt hbytes hw hdp
  obtain rfl : bytesAt = s.tokenAt := hbytesAt
  obtain rfl : bytes = itemBytes (.ref d l) := hbytes.trans (itemBytes_ref hd).symm
  have hlength := itemBytes_length_le (.ref d l)
  have hc : s.ControlBelow (.ref d l) := fun hlit => nomatch hlit
  refine ⟨fun hf => exec_comp_overflow hstart hep hpick (by omega) hc hdp hf, fun hf => ?_⟩
  obtain ⟨m, dp, hexec, hdpNext, hread⟩ := exec_comp_emits hstart hep hpick (by omega) hc hf
  refine ⟨_, hexec, ?_⟩
  rw [endIfRead_ctlpos, endIfRead_dp, endIfRead_ep, endIfRead_nbits, endIfRead_dst, endIfRead_deferV, endIfRead_deferLen,
    endIfRead_deferPos]
  refine ⟨rfl, hdpNext, State.afterItem_ep .., State.afterItem_nbits .., fun hdue => (hread _).trans ?_,
    fun k hk => (hread _).trans ?_, fun a ha => (hread a).trans ?_, State.afterItem_deferV .., State.afterItem_deferred ..,
    ?_, State.afterItem_frame ..⟩
  · rw [State.tokenAt, if_pos hdue, if_neg (by omega), State.markedDst, State.openedDst, if_pos hdue]
    exact Memory.read_write_same _ _ _
  · rw [if_pos (by omega), Nat.add_sub_cancel_left]
  · have hoff : ¬ (s.tokenAt ≤ a ∧ a < s.tokenAt + (itemBytes (.ref d l)).length) ∧ (s.nbits = 0 → a ≠ s.dp.toNat) := by
      by_cases hdue : s.nbits = 0
      · rw [State.tokenAt, if_pos hdue] at ha ⊢
        omega
      · rw [State.tokenAt, if_neg hdue] at ha ⊢
        exact ⟨by omega, fun h => absurd h hdue⟩
    rw [if_neg hoff.1]
    exact State.read_openedDst_other hoff.2
  · rw [State.afterItem_ep]
    exact State.afterItem_status s carried l m dp _

/-! ## The deferred match (R117, R118) -/

/-- A rule that leaves off without a fault completes its step. -/
theorem finish_not_fault {s t : State} {r : Except Stop State} (h : finish s r = .next t) (hfault : t.status ≠ .fault) :
    r = .ok t := by
  obtain hok | ⟨f, -, rfl⟩ := finish_next_iff.1 h
  · exact hok
  · exact absurd rfl hfault

/-- The start step leaves no deferred match (R110, R118). -/
theorem compStart_deferV {s t : State} (h : compStart s = .ok t) : t.deferV = false := by
  obtain ⟨u, -, rfl⟩ := except_map_ok h
  dsimp only
  split <;> rfl

/-- A token step that completes carries what the chooser says (R117). -/
theorem exec_comp_carries {s t : State} (hstart : s.started = true) (h : exec .comp s = .next t)
    (hfault : t.status ≠ .fault) :
    s.ep.toNat < s.srcLen.toNat ∧ ∃ it carried m d c,
      choose s.cfg.chooser s.input s.ep.toNat s.deferred = (it, carried) ∧
      t = (s.afterItem carried (itemSpan it) m d c).endIfRead :=
  compStep_ok (finish_not_fault ((exec_comp_step hstart).symm.trans h) hfault)

theorem State.deferred_of_deferV {s : State} (h : s.deferV = true) :
    s.deferred = some (s.deferLen.toNat, s.deferPos.toNat) := if_pos h

theorem State.deferred_of_not_deferV {s : State} (h : s.deferV = false) : s.deferred = none := by
  rw [State.deferred, h, if_neg Bool.false_ne_true]

theorem literalAt_input {s : State} {a : Nat} (h : a < s.srcLen.toNat) : literalAt s.input a = .lit (s.srcByte a) := by
  rw [literalAt, s.input_getD h]

/-- A match taken, as R117 words it. -/
theorem takeMatch_input {s : State} {a : Nat} (h : a < s.srcLen.toNat) (l q : Nat) :
    takeMatch s.input a l q = if 3 ≤ l then .ref (a - q) l else .lit (s.srcByte a) := by
  rw [takeMatch, literalAt_input h]
  rfl

/-- Settles O38, by whether a match is carried. -/
theorem referenceChoice : Obligations.ReferenceChoice := by
  unfold Obligations.ReferenceChoice
  intro s l q l' q' item carried hch hstart hep hbest hnext hpick
  have hchoose : choose s.cfg.chooser s.input s.ep.toNat s.deferred = (item, carried) := by
    rw [hpick, hch]
    cases hV : s.deferV with
    | true =>
      rw [hV, if_pos rfl] at hbest
      rw [State.deferred_of_deferV hV, ← hbest, if_neg (fun h => nomatch h.1)]
      exact congrArg (·, none) (takeMatch_input hep l q)
    | false =>
      rw [hV, if_neg Bool.false_ne_true] at hbest
      rw [State.deferred_of_not_deferV hV, choose_reference_none, ← hbest, ← hnext, literalAt_input hep,
        takeMatch_input hep]
      simp only [true_and]
  refine ⟨congrArg Prod.snd hchoose, fun _ => hchoose, fun t ht hfault => ?_⟩
  obtain ⟨-, it, next, m, d, c, hnextPick, rfl⟩ := exec_comp_carries hstart ht hfault
  obtain ⟨rfl, rfl⟩ := Prod.mk.inj (hnextPick.symm.trans hchoose)
  rw [endIfRead_deferV, endIfRead_deferLen, endIfRead_deferPos]
  exact ⟨State.afterItem_deferV .., by rintro ⟨l, q⟩ rfl; exact ⟨rfl, rfl⟩⟩

/-- A match is carried only behind a literal that is not the last byte: the match begins with the byte behind it. -/
theorem choose_carries_literal {s : State} {it : Item} {m : Nat × Nat}
    (h : choose s.cfg.chooser s.input s.ep.toNat s.deferred = (it, some m)) :
    (∃ b, it = .lit b) ∧ s.ep.toNat + 1 < s.srcLen.toNat := by
  obtain ⟨-, -, hlit, hm, hmin, hgain⟩ := choose_carried h
  have hlength := (search_length_le s.input (s.ep.toNat + 1)).1
  rw [← hm, State.input_length] at hlength
  simp only [minLength] at hmin
  exact ⟨⟨_, hlit⟩, by omega⟩

/-- A token step that leaves a deferred match has emitted a literal, and the data goes on behind it. -/
theorem exec_comp_deferred {s t : State} (hstart : s.started = true) (h : exec .comp s = .next t)
    (hfault : t.status ≠ .fault) (hV : t.deferV = true) :
    s.deferV = false ∧ t.ep = s.ep + 1 ∧ t.status = s.status ∧
      ∃ b carried, choose s.cfg.chooser s.input s.ep.toNat s.deferred = (.lit b, carried) := by
  obtain ⟨hep, it, carried, m, d, c, hpick, rfl⟩ := exec_comp_carries hstart h hfault
  rw [endIfRead_deferV, State.afterItem_deferV, Option.isSome_iff_exists] at hV
  obtain ⟨best, rfl⟩ := hV
  obtain ⟨⟨b, rfl⟩, hmore⟩ := choose_carries_literal hpick
  have hstatus := State.afterItem_status s (some best) 1 m d c
  rw [if_neg (by bv_omega)] at hstatus
  refine ⟨?_, ?_, hstatus.1, b, _, hpick⟩
  · obtain ⟨-, hnone, -⟩ := choose_carried hpick
    refine Bool.eq_false_iff.2 fun hcarried => ?_
    rw [State.deferred_of_deferV hcarried] at hnone
    cases hnone
  · rw [endIfRead_ep]
    exact State.afterItem_ep ..

/-- Settles O39: what the start step leaves, and what a step that leaves a deferred match has done. -/
theorem deferredMatchLife : Obligations.DeferredMatchLife := by
  unfold Obligations.DeferredMatchLife
  intro s t h hfault
  have hfirst (hstart : s.started = false) : t.deferV = false :=
    compStart_deferV (finish_not_fault ((exec_comp_start hstart).symm.trans h) hfault)
  refine ⟨hfirst, fun hstart hcarried => ?_, fun hstart hV => ?_, fun _ hbusy _ hdone => ?_⟩
  · by_contra hV
    have hclear := (exec_comp_deferred hstart h hfault (eq_true_of_ne_false hV)).1
    exact Bool.eq_false_iff.1 hclear hcarried
  · obtain ⟨-, hep, -, hlit⟩ := exec_comp_deferred hstart h hfault hV
    exact ⟨hep, hlit⟩
  · cases hstart : s.started with
    | false => exact hfirst hstart
    | true =>
      by_contra hV
      obtain ⟨-, -, hstatus, -⟩ := exec_comp_deferred hstart h hfault (eq_true_of_ne_false hV)
      rw [hdone, hbusy] at hstatus
      cases hstatus

end Sys2Proof.Machine

/-! # CRC16 (43_crc16) -/

namespace Sys2Proof.Machine

/-- Before the phase bit is set, CRC16 is its start step, which always answers (R82, R136). -/
theorem exec_crc16_start {s : State} (h : s.started = false) : exec .crc16 s = .next (crcStart s) :=
  congrArg (finish s) (if_neg (ne_true_of_eq_false h))

/-- Settles O49: the next state is `crcStart s`, which differs from `s` in the seed, `SP` and the two bits left open. -/
theorem crcStartLoadsSeed : Obligations.CrcStartLoadsSeed := by
  unfold Obligations.CrcStartLoadsSeed
  intro s hstart
  exact ⟨crcStart s, exec_crc16_start hstart, rfl⟩

end Sys2Proof.Machine

/-! # Exceptions (60_exceptions)

Fault entry by an engine step (R153), and the faults that nothing but a command and a reset ends (R154). -/

namespace Sys2Proof.Machine

/-! ## Fault entry (R153)

Within a step FAULT is reached only by raising a fault: no rule completes in FAULT, and none raises the code that stands
for no fault. -/

/-- How a rule leaves off outside FAULT: it completes in another status, raises a fault or stops the model. -/
inductive FaultsByRaise : Except Stop State → Prop
  | ok {t : State} (h : t.status ≠ .fault) : FaultsByRaise (.ok t)
  | raise {f : FaultCode} (h : f ≠ .none) : FaultsByRaise (.error (.raise f))
  | halt (f : Fault) : FaultsByRaise (.error (.halt f))

section FaultEntry

variable {s t : State} {r r' : Except Stop State}

theorem FaultsByRaise.bind {f : State → Except Stop State} (h : FaultsByRaise r)
    (hf : ∀ u : State, u.status ≠ .fault → FaultsByRaise (f u)) : FaultsByRaise (r.bind f) := by
  cases h with
  | ok hu => exact hf _ hu
  | raise hcode => exact .raise hcode
  | halt e => exact .halt e

theorem FaultsByRaise.map {f : State → State} (h : FaultsByRaise r)
    (hf : ∀ u : State, u.status ≠ .fault → (f u).status ≠ .fault) : FaultsByRaise (r.map f) := by
  cases h with
  | ok hu => exact .ok (hf _ hu)
  | raise hcode => exact .raise hcode
  | halt e => exact .halt e

theorem FaultsByRaise.ite {c : Prop} [Decidable c] (h : FaultsByRaise r) (h' : FaultsByRaise r') :
    FaultsByRaise (if c then r else r') := by
  split
  · exact h
  · exact h'

/-- A step whose rule faults by raising enters FAULT only by fault entry. -/
theorem FaultsByRaise.finish_fault (hr : FaultsByRaise r) (h : finish s r = .next t) (hfault : t.status = .fault) :
    ∃ f, f ≠ .none ∧ t = s.raise f := by
  cases hr with
  | ok hu =>
    obtain rfl := Host.Outcome.next.inj h
    exact absurd hfault hu
  | raise hcode => exact ⟨_, hcode, (Host.Outcome.next.inj h).symm⟩
  | halt e => cases h

/-! ### Writing DST -/

theorem writeDst_faultsByRaise (a : Nat) (v : Byte) (hs : s.status ≠ .fault) : FaultsByRaise (writeDst a v s) :=
  .ite (.ok hs) (.halt _)

theorem writeDstList_faultsByRaise (a : Nat) (vs : List Byte) (hs : s.status ≠ .fault) :
    FaultsByRaise (writeDstList a vs s) := by
  induction vs generalizing a s with
  | nil => exact .ok hs
  | cons v vs ih => exact (writeDst_faultsByRaise a v hs).bind fun _ hu => ih (a + 1) hu

theorem appendDst_faultsByRaise (v : Byte) (hs : s.status ≠ .fault) : FaultsByRaise (appendDst v s) :=
  (writeDst_faultsByRaise _ v hs).map fun _ hu => hu

/-! ### DECOMP -/

theorem copyBack_faultsByRaise (dist len : Nat) (hs : s.status ≠ .fault) : FaultsByRaise (copyBack dist len s) := by
  induction len generalizing s with
  | zero => exact .ok hs
  | succ len ih => exact .ite (.ok hs) ((appendDst_faultsByRaise _ hs).bind fun _ hu => ih hu)

theorem needBytes_faultsByRaise (k : Nat) (hs : s.status ≠ .fault) : FaultsByRaise (needBytes k s) :=
  .ite (.ok hs) (.raise (by decide))

theorem copyChecked_faultsByRaise (dist len : Nat) (hs : s.status ≠ .fault) :
    FaultsByRaise (copyChecked dist len s) :=
  .ite (.raise (by decide)) (copyBack_faultsByRaise dist len hs)

theorem stopIfFull_not_fault (s : State) (hs : s.status ≠ .fault) : (stopIfFull s).status ≠ .fault := by
  obtain ⟨-, h⟩ | ⟨-, h⟩ := stopIfFull_cases s
  · simp [h]
  · rwa [h]

theorem tokenEffect_faultsByRaise (i : Instr) (hs : s.status ≠ .fault) : FaultsByRaise (tokenEffect i s) := by
  cases i with
  | lit d =>
    exact ((needBytes_faultsByRaise (s := s.takeBit) 1 hs).bind fun u hu =>
      appendDst_faultsByRaise (s := u.advanceSp 1) d hu).map stopIfFull_not_fault
  | ref n b l =>
    exact ((needBytes_faultsByRaise (s := s.takeBit) 2 hs).bind fun u hu =>
      copyChecked_faultsByRaise (s := u.advanceSp 2) _ _ hu).map stopIfFull_not_fault
  | refx b l c =>
    exact ((needBytes_faultsByRaise (s := s.takeBit) 2 hs).bind fun u hu =>
      (needBytes_faultsByRaise (s := u.advanceSp 2) 1 hu).bind fun w hw =>
        copyChecked_faultsByRaise (s := w.advanceSp 1) _ _ hw).map stopIfFull_not_fault
  | _ => exact .halt _

theorem controlByte_faultsByRaise (k : Byte) (hs : s.status ≠ .fault) : FaultsByRaise (controlByte k s) :=
  .ite ((needBytes_faultsByRaise 1 hs).map fun _ hu => hu) (.ok hs)

theorem controlFetch_faultsByRaise (hs : s.status ≠ .fault) : FaultsByRaise (controlFetch s) := by
  refine .ite ?_ (.ok hs)
  split
  · exact controlByte_faultsByRaise _ hs
  · exact .raise (by decide)

theorem decompStep_faultsByRaise (hs : s.status ≠ .fault) : FaultsByRaise (decompStep s) := by
  refine .ite ((controlFetch_faultsByRaise hs).bind fun u hu => ?_) (.halt _)
  unfold fetchToken
  split
  · exact tokenEffect_faultsByRaise _ hu
  · exact .raise (by decide)

theorem decompStart_faultsByRaise (hs : s.status ≠ .fault) : FaultsByRaise (decompStart s) :=
  .ite (.raise (by decide)) (.ite (.raise (by decide)) (.ite (.raise (by decide)) (.ok (stopIfFull_not_fault _ hs))))

/-! ### COMP -/

theorem emitItem_faultsByRaise (it : Item) (hs : s.status ≠ .fault) : FaultsByRaise (emitItem it s) := by
  cases h : emitItem it s with
  | ok t =>
    obtain ⟨_, ⟨m, d, c, rfl⟩, rfl⟩ := emitItem_outputOnly h
    exact .ok hs
  | error e =>
    obtain rfl | rfl := emitItem_error h
    · exact .raise (by decide)
    · exact .halt _

theorem State.endIfRead_not_fault (s : State) (hs : s.status ≠ .fault) : s.endIfRead.status ≠ .fault := by
  unfold State.endIfRead
  split
  · simp
  · exact hs

theorem compStep_faultsByRaise (hs : s.status ≠ .fault) : FaultsByRaise (compStep s) :=
  .ite ((emitItem_faultsByRaise _ (by rwa [State.setDeferred_status])).map State.endIfRead_not_fault) (.halt _)

theorem compStart_faultsByRaise (hs : s.status ≠ .fault) : FaultsByRaise (compStart s) := by
  refine (writeDstList_faultsByRaise 0 (header s.srcLen) hs).map fun u hu => ?_
  dsimp only
  split
  · simp
  · exact hu

/-! ### CRC16 -/

theorem crcStep_faultsByRaise (hs : s.status ≠ .fault) : FaultsByRaise (crcStep s) := by
  refine .ite (.ok ?_) (.halt _)
  split
  · simp
  · exact hs

/-! ### The engine's step -/

/-- One engine step of any operation is a rule that faults by raising, and its end (R82). -/
theorem exec_op_faultsByRaise (hbusy : s.status = .busy) :
    ∃ r, FaultsByRaise r ∧ exec (decodeCommand s.op) s = finish s r := by
  have hs : s.status ≠ .fault := by simp [hbusy]
  by_cases hlegal : s.op = 1 ∨ s.op = 2 ∨ s.op = 3 ∨ s.op = 4
  · obtain h1 | h2 | h3 | h4 := hlegal
    · exact ⟨.ok (isCompStep s), .ok (by simp [isCompStep]), exec_op_iscomp h1⟩
    · exact ⟨_, .ite (decompStep_faultsByRaise hs) (decompStart_faultsByRaise hs), exec_op_decomp h2⟩
    · exact ⟨_, .ite (compStep_faultsByRaise hs) (compStart_faultsByRaise hs), exec_op_comp h3⟩
    · exact ⟨_, .ite (crcStep_faultsByRaise hs) (.ok (t := crcStart s) hs), exec_op_crc16 h4⟩
  · exact ⟨.ok s, .ok hs, exec_op_reserved hlegal hbusy⟩

/-- An engine step that leaves the engine in FAULT is fault entry and nothing else (R153, log 14). -/
theorem step_eq_raise (hmoves : s.moves = []) (hbusy : s.status = .busy) (h : step s = .next t)
    (hfault : t.status = .fault) : ∃ f, f ≠ .none ∧ t = s.raise f := by
  obtain ⟨r, hr, hexec⟩ := exec_op_faultsByRaise hbusy
  rw [step_busy hmoves hbusy, hexec] at h
  exact hr.finish_fault h hfault

end FaultEntry

/-- Settles O54: the step is fault entry with a code other than none. -/
theorem faultEntry : Obligations.FaultEntry := by
  unfold Obligations.FaultEntry
  intro s t hmoves hbusy h hfault
  obtain ⟨f, hcode, rfl⟩ := step_eq_raise hmoves hbusy h hfault
  exact ⟨hcode, raise_faultEntered s f⟩

/-! ## Outside BUSY (R154) -/

/-- Given the turn while not BUSY, the engine only uses up the host's move. -/
theorem step_tick_not_busy {s : State} {later : List HostMove} (h : s.moves = .tick :: later) (hidle : s.status ≠ .busy) :
    step s = .next { s with moves := later } :=
  (step_tick h).trans (if_neg hidle)

/-- Settles O10: outside BUSY the engine's turn is empty, and no other move but a command and a reset writes `STATUS` or
`FAULT`. -/
theorem nothingHappensUnlessBusy : Obligations.NothingHappensUnlessBusy := by
  unfold Obligations.NothingHappensUnlessBusy
  refine ⟨fun s hidle => ⟨fun hmoves => step_not_busy hmoves hidle, fun later hmoves => step_tick_not_busy hmoves hidle⟩,
    fun s t m later hmoves hfault hreset hcmd h => ?_⟩
  by_cases htick : m = .tick
  · subst htick
    obtain rfl := Host.Outcome.next.inj ((step_tick_not_busy hmoves (by simp [hfault])).symm.trans h)
    exact ⟨hfault, rfl⟩
  · rw [step_move hmoves htick] at h
    rw [(hostMove_frame hreset hcmd h).1]
    exact ⟨hfault, rfl⟩

end Sys2Proof.Machine

/-! # Reset (70_reset)

The values reset leaves and the abandoned operation (R165, R166). -/

namespace Sys2Proof.Machine

/-- The host's reset is never refused, whatever the engine is doing (R166). -/
theorem step_reset {s : State} {later : List HostMove} (h : s.moves = .reset :: later) :
    step s = .next { s with moves := later }.resetMove :=
  step_move h (by simp)

/-- Every register the host sees, and `DEFER_V`, has R165's value, and the engine is not BUSY. -/
def State.HasResetValues (s : State) : Prop :=
  s.cmd = 0 ∧ s.status = .idle ∧ s.fault = .none ∧ s.srcLen = 0 ∧ s.dstLen = 0 ∧ s.result = 0 ∧ s.deferV = false

theorem reset_hasResetValues : State.reset.HasResetValues := ⟨rfl, rfl, rfl, rfl, rfl, rfl, rfl⟩

/-- A reset in any state gives the registers the values of the state after reset. -/
theorem State.resetMove_hasResetValues (s : State) : s.resetMove.HasResetValues := reset_hasResetValues

/-- With R165's values and no move of the host the engine does nothing. -/
theorem State.HasResetValues.step_eq {s : State} (h : s.HasResetValues) (hmoves : s.moves = []) : step s = .next s := by
  obtain ⟨-, hidle, -⟩ := h
  exact step_not_busy hmoves (by simp [hidle])

/-- Settles O6: reset is one move from any state, and its values leave the engine idle. -/
theorem resetLeavesStatedValues : Obligations.ResetLeavesStatedValues := by
  unfold Obligations.ResetLeavesStatedValues
  refine ⟨?_, fun s later hmoves => ⟨_, step_reset hmoves, ?_⟩⟩
  · obtain ⟨hcmd, hstatus, hfault, hsrcLen, hdstLen, hresult, hdefer⟩ := reset_hasResetValues
    exact ⟨hcmd, hstatus, hfault, hsrcLen, hdstLen, hresult, hdefer, reset_hasResetValues.step_eq rfl⟩
  · have hvalues := State.resetMove_hasResetValues { s with moves := later }
    have ⟨hcmd, hstatus, hfault, hsrcLen, hdstLen, hresult, hdefer⟩ := hvalues
    exact ⟨hcmd, hstatus, hfault, hsrcLen, hdstLen, hresult, hdefer, rfl, rfl, hvalues.step_eq⟩

end Sys2Proof.Machine

/-! # Instructions and their codes (30_encoding R59 to R61, R64, R66, R69, R71, R72) -/

namespace Sys2Proof.Machine

theorem decodeReference_append_short {n : BitVec 4} (hn : n ≠ 0) (h : BitVec 4) (l : Byte) (more : List Byte) :
    decodeReference ((n ++ h) :: l :: more) = .ok (.ref n h l, more) := by
  have hdecode := decodeReference_short (a := n ++ h) (by rwa [highNibble_append]) l more
  rwa [highNibble_append, lowNibble_append] at hdecode

theorem decodeReference_append_long (h : BitVec 4) (l c : Byte) (more : List Byte) :
    decodeReference (((0 : BitVec 4) ++ h) :: l :: c :: more) = .ok (.refx h l c, more) := by
  have hdecode := decodeReference_long (highNibble_append 0 h) l c more
  rwa [lowNibble_append] at hdecode

/-- Settles O1, by the instruction. -/
theorem decodeOfEncode : Obligations.DecodeOfEncode := by
  unfold Obligations.DecodeOfEncode
  intro i hwf more
  cases i with
  | ref n h l => exact decodeReference_append_short (by simpa [Instr.wf] using hwf) h l more
  | refx h l c => exact decodeReference_append_long h l c more
  | reservedCmd c => exact congrArg (fun i => Except.ok (i, [])) (Laws.CodeShape.reservedCmd c hwf)
  | _ => rfl

/-- The nibbles of a first byte encode back to it, in either form. -/
theorem encode_ref_nibbles (a b : Byte) : encode (.ref (highNibble a) (lowNibble a) b) = .token false [a, b] := by
  rw [encode, nibbles_append]

theorem encode_refx_nibble {a : Byte} (ha : highNibble a = 0) (b c : Byte) :
    encode (.refx (lowNibble a) b c) = .token false [a, b, c] := by
  rw [encode, ← ha, nibbles_append]

/-- A back-reference that decodes is well-formed, and its code is the bytes it was read from. -/
theorem encode_of_decodeReference {bytes rest : List Byte} {i : Instr} (h : decodeReference bytes = .ok (i, rest)) :
    i.wf = true ∧ (encode i).followedBy rest = .token false bytes := by
  match bytes, h with
  | a :: b :: more, h =>
    by_cases ha : highNibble a = 0
    · cases more with
      | nil => simp [decodeReference, ha] at h
      | cons c more =>
        obtain ⟨rfl, rfl⟩ := Prod.mk.inj (Except.ok.inj ((decodeReference_long ha b c more).symm.trans h))
        exact ⟨rfl, by rw [encode_refx_nibble ha]; rfl⟩
    · obtain ⟨rfl, rfl⟩ := Prod.mk.inj (Except.ok.inj ((decodeReference_short ha b more).symm.trans h))
      exact ⟨by simpa [Instr.wf] using ha, by rw [encode_ref_nibbles]; rfl⟩

/-- Every command code decodes to a well-formed command with that code (R71, R72). -/
theorem encode_decodeCommand (c : BitVec 3) :
    (decodeCommand c).wf = true ∧ encode (decodeCommand c) = .command c := by
  revert c; decide

/-- Settles O2, by the place where the code stands. -/
theorem encodeOfDecode : Obligations.EncodeOfDecode := by
  unfold Obligations.EncodeOfDecode
  intro c i rest h
  match c, h with
  | .token true (d :: _), h =>
    obtain ⟨rfl, rfl⟩ := Prod.mk.inj (Except.ok.inj h)
    exact ⟨rfl, rfl⟩
  | .token false bytes, h => exact encode_of_decodeReference h
  | .control (k :: _), h =>
    obtain ⟨rfl, rfl⟩ := Prod.mk.inj (Except.ok.inj h)
    exact ⟨rfl, rfl⟩
  | .command c, h =>
    obtain ⟨rfl, rfl⟩ := Prod.mk.inj (Except.ok.inj h)
    obtain ⟨hwf, hcode⟩ := encode_decodeCommand c
    exact ⟨hwf, by rw [hcode]; rfl⟩

/-- Settles O3: each word is read by evaluating the decoder. -/
theorem specWordsDecode : Obligations.SpecWordsDecode := by
  unfold Obligations.SpecWordsDecode
  exact ⟨rfl, rfl, rfl, rfl, rfl, rfl, rfl, rfl, rfl, rfl⟩

end Sys2Proof.Machine

/-! # The byte steps of CRC16 (43_crc16 R137 to R143)

A bit-step is linear over GF(2), and so is the CRC of a sequence of bytes. A run is the start step and one byte step for
each byte of the message, the data and two zeros (log 16). -/

namespace Sys2Proof.Machine

/-! ## The byte step (R138, R140) -/

theorem exec_crc16_step {s : State} (h : s.started = true) : exec .crc16 s = finish s (crcStep s) :=
  congrArg (finish s) (if_pos h)

/-- Bit `k` of a byte, moved to bit 15 of the register. -/
theorem shifted_bit_eq (v : Byte) (k : Nat) :
    (((v >>> k) &&& 1).setWidth 16 <<< 15 : BitVec 16) = if v.getLsbD k then 0x8000 else 0 := by
  have hbit : (v >>> k) &&& 1 = (BitVec.ofBool (v.getLsbD k)).setWidth 8 := by
    simpa using BitVec.and_one_eq_setWidth_ofBool_getLsbD (x := v >>> k)
  rw [hbit]
  cases v.getLsbD k <;> decide

theorem and_one_eq_one_iff (c : BitVec 16) : c &&& 1 = 1 ↔ c.getLsbD 0 = true := by
  show c &&& 1#16 = 1#16 ↔ _
  rw [BitVec.and_one_eq_setWidth_ofBool_getLsbD]
  cases c.getLsbD 0 <;> decide

/-- The byte step bit by bit, as R138 writes it, is the model's. -/
theorem crcByte_eq_foldl (crc : BitVec 16) (v : Byte) :
    (List.range 8).foldl (fun (c : BitVec 16) (k : Nat) =>
      let shifted := (c >>> 1) ||| (((v >>> k) &&& 1).setWidth 16 <<< 15)
      if c &&& 1 = 1 then shifted ^^^ 0x8408 else shifted) crc = crcByte crc v := by
  refine List.foldl_ext _ _ _ fun c k _ => ?_
  dsimp only
  rw [shifted_bit_eq, if_congr (and_one_eq_one_iff c) rfl rfl]
  rfl

/-- The state behind a byte step, before the end of the message is judged. -/
def State.afterCrcByte (s : State) : State := { s.advanceCrc with crc := crcByte s.crc s.crcInput }

/-- A byte step is taken while the message goes on, and its last one completes (R138, R140). -/
theorem exec_crc16_byte {s : State} (hstart : s.started = true) (hmore : s.crcIndex < s.srcLen.toNat + 2) :
    exec .crc16 s = .next (if s.crcIndex + 1 = s.srcLen.toNat + 2
      then s.afterCrcByte.complete 0 (crcByte s.crc s.crcInput) else s.afterCrcByte) := by
  rw [exec_crc16_step hstart, crcStep_eq s hmore]
  rfl

theorem State.afterCrcByte_crcIndex {s : State} (h : s.crcIndex < s.srcLen.toNat + 2) :
    s.afterCrcByte.crcIndex = s.crcIndex + 1 := s.advanceCrc_crcIndex h

/-- Settles O50: the start step's index is 0, and a byte step is R138's fold over the bits of the byte it takes. -/
theorem crcByteStep : Obligations.CrcByteStep := by
  unfold Obligations.CrcByteStep
  refine ⟨fun s t hstart h => ?_, fun s hstart hmore v c hv hc => ?_⟩
  · obtain rfl := Host.Outcome.next.inj ((exec_crc16_start hstart).symm.trans h)
    exact crcStart_crcIndex s
  · obtain rfl : v = s.crcInput := hv
    obtain rfl : c = crcByte s.crc s.crcInput := hc.trans (crcByte_eq_foldl _ _)
    refine ⟨_, exec_crc16_byte hstart hmore, ?_⟩
    by_cases hlast : s.crcIndex + 1 = s.srcLen.toNat + 2
    · rw [if_pos hlast]
      exact ⟨State.afterCrcByte_crcIndex hmore, (if_pos hlast).symm⟩
    · rw [if_neg hlast]
      exact ⟨State.afterCrcByte_crcIndex hmore, (if_neg hlast).symm⟩

/-! ## The run (R141, R174) -/

/-- CRC16 between its steps, with the bytes of the message that are still to come. -/
structure State.CrcRunning (s : State) (left : List Byte) : Prop where
  moves : s.moves = []
  busy : s.status = .busy
  op : s.op = 4
  started : s.started = true
  left : (s.input ++ [0, 0]).drop s.crcIndex = left

theorem step_crc16 {s : State} (hmoves : s.moves = []) (hbusy : s.status = .busy) (hop : s.op = 4) :
    step s = exec .crc16 s := by
  rw [step_busy hmoves hbusy, hop]
  rfl

/-- The next byte to come is the byte that the step takes. -/
theorem State.CrcRunning.head {s : State} {v : Byte} {left : List Byte} (h : s.CrcRunning (v :: left)) :
    s.crcIndex < s.srcLen.toNat + 2 ∧ s.crcInput = v ∧ (s.input ++ [0, 0]).drop (s.crcIndex + 1) = left := by
  have hlength := congrArg List.length h.left
  simp only [List.length_drop, List.length_append, State.input_length, List.length_cons, List.length_nil] at hlength
  have hmore : s.crcIndex < s.srcLen.toNat + 2 := by omega
  have hdrop := h.left
  rw [← List.getElem_cons_drop (by simpa using hmore)] at hdrop
  obtain ⟨hv, hleft⟩ := List.cons.inj hdrop
  have hbyte := List.getElem?_eq_some_iff.2 ⟨_, hv⟩
  rw [s.crcInput_eq hmore] at hbyte
  exact ⟨hmore, Option.some.inj hbyte, hleft⟩

/-- A byte step that is not the last: the engine stays BUSY with one byte fewer to come. -/
theorem State.CrcRunning.step_inside {s : State} {v w : Byte} {left : List Byte} (h : s.CrcRunning (v :: w :: left)) :
    step s = .next s.afterCrcByte ∧ s.afterCrcByte.CrcRunning (w :: left) ∧ s.afterCrcByte.crc = crcByte s.crc v := by
  obtain ⟨hmore, hbyte, hleft⟩ := h.head
  have hlength := congrArg List.length hleft
  simp only [List.length_drop, List.length_append, State.input_length, List.length_cons, List.length_nil] at hlength
  rw [step_crc16 h.moves h.busy h.op, exec_crc16_byte h.started hmore, if_neg (by omega), ← hbyte]
  refine ⟨rfl, ⟨h.moves, h.busy, h.op, h.started, ?_⟩, rfl⟩
  rw [State.afterCrcByte_crcIndex hmore]
  exact hleft

/-- The last byte step completes with the register (R140). -/
theorem State.CrcRunning.step_last {s : State} {v : Byte} (h : s.CrcRunning [v]) :
    step s = .next (s.afterCrcByte.complete 0 (crcByte s.crc v)) := by
  obtain ⟨hmore, hbyte, hleft⟩ := h.head
  have hlength := congrArg List.length hleft
  simp only [List.length_drop, List.length_append, State.input_length, List.length_cons, List.length_nil] at hlength
  rw [step_crc16 h.moves h.busy h.op, exec_crc16_byte h.started hmore, if_pos (by omega), hbyte]

/-- As many byte steps as bytes to come complete with their CRC, and no fewer leave BUSY. -/
theorem State.CrcRunning.run {s : State} {v : Byte} {left : List Byte} (h : s.CrcRunning (v :: left)) :
    (∃ t, runFor (left.length + 1) s = .next t ∧ t.status = .done ∧ t.fault = s.fault ∧ t.dstLen = 0 ∧
      t.result = crcBytes s.crc (v :: left) ∧ t.dst = s.dst ∧ t.src = s.src) ∧
    ∀ k, k < left.length + 1 → ∃ t, runFor k s = .next t ∧ t.status = .busy := by
  induction left generalizing s v with
  | nil =>
    refine ⟨⟨_, (runFor_of_step h.step_last 0).trans rfl, rfl, rfl, rfl, rfl, rfl, rfl⟩, fun k hk => ⟨s, ?_, h.busy⟩⟩
    obtain rfl : k = 0 := by simpa using hk
    rfl
  | cons w left ih =>
    obtain ⟨hstep, hnext, hcrc⟩ := h.step_inside
    obtain ⟨⟨t, hrun, hdone, hfault, hdstLen, hresult, hdst, hsrc⟩, hbusy⟩ := ih hnext
    refine ⟨⟨t, (runFor_of_step hstep _).trans hrun, hdone, hfault, hdstLen, by rw [hresult, hcrc]; rfl, hdst, hsrc⟩,
      fun k hk => ?_⟩
    cases k with
    | zero => exact ⟨s, rfl, h.busy⟩
    | succ k => rw [runFor_of_step hstep]; exact hbusy k (by simpa using hk)

/-- Settles O51: behind the start step the whole message is to come. -/
theorem crcRunIsCrc16 : Obligations.CrcRunIsCrc16 := by
  unfold Obligations.CrcRunIsCrc16
  intro s hmoves hbusy hop hstart
  have hstep : step s = .next (crcStart s) := (step_crc16 hmoves hbusy hop).trans (exec_crc16_start hstart)
  have hmessage : (s.input ++ [0, 0]).length = s.srcLen.toNat + 2 := by simp
  obtain ⟨v, left, hleft⟩ :=
    List.exists_cons_of_length_pos (hmessage.symm ▸ Nat.succ_pos _ : 0 < (s.input ++ [0, 0]).length)
  have hlength : left.length + 1 = s.srcLen.toNat + 2 := by rw [← hmessage, hleft]; rfl
  have hrunning : (crcStart s).CrcRunning (v :: left) :=
    ⟨hmoves, hbusy, hop, rfl, by rw [crcStart_crcIndex, ← hleft]; rfl⟩
  obtain ⟨⟨t, hrun, hdone, hfault, hdstLen, hresult, hdst, hsrc⟩, hstays⟩ := hrunning.run
  rw [hlength] at hrun hstays
  rw [Nat.add_assoc, Nat.add_comm 1]
  refine ⟨⟨t, (runFor_of_step hstep _).trans hrun, hdone, hfault, hdstLen, ?_, hdst, hsrc⟩, fun k hk => ?_⟩
  · rw [hresult, ← hleft]
    rfl
  · cases k with
    | zero => exact ⟨s, rfl, hbusy⟩
    | succ k => rw [runFor_of_step hstep]; exact hstays k (Nat.lt_of_succ_lt_succ hk)

/-! ## Linearity over GF(2) (R143) -/

/-- What a bit gates into the register. -/
def gate (b : Bool) (m : BitVec 16) : BitVec 16 := if b then m else 0

theorem gate_xor (b b' : Bool) (m : BitVec 16) : gate (b ^^ b') m = gate b m ^^^ gate b' m := by
  cases b <;> cases b' <;> simp [gate]

/-- The bit that enters meets a bit 15 that the shift has cleared, so its `or` is a sum. -/
theorem shiftRight_or_gate (c : BitVec 16) (b : Bool) : c >>> 1 ||| gate b 0x8000 = c >>> 1 ^^^ gate b 0x8000 := by
  have hmask : ∀ i < 16, (0x8000 : BitVec 16).getLsbD i = decide (i = 15) := by decide
  cases b with
  | false => simp [gate]
  | true =>
    apply BitVec.eq_of_getLsbD_eq
    intro i hi
    rw [gate, if_pos rfl, BitVec.getLsbD_or, BitVec.getLsbD_xor, hmask i hi, BitVec.getLsbD_ushiftRight]
    by_cases htop : i = 15
    · subst htop
      simp
    · simp [htop]

/-- A bit-step as a sum: the register shifted, the bit that enters, and the feedback. -/
theorem crcBit_eq_xor (c : BitVec 16) (b : Bool) :
    crcBit c b = c >>> 1 ^^^ gate b 0x8000 ^^^ gate (c.getLsbD 0) crcPoly := by
  rw [← shiftRight_or_gate]
  show (if c.getLsbD 0 then (c >>> 1 ||| gate b 0x8000) ^^^ crcPoly else c >>> 1 ||| gate b 0x8000) = _
  cases c.getLsbD 0 <;> simp [gate]

theorem crcBit_xor (c d : BitVec 16) (a b : Bool) : crcBit (c ^^^ d) (a ^^ b) = crcBit c a ^^^ crcBit d b := by
  rw [crcBit_eq_xor, crcBit_eq_xor, crcBit_eq_xor, BitVec.getLsbD_xor, gate_xor, gate_xor, BitVec.ushiftRight_xor_distrib]
  ac_rfl

theorem foldl_crcBit_xor (ks : List Nat) (c d : BitVec 16) (v w : Byte) :
    ks.foldl (fun c k => crcBit c ((v ^^^ w).getLsbD k)) (c ^^^ d) =
      ks.foldl (fun c k => crcBit c (v.getLsbD k)) c ^^^ ks.foldl (fun c k => crcBit c (w.getLsbD k)) d := by
  induction ks generalizing c d with
  | nil => rfl
  | cons k ks ih => rw [List.foldl_cons, BitVec.getLsbD_xor, crcBit_xor, ih]; rfl

theorem crcByte_xor (c d : BitVec 16) (v w : Byte) : crcByte (c ^^^ d) (v ^^^ w) = crcByte c v ^^^ crcByte d w :=
  foldl_crcBit_xor _ c d v w

/-- The register over a sum of two sequences is the sum of the registers. -/
theorem crcBytes_zipWith_xor {vs ws : List Byte} (h : vs.length = ws.length) (c d : BitVec 16) :
    crcBytes (c ^^^ d) (List.zipWith (· ^^^ ·) vs ws) = crcBytes c vs ^^^ crcBytes d ws := by
  induction vs generalizing ws c d with
  | nil =>
    obtain rfl := List.length_eq_zero_iff.1 h.symm
    rfl
  | cons v vs ih =>
    obtain ⟨w, ws, rfl⟩ := List.exists_cons_of_length_eq_add_one h.symm
    rw [List.zipWith_cons_cons, crcBytes_cons, crcByte_xor, ih (Nat.succ.inj h)]
    rfl

/-- Settles O52: linearity twice, and the sum of three seeds is the seed. -/
theorem crcIsAffine : Obligations.CrcIsAffine := by
  unfold Obligations.CrcIsAffine
  intro a b c hab hbc
  have hlength : (List.zipWith (· ^^^ ·) a b).length = c.length := by simp [hab, hbc]
  rw [crc16, crc16, crc16, ← crcBytes_zipWith_xor (by simp [hab]), ← crcBytes_zipWith_xor (by simp [hab, hbc]),
    List.zipWith_append hab, List.zipWith_append hlength]
  rfl

/-! ## The residue (R143) -/

/-- Into a register of zeros a byte goes as it is: no 1 is shifted out. -/
theorem crcByte_zero (v : Byte) : crcByte 0 v = v.setWidth 16 <<< 8 := by
  revert v; decide

/-- A byte at the top of the register is shifted to its bottom. -/
theorem crcByte_top (v : Byte) : crcByte (v.setWidth 16 <<< 8) 0 = v.setWidth 16 := by
  revert v; decide

theorem low_xor_high (c : BitVec 16) : (c.setWidth 8).setWidth 16 ^^^ ((c >>> 8).setWidth 8).setWidth 16 <<< 8 = c := by
  apply BitVec.eq_of_getLsbD_eq
  intro i hi
  simp only [BitVec.getLsbD_xor, BitVec.getLsbD_setWidth, BitVec.getLsbD_shiftLeft, BitVec.getLsbD_ushiftRight]
  by_cases hlow : i < 8
  · simp [hlow, hi]
  · simp [hlow, hi, show i - 8 < 8 by omega, show i - 8 < 16 by omega, show 8 + (i - 8) = i by omega]

/-- From a register of zeros, two bytes leave themselves, the first one at the bottom. -/
theorem crcBytes_zero_pair (c : BitVec 16) : crcBytes 0 [c.setWidth 8, (c >>> 8).setWidth 8] = c := by
  have hsum (v w : Byte) : crcByte (v.setWidth 16 <<< 8) w = crcByte (v.setWidth 16 <<< 8) 0 ^^^ crcByte 0 w := by
    simpa using crcByte_xor (v.setWidth 16 <<< 8) 0 0 w
  rw [crcBytes_cons, crcByte_zero, crcBytes_cons, hsum, crcByte_top, crcByte_zero, crcBytes_nil, low_xor_high]

/-- A register followed by its own CRC bytes is left at zero. -/
theorem crcBytes_own_crc {r c : BitVec 16} (h : c = crcBytes r [0, 0]) :
    crcBytes r [c.setWidth 8, (c >>> 8).setWidth 8] = 0 := by
  have hsum := crcBytes_zipWith_xor (vs := [0, 0]) (ws := [c.setWidth 8, (c >>> 8).setWidth 8]) rfl r 0
  rw [← h, crcBytes_zero_pair, BitVec.xor_self] at hsum
  simpa using hsum

/-- Settles O53: the register's own CRC bytes clear it, and zeros keep it clear. -/
theorem crcResidue : Obligations.CrcResidue := by
  unfold Obligations.CrcResidue
  intro d c hc
  have hclear : crcBytes crcSeed (d ++ [c.setWidth 8, (c >>> 8).setWidth 8]) = 0 := by
    rw [crcBytes_append]
    exact crcBytes_own_crc (hc.trans (crcBytes_append _ _ _))
  refine ⟨hclear, ?_⟩
  rw [crc16, crcBytes_append]
  exact (congrArg (crcBytes · [0, 0]) hclear).trans (crcBytes_zero_pair 0)

end Sys2Proof.Machine

/-! # The host's accesses (10_state R19, 20_memory R48 and R51, 70_reset R170 and R171) -/

namespace Sys2Proof.Machine

/-! ## Registers (R19) -/

theorem hostReadReg_ok {r : HostReg} {s : State} (h : r = .srcLen → s.status ≠ .busy) :
    hostReadReg r s = .next { s with rdata := s.readReg r } :=
  if_neg fun hrefused => h hrefused.2 hrefused.1

/-- Settles O15, by the register. -/
theorem hostRegisterAccess : Obligations.HostRegisterAccess := by
  unfold Obligations.HostRegisterAccess
  intro s later
  refine ⟨fun r hmoves hallowed => ⟨_, (step_move hmoves (by simp)).trans (hostReadReg_ok hallowed), rfl, ?_⟩,
    fun r v hmoves hcmd hlen => ?_, fun v hmoves hidle => ?_⟩
  · cases r with
    | cmd => rfl
    | status =>
      show (s.status.code.setWidth 33).toNat = _
      cases s.status <;> rfl
    | fault =>
      show (s.fault.code.setWidth 33).toNat = _
      cases s.fault <;> rfl
    | srcLen => exact BitVec.toNat_setWidth_of_le (by decide)
    | dstLen => rfl
    | result => exact BitVec.toNat_setWidth_of_le (by decide)
  · rw [step_move hmoves (by simp)]
    cases r with
    | cmd => exact absurd rfl hcmd
    | srcLen => exact absurd rfl hlen
    | _ => rfl
  · rw [step_move hmoves (by simp)]
    exact if_neg hidle

/-! ## Buffers (R17, R18, R51) -/

theorem State.inSrc_iff {s : State} {a : Nat} : s.inSrc a = true ↔ a < s.cfg.srcMax := by simp [State.inSrc]

/-- The moves that access a buffer, each with whether its address exists and what it does where it does. -/
inductive BufferMove (s : State) (a : Nat) : HostMove → Bool → State → Prop
  | writeSrc (v : Byte) : BufferMove s a (.writeSrc a v) (s.inSrc a) (s.storeSrc a v)
  | readSrc : BufferMove s a (.readSrc a) (s.inSrc a) { s with rdata := (s.srcByte a).setWidth 33 }
  | writeDst (v : Byte) : BufferMove s a (.writeDst a v) (s.inDst a) (s.storeDst a v)
  | readDst : BufferMove s a (.readDst a) (s.inDst a) { s with rdata := (s.hostDstByte a).setWidth 33 }

section BufferAccess

variable {s t : State} {a : Nat} {m : HostMove} {later : List HostMove} {present : Bool}

theorem step_bufferMove (h : BufferMove { s with moves := later } a m present t) (hmoves : s.moves = m :: later) :
    step s = hostBuffer { s with moves := later } present t := by
  cases h <;> exact step_move hmoves (by simp)

/-- An access that exists, while not BUSY. -/
theorem step_bufferMove_present (h : BufferMove { s with moves := later } a m present t) (hmoves : s.moves = m :: later)
    (hidle : s.status ≠ .busy) (hpresent : present = true) : step s = .next t :=
  (step_bufferMove h hmoves).trans (hostBuffer_present hidle hpresent)

/-- An access at or above the capacity (log 9). -/
theorem step_bufferMove_absent (h : BufferMove { s with moves := later } a m present t) (hmoves : s.moves = m :: later)
    (hidle : s.status ≠ .busy) (habsent : present = false) : step s = .fault .hostAddress :=
  (step_bufferMove h hmoves).trans (hostBuffer_absent hidle habsent)

/-- No access while BUSY (R51, log 8). -/
theorem step_bufferMove_busy (h : BufferMove { s with moves := later } a m present t) (hmoves : s.moves = m :: later)
    (hbusy : s.status = .busy) : step s = .refused .hostAccessWhileBusy :=
  (step_bufferMove h hmoves).trans (if_pos hbusy)

end BufferAccess

theorem toNat_setWidth_byte (v : Byte) : (v.setWidth 33).toNat = v.toNat := BitVec.toNat_setWidth_of_le (by decide)

/-- Settles O16, by the move and whether its address exists. -/
theorem hostBufferAccess : Obligations.HostBufferAccess := by
  unfold Obligations.HostBufferAccess
  intro s a later hidle
  refine ⟨fun v hsrc hmoves => ?_, fun hsrc hmoves => ?_, fun v hdst hmoves => ?_, fun hdone hlen hdst hmoves => ?_,
    fun hsrc hmoves => ?_, fun m hmax hdst hmoves => ?_⟩
  · exact ⟨_, step_bufferMove_present (.writeSrc v) hmoves hidle (State.inSrc_iff.2 hsrc), Memory.read_write_same _ _ _,
      fun b hb => Memory.read_write_other hb _ _, rfl⟩
  · exact ⟨_, step_bufferMove_present .readSrc hmoves hidle (State.inSrc_iff.2 hsrc), toNat_setWidth_byte _, rfl⟩
  · exact ⟨_, step_bufferMove_present (.writeDst v) hmoves hidle (State.inDst_iff.2 hdst), Memory.read_write_same _ _ _,
      fun b hb => Memory.read_write_other hb _ _, rfl⟩
  · refine ⟨_, step_bufferMove_present .readDst hmoves hidle (State.inDst_iff.2 hdst), ?_, rfl⟩
    rw [toNat_setWidth_byte, State.hostDstByte_of_done (s := { s with moves := later }) hdone hlen]
    rfl
  · have habsent : State.inSrc { s with moves := later } a = false := decide_eq_false (Nat.not_lt.2 hsrc)
    obtain ⟨v, hmoves⟩ | hmoves := hmoves
    · exact step_bufferMove_absent (.writeSrc v) hmoves hidle habsent
    · exact step_bufferMove_absent .readSrc hmoves hidle habsent
  · have habsent : State.inDst { s with moves := later } a = false :=
      Bool.eq_false_iff.2 fun h => Nat.not_lt.2 hdst (State.inDst_iff.1 h m hmax)
    obtain ⟨v, hmoves⟩ | hmoves := hmoves
    · exact step_bufferMove_absent (.writeDst v) hmoves hidle habsent
    · exact step_bufferMove_absent .readDst hmoves hidle habsent

/-- Settles O17, by the move. -/
theorem hostBufferAccessRefusedWhileBusy : Obligations.HostBufferAccessRefusedWhileBusy := by
  unfold Obligations.HostBufferAccessRefusedWhileBusy
  intro s m later hmoves hbusy hm
  obtain ⟨a, v, rfl | rfl⟩ | ⟨a, rfl | rfl⟩ | rfl | ⟨v, rfl⟩ := hm
  · exact step_bufferMove_busy (.writeSrc v) hmoves hbusy
  · exact step_bufferMove_busy (.writeDst v) hmoves hbusy
  · exact step_bufferMove_busy .readSrc hmoves hbusy
  · exact step_bufferMove_busy .readDst hmoves hbusy
  · exact (step_move hmoves (by simp)).trans (if_pos ⟨hbusy, rfl⟩)
  · exact (step_move hmoves (by simp)).trans (if_pos hbusy)

end Sys2Proof.Machine

/-! # The engine's turn (40_commands R82) -/

namespace Sys2Proof.Machine

theorem step_tick_busy {s : State} {later : List HostMove} (h : s.moves = .tick :: later) (hbusy : s.status = .busy) :
    step s = exec (decodeCommand s.op) { s with moves := later } :=
  (step_tick h).trans (if_pos hbusy)

/-- Command acceptance, started or faulting, clears the phase bit (R80, log 5). -/
theorem acceptCommand_started {c : BitVec 3} {s : State} (h : s.status ≠ .busy) :
    (acceptCommand c s).started = false := by
  obtain ⟨-, ht⟩ | ⟨-, -, ht⟩ | ⟨-, -, ht⟩ := acceptCommand_cases (c := c) h
  all_goals
    rw [ht]
    rfl

theorem exec_decomp_start {s : State} (h : s.started = false) : exec .decomp s = finish s (decompStart s) :=
  congrArg (finish s) (if_neg (ne_true_of_eq_false h))

theorem exec_decomp_step {s : State} (h : s.started = true) : exec .decomp s = finish s (decompStep s) :=
  congrArg (finish s) (if_pos h)

/-- The start step of DECOMP completes only where every check passes (R90). -/
theorem decompStart_ok {s t : State} (h : decompStart s = .ok t) :
    16 ≤ s.srcLen.toNat ∧ s.input.take 4 = magic ∧ s.fitsDst s.declaredSize.toNat = true ∧
      t = stopIfFull s.interpreterReset := by
  rw [decompStart_eq, State.input_length] at h
  split at h
  · cases h
  · next hformat =>
    split at h
    · cases h
    · next hlong =>
      split at h
      · cases h
      · next hfits =>
        exact ⟨Nat.not_lt.1 hlong, Classical.not_not.1 (not_or.1 hformat).2, eq_true_of_ne_false hfits,
          (Except.ok.inj h).symm⟩

theorem compStart_started {s t : State} (h : compStart s = .ok t) : t.started = true := by
  obtain ⟨u, -, rfl⟩ := except_map_ok h
  dsimp only
  split <;> rfl

/-- Settles O18: the engine's turn, what acceptance does to the phase bit, and what each start step does. -/
theorem stepRunsCommandInOp : Obligations.StepRunsCommandInOp := by
  unfold Obligations.StepRunsCommandInOp
  refine ⟨fun s hbusy => ⟨fun hmoves => step_busy hmoves hbusy, fun later hmoves => step_tick_busy hmoves hbusy⟩,
    fun s t v later hmoves hidle h => ?_, fun s t i hi hstart h hfault => ?_⟩
  · obtain rfl := Host.Outcome.next.inj ((step_writeCmd hmoves).symm.trans h)
    exact acceptCommand_started (s := { s with moves := later }) hidle
  · obtain rfl | rfl | rfl := hi
    · obtain ⟨-, -, -, rfl⟩ := decompStart_ok (finish_not_fault ((exec_decomp_start hstart).symm.trans h) hfault)
      exact stopIfFull_started _
    · exact compStart_started (finish_not_fault ((exec_comp_start hstart).symm.trans h) hfault)
    · obtain rfl := Host.Outcome.next.inj ((exec_crc16_start hstart).symm.trans h)
      rfl

end Sys2Proof.Machine

/-! # Parses and streams (42_compress R112 to R115, R124 to R127)

A valid parse stands for the data, its body is its groups in order, and from these come the size and the shape of a
stream and the round trip. -/

namespace Sys2Proof.Machine

/-- Settles O40, by the validity of every choice. -/
theorem everyChooserParsesValidly : Obligations.EveryChooserParsesValidly := by
  unfold Obligations.EveryChooserParsesValidly
  exact parseOf_valid

/-- Settles O43: a well-formed stream is that of a valid parse. -/
theorem decompressOfWellFormedStream : Obligations.DecompressOfWellFormedStream := by
  unfold Obligations.DecompressOfWellFormedStream
  rintro x _ dstMax hx ⟨-, p, hvalid, rfl⟩ hfits
  exact decompress_streamOf hx hvalid hfits

/-! ## Expansion (R113) -/

/-- Where the declared size leaves room, the copy of `Decompress` is the expansion of the reference. -/
theorem foldl_append_eq_copyOut {size d l : Nat} {out : List Byte} (h : out.length + l ≤ size) :
    (List.range l).foldl (fun o _ => o ++ [o.getD (o.length - d) 0]) out = copyOut size d l out := by
  induction l generalizing out with
  | zero => rfl
  | succ l ih =>
    rw [copyOut, if_neg (by omega), ← ih (by simp; omega), List.range_succ_eq_map, List.foldl_cons, List.foldl_map]

theorem expandFrom_valid {x : List Byte} {pos : Nat} {p : List Item} (h : validFrom x pos p = true) :
    expandFrom (x.take pos) p = x := by
  induction p generalizing pos with
  | nil =>
    obtain rfl : pos = x.length := of_decide_eq_true h
    exact List.take_length
  | cons it p ih =>
    rw [validFrom, Bool.and_eq_true] at h
    obtain ⟨hvalid, hrest⟩ := h
    cases it with
    | lit b =>
      rw [expandFrom, take_append_of_getElem? (validAt_lit_iff.1 hvalid)]
      exact ih hrest
    | ref d l =>
      obtain ⟨-, ⟨hd, -, hback⟩, hdata, hagree⟩ := validAt_ref_iff.1 hvalid
      rw [expandFrom, foldl_append_eq_copyOut (size := x.length) (by rw [List.length_take]; omega),
        copyOut_take hd hback hdata hagree]
      exact ih hrest

/-- Settles O41, from the start of the data. -/
theorem validParseExpandsToData : Obligations.ValidParseExpandsToData := by
  unfold Obligations.ValidParseExpandsToData
  exact fun x p h => expandFrom_valid h

/-! ## The groups of a body (R57, R114) -/

/-- The emission is a loop: it goes on behind the first items from where they leave it. -/
theorem exists_emitFrom_append (i ctlpos : Nat) (out : List Byte) (p q : List Item) :
    ∃ ctlpos', emitFrom i ctlpos out (p ++ q) = emitFrom (i + p.length) ctlpos' (emitFrom i ctlpos out p) q := by
  induction p generalizing i ctlpos out with
  | nil => exact ⟨ctlpos, rfl⟩
  | cons it p ih =>
    obtain ⟨ctlpos', h⟩ := ih (i + 1) _ _
    refine ⟨ctlpos', ?_⟩
    rw [List.length_cons, ← Nat.add_assoc, Nat.add_right_comm]
    exact h

/-- Behind whole groups a body begins afresh. -/
theorem emit_append {p : List Item} (hp : p.length % 8 = 0) (q : List Item) : emit (p ++ q) = emit p ++ emit q := by
  obtain ⟨ctlpos, h⟩ := exists_emitFrom_append 0 0 [] p q
  rw [emit, h]
  exact emitFrom_boundary (by omega) _ _ q

/-- Settles O45: a body is its groups, each with the control bits of its items. -/
theorem emitIsGroups : Obligations.EmitIsGroups := by
  unfold Obligations.EmitIsGroups
  refine ⟨rfl, fun p q hp => emit_append hp q, fun it p hp => ⟨controlBits 0 (it :: p), ?_, fun k hk => ?_⟩⟩
  · have hgroup := emit_group_append (g := it :: p) (q := []) (by simp) (Nat.succ_le_succ hp) (.inr rfl)
    rw [List.append_nil] at hgroup
    exact hgroup.trans (List.append_nil _)
  · rw [getMsbD_controlBits (by rw [Nat.zero_add]; exact Nat.succ_le_succ hp) hk, if_pos (Nat.zero_le k), Nat.sub_zero]
    rcases (it :: p)[k]? with _ | (_ | _) <;> rfl

/-! ## The size of a stream (R114, R125) -/

/-- The bytes of the tokens, control bytes apart. -/
def tokenBytes (p : List Item) : List Byte := p.flatMap itemBytes

theorem tokenBytes_cons (it : Item) (p : List Item) : tokenBytes (it :: p) = itemBytes it ++ tokenBytes p := rfl

/-- A body has a control byte for every eight tokens, and the tokens' bytes. -/
theorem emit_length (p : List Item) : (emit p).length = (p.length + 7) / 8 + (tokenBytes p).length := by
  by_cases hne : p = []
  · rw [hne]
    rfl
  · obtain ⟨g, q, rfl, hg, hlen, hfull, hshort⟩ := exists_group hne
    have hpos := List.length_pos_of_ne_nil hg
    have htokens : tokenBytes (g ++ q) = g.flatMap itemBytes ++ tokenBytes q := List.flatMap_append
    rw [emit_group_append hg hlen hfull, htokens, List.length_append, List.length_append, List.length_append, groupBytes,
      List.length_cons, emit_length q]
    rcases hfull with hfull | rfl
    · omega
    · simp only [List.length_nil]
      omega
termination_by p.length

theorem tokenBytes_length (p : List Item) : (tokenBytes p).length = (p.map fun it => (itemBytes it).length).sum :=
  List.length_flatMap

/-- A valid parse covers what is left of the data. -/
theorem validFrom_spanSum {x : List Byte} {pos : Nat} {p : List Item} (h : validFrom x pos p = true) :
    pos + spanSum p = x.length := by
  induction p generalizing pos with
  | nil => exact of_decide_eq_true h
  | cons it p ih =>
    rw [validFrom, Bool.and_eq_true] at h
    have hrest := ih h.2
    rw [spanSum, List.map_cons, List.sum_cons]
    rw [spanSum] at hrest
    omega

/-- The tokens of a valid parse take no more bytes than they cover. -/
theorem tokenBytes_length_le {x : List Byte} {pos : Nat} {p : List Item} (h : validFrom x pos p = true) :
    (tokenBytes p).length ≤ spanSum p := by
  induction p generalizing pos with
  | nil => exact Nat.le_refl 0
  | cons it p ih =>
    rw [validFrom, Bool.and_eq_true] at h
    have hitem := itemBytes_length_le_span h.1
    have hrest := ih h.2
    rw [tokenBytes_cons, List.length_append, spanSum, List.map_cons, List.sum_cons]
    rw [spanSum] at hrest
    omega

theorem streamOf_length (m : Nat) (p : List Item) : (streamOf m p).length = 16 + (emit p).length := by
  rw [streamOf, List.length_append, header_length]

/-- Settles O47, by the count of a body's bytes. -/
theorem streamSizeBound : Obligations.StreamSizeBound := by
  unfold Obligations.StreamSizeBound
  intro x p h
  constructor
  · have hitems := validFrom_length h
    have hspans := validFrom_spanSum h
    have htokens := tokenBytes_length_le h
    rw [streamOf_length, emit_length]
    omega
  · rw [emit_length, tokenBytes_length]
    congr 3
    funext it
    cases it with
    | lit b => rfl
    | ref d l => exact itemBytes_ref_length d l

/-! ## The shape of a stream (R126) -/

/-- Only empty data has an empty body. -/
theorem emit_eq_nil_iff (p : List Item) : (emit p).length = 0 ↔ p = [] := by
  constructor
  · intro h
    rw [emit_length] at h
    exact List.length_eq_zero_iff.1 (by omega)
  · rintro rfl
    rfl

theorem parseOf_eq_nil_iff (ch : Chooser) (x : List Byte) : parseOf ch x = [] ↔ x = [] := by
  constructor
  · intro h
    have hspans := validFrom_spanSum (parseOf_valid ch x)
    rw [h] at hspans
    exact List.length_eq_zero_iff.1 hspans.symm
  · rintro rfl
    rfl

/-- ISCOMP's answer on a stream is whether it has a body (R84). -/
theorem isCompressed_streamOf (m : Nat) (p : List Item) : isCompressed (streamOf m p) = decide (p ≠ []) := by
  have hmagic : (streamOf m p).take 4 = magic := rfl
  rw [isCompressed, hmagic, beq_self_eq_true, Bool.and_true, streamOf_length, decide_eq_decide, ne_eq, ← emit_eq_nil_iff]
  omega

/-- No match in data of at most three bytes is long enough to use: one would need a byte before it and three more. -/
theorem search_short {x : List Byte} (hx : x.length ≤ 3) (pos : Nat) : (search x pos).1 < 3 := by
  by_contra hlong
  have hmatch := search_isMatch (x := x) (pos := pos) (by omega)
  have hdata := hmatch.inData
  have hbefore := hmatch.before
  omega

/-- Where no match can be used, the reference engine's parse is the literals of the data (R117). -/
theorem parseFrom_literals {x : List Byte} (hsearch : ∀ pos, (search x pos).1 < 3) {fuel pos : Nat}
    (hfuel : x.length - pos ≤ fuel) : parseFrom .reference x fuel pos none = (x.drop pos).map Item.lit := by
  induction fuel generalizing pos with
  | zero => rw [List.drop_eq_nil_of_le (by omega)]; rfl
  | succ fuel ih =>
    unfold parseFrom
    split
    · next hpos =>
      have hshort := Nat.not_le.2 (hsearch pos)
      have hpick : choose .reference x pos none = (.lit x[pos], none) := by
        rw [choose_reference_none, if_neg (fun h => hshort h.1), takeMatch, minLength, if_neg hshort, literalAt]
        simp [hpos]
      dsimp only
      rw [hpick, List.drop_eq_getElem_cons hpos, List.map_cons]
      exact congrArg _ (ih (pos := pos + 1) (by omega))
    · next hpos => rw [List.drop_eq_nil_of_le (by omega)]; rfl

/-- Settles O48: the answer by the body, and the parse by the search. -/
theorem compressedStreamShape : Obligations.CompressedStreamShape := by
  unfold Obligations.CompressedStreamShape
  refine ⟨fun cfg x s _ hs => ?_, fun x hx => ?_⟩
  · obtain rfl := compress_ok hs
    rw [isCompressed_streamOf, decide_eq_decide]
    exact not_congr (parseOf_eq_nil_iff cfg.chooser x)
  · exact parseFrom_literals (search_short hx) (Nat.sub_le _ _)

end Sys2Proof.Machine

/-! # What Decompress delivers and reads (41_decompress R102, 30_encoding R67 and R68) -/

namespace Sys2Proof.Machine

/-! ## The rounds of the loop (R101) -/

/-- What a round that goes on does: it reads the token `i` with the control bit of `ctl`, and goes on behind it. -/
theorem decompressLoop_ok_token {size fuel cnt : Nat} {bytes out o : List Byte} {ctl : Byte}
    (h : decompressLoop size (fuel + 1) bytes ctl cnt out = .ok o) (hroom : out.length < size) (hcnt : cnt ≠ 0) :
    ∃ i rest out', decodeToken ctl.msb bytes = .ok (i, rest) ∧ tokenOutput size out i = .ok out' ∧
      decompressLoop size fuel rest (ctl <<< 1) (cnt - 1) out' = .ok o := by
  rw [decompressLoop_token hroom hcnt] at h
  cases hdecode : decodeToken ctl.msb bytes with
  | error e => rw [hdecode] at h; cases h
  | ok d =>
    obtain ⟨i, rest⟩ := d
    rw [hdecode] at h
    change (tokenOutput size out i).bind _ = _ at h
    cases hout : tokenOutput size out i with
    | error e => rw [hout] at h; cases h
    | ok out' => rw [hout] at h; exact ⟨i, rest, out', rfl, hout, h⟩

/-- The bytes a token is read from, apart from those that follow: it is read from them whatever follows. -/
theorem decodeToken_bytes {ctl : Bool} {bytes rest : List Byte} {i : Instr} (h : decodeToken ctl bytes = .ok (i, rest)) :
    ∃ c, bytes = c ++ rest ∧ ∀ more, decodeToken ctl (c ++ more) = .ok (i, more) := by
  obtain ⟨hwf, hcode⟩ := encodeOfDecode (.token ctl bytes) i rest h
  have hdecode := decodeOfEncode i hwf
  cases hi : encode i with
  | token c bs =>
    rw [hi] at hcode hdecode
    obtain ⟨rfl, rfl⟩ := Code.token.inj hcode
    exact ⟨bs, rfl, hdecode⟩
  | control bs => rw [hi] at hcode; cases hcode
  | command c => rw [hi] at hcode; cases hcode

theorem decodeToken_append {ctl : Bool} {bytes rest : List Byte} {i : Instr}
    (h : decodeToken ctl bytes = .ok (i, rest)) (more : List Byte) :
    decodeToken ctl (bytes ++ more) = .ok (i, rest ++ more) := by
  obtain ⟨c, rfl, hdecode⟩ := decodeToken_bytes h
  rw [List.append_assoc]
  exact hdecode _

theorem copyOut_length {size dist len : Nat} {out : List Byte} (h : out.length ≤ size) :
    (copyOut size dist len out).length = min (out.length + len) size := by
  induction len generalizing out with
  | zero => rw [copyOut]; omega
  | succ len ih =>
    rw [copyOut]
    split
    · omega
    · rw [ih (by simp; omega), List.length_append, List.length_singleton]
      omega

/-- A token appends at least one byte, and none past the declared size. -/
theorem tokenOutput_length {size : Nat} {ctl : Bool} {bytes rest out out' : List Byte} {i : Instr}
    (hdecode : decodeToken ctl bytes = .ok (i, rest)) (hroom : out.length < size) (h : tokenOutput size out i = .ok out') :
    out.length < out'.length ∧ out'.length ≤ size := by
  have hcopy {dist len : Nat} (hlen : 0 < len)
      (h : (if out.length < dist then .error FaultCode.badDistance else .ok (copyOut size dist len out)) = Except.ok out') :
      out.length < out'.length ∧ out'.length ≤ size := by
    split at h
    · cases h
    · obtain rfl := Except.ok.inj h
      rw [copyOut_length (Nat.le_of_lt hroom)]
      omega
  obtain ⟨d, rfl, -⟩ | ⟨a, b, rfl, -⟩ | ⟨a, b, c, rfl, -⟩ := decodeToken_ok hdecode
  · obtain rfl := Except.ok.inj h
    rw [List.length_append, List.length_singleton]
    omega
  · exact hcopy (Nat.succ_pos _) h
  · exact hcopy (Nat.succ_pos _) h

/-- A round that goes on where a control byte is due begins with that byte. -/
theorem decompressLoop_ok_control {size fuel : Nat} {bytes out o : List Byte} {ctl : Byte}
    (h : decompressLoop size (fuel + 1) bytes ctl 0 out = .ok o) (hroom : out.length < size) :
    ∃ k rest, bytes = k :: rest ∧ decompressLoop size (fuel + 1) rest k 8 out = .ok o := by
  cases bytes with
  | nil => rw [decompressLoop_missing_control hroom] at h; cases h
  | cons k rest => exact ⟨k, rest, rfl, (decompressLoop_control hroom fuel k rest ctl).symm.trans h⟩

/-- A property of a loop that ends well, by its rounds: it holds where the output is full, a control byte keeps it, and so
does a token. -/
theorem decompressLoop_induction {size : Nat} {o : List Byte} {P : Nat → List Byte → Byte → Nat → List Byte → Prop}
    (full : ∀ fuel bytes ctl cnt, o.length = size → P fuel bytes ctl cnt o)
    (control : ∀ fuel rest k ctl out, out.length < size → P (fuel + 1) rest k 8 out → P (fuel + 1) (k :: rest) ctl 0 out)
    (token : ∀ fuel bytes rest (ctl : Byte) cnt out out' i, out.length < size → cnt ≠ 0 →
      decodeToken ctl.msb bytes = .ok (i, rest) → tokenOutput size out i = .ok out' →
      P fuel rest (ctl <<< 1) (cnt - 1) out' → P (fuel + 1) bytes ctl cnt out)
    {fuel cnt : Nat} {bytes out : List Byte} {ctl : Byte} (hfuel : size - out.length ≤ fuel) (hsize : out.length ≤ size)
    (h : decompressLoop size fuel bytes ctl cnt out = .ok o) : P fuel bytes ctl cnt out := by
  induction fuel generalizing bytes ctl cnt out with
  | zero =>
    obtain rfl := Except.ok.inj h
    exact full 0 bytes ctl cnt (by omega)
  | succ fuel ih =>
    by_cases hroom : out.length < size
    · have inside {bytes : List Byte} {ctl : Byte} {cnt : Nat} (hcnt : cnt ≠ 0)
          (h : decompressLoop size (fuel + 1) bytes ctl cnt out = .ok o) : P (fuel + 1) bytes ctl cnt out := by
        obtain ⟨i, rest, out', hdecode, hout, hloop⟩ := decompressLoop_ok_token h hroom hcnt
        obtain ⟨hmore, hbound⟩ := tokenOutput_length hdecode hroom hout
        exact token fuel bytes rest ctl cnt out out' i hroom hcnt hdecode hout (ih (by omega) hbound hloop)
      by_cases hdue : cnt = 0
      · subst hdue
        obtain ⟨k, rest, rfl, hloop⟩ := decompressLoop_ok_control h hroom
        exact control fuel rest k ctl out hroom (inside (by decide) hloop)
      · exact inside hdue h
    · rw [decompressLoop_full hroom] at h
      obtain rfl := Except.ok.inj h
      exact full (fuel + 1) bytes ctl cnt (by omega)

/-! ## What is delivered (R91, R102) -/

/-- `Decompress` delivers only what its loop does, from a whole header. -/
theorem decompress_ok {dstMax : Option Nat} {x out : List Byte} (h : decompress dstMax x = .ok out) :
    decompressLoop (declaredSizeOf x).toNat (declaredSizeOf x).toNat (x.drop 16) 0 0 [] = .ok out := by
  unfold decompress at h
  dsimp only at h
  split at h
  · cases h
  · split at h
    · cases h
    · split at h
      · cases h
      · exact h

/-- Settles O32: the loop ends where the output is full. -/
theorem decompressDeliversDeclaredSize : Obligations.DecompressDeliversDeclaredSize := by
  unfold Obligations.DecompressDeliversDeclaredSize
  intro dstMax x out h
  exact decompressLoop_induction (P := fun _ _ _ _ _ => out.length = (declaredSizeOf x).toNat) (fun _ _ _ _ hfull => hfull)
    (fun _ _ _ _ _ _ hrest => hrest) (fun _ _ _ _ _ _ _ _ _ _ _ _ hrest => hrest) (Nat.sub_le _ _) (Nat.zero_le _)
    (decompress_ok h)

/-! ## What is not read (R67, R68) -/

/-- Bytes behind those that a loop reads do not change what it delivers. -/
theorem decompressLoop_append {size fuel cnt : Nat} {bytes out o : List Byte} {ctl : Byte}
    (hfuel : size - out.length ≤ fuel) (hsize : out.length ≤ size)
    (h : decompressLoop size fuel bytes ctl cnt out = .ok o) (more : List Byte) :
    decompressLoop size fuel (bytes ++ more) ctl cnt out = .ok o := by
  refine decompressLoop_induction
    (P := fun fuel bytes ctl cnt out => decompressLoop size fuel (bytes ++ more) ctl cnt out = .ok o)
    (fun fuel bytes ctl cnt hfull => decompressLoop_full (by omega) ..)
    (fun fuel rest k ctl out hroom hrest => (decompressLoop_control hroom fuel k _ ctl).trans hrest)
    (fun fuel bytes rest ctl cnt out out' i hroom hcnt hdecode hout hrest => ?_) hfuel hsize h
  rw [decompressLoop_token hroom hcnt, decodeToken_append hdecode]
  show (tokenOutput size out i).bind _ = _
  rw [hout]
  exact hrest

/-- `Decompress` of a whole header and a body: of the header it reads the first eight bytes. -/
theorem decompress_header {dstMax : Option Nat} {front r body : List Byte} (hfront : front.length = 8) (hr : r.length = 8) :
    decompress dstMax (front ++ r ++ body) =
      if front.take 4 ≠ magic then .error .formatError
      else if fits dstMax (declaredSizeOf front).toNat = false then .error .dstOverflow
      else decompressLoop (declaredSizeOf front).toNat (declaredSizeOf front).toNat body 0 0 [] := by
  have hlength : (front ++ r ++ body).length = 16 + body.length := by simp [hfront, hr]; omega
  have htake : (front ++ r ++ body).take 4 = front.take 4 := by
    rw [List.append_assoc, List.take_append_of_le_length (by omega)]
  have hdrop : (front ++ r ++ body).drop 16 = body := List.drop_left' (by simp [hfront, hr])
  have hbyte {a : Nat} (ha : a < 8) : (front ++ r ++ body).getD a 0 = front.getD a 0 := by
    rw [List.append_assoc, List.getD_append _ _ _ _ (by omega)]
  have hsize : declaredSizeOf (front ++ r ++ body) = declaredSizeOf front := by
    rw [declaredSizeOf, hbyte (by decide), hbyte (by decide), hbyte (by decide), hbyte (by decide)]
    rfl
  rw [decompress, htake, hsize, hdrop]
  simp only [show ¬ (front ++ r ++ body).length < 4 by omega, show ¬ (front ++ r ++ body).length < 16 by omega, false_or,
    if_false]

/-- Settles O33: the header is read in its first eight bytes, and the loop reads no byte behind the last token. -/
theorem decompressIgnoresUnusedBytes : Obligations.DecompressIgnoresUnusedBytes := by
  unfold Obligations.DecompressIgnoresUnusedBytes
  intro dstMax front r r' body hfront hr hr'
  refine ⟨by rw [decompress_header hfront hr, decompress_header hfront hr'], fun out more h => ?_⟩
  rw [decompress_header hfront hr] at h
  rw [List.append_assoc _ body, decompress_header hfront hr]
  split at h
  · cases h
  · next hmagic =>
    split at h
    · cases h
    · next hfits =>
      rw [if_neg hmagic, if_neg hfits]
      exact decompressLoop_append (Nat.sub_le _ _) (Nat.zero_le _) h more

end Sys2Proof.Machine

/-! # A token step of DECOMP (41_decompress R91 to R98)

A step takes the control byte where one is due, decodes the token at `SP` and runs it; a token that completes is read,
appends its bytes to the output, and makes the stop test. -/

namespace Sys2Proof.Machine

/-! ## The token that a step runs (R98) -/

/-- A decoded token's meaning is its effect, and the step's end. -/
theorem exec_token {ctl : Bool} {bytes rest : List Byte} {i : Instr} (h : decodeToken ctl bytes = .ok (i, rest)) (s : State) :
    exec i s = finish s (tokenEffect i s) := by
  obtain ⟨d, rfl, -⟩ | ⟨a, b, rfl, -⟩ | ⟨a, b, c, rfl, -⟩ := decodeToken_ok h <;> rfl

theorem fetchToken_of_decode {s : State} {i : Instr} {rest : List Byte}
    (h : decodeToken s.ctl.msb s.unread = .ok (i, rest)) : fetchToken s = .ok i := by
  rw [fetchToken_eq_map, h]
  rfl

theorem fetchToken_missing {s : State} {e : DecodeError} (h : decodeToken s.ctl.msb s.unread = .error e) :
    fetchToken s = .error (.raise .truncatedInput) := by
  rw [fetchToken_eq_map, h]
  rfl

/-- Once the control byte is judged, the step is the effect of the token that is read. -/
theorem decompStep_of_decode {s v : State} {i : Instr} {rest : List Byte} (hroom : s.dp.toNat < s.dsize.toNat)
    (hcontrol : controlFetch s = .ok v) (h : decodeToken v.ctl.msb v.unread = .ok (i, rest)) :
    decompStep s = tokenEffect i v := by
  rw [decompStep, if_pos hroom, hcontrol]
  simp only [Except.bind, fetchToken_of_decode h]

theorem decompStep_of_missing {s v : State} {e : DecodeError} (hroom : s.dp.toNat < s.dsize.toNat)
    (hcontrol : controlFetch s = .ok v) (h : decodeToken v.ctl.msb v.unread = .error e) :
    decompStep s = .error (.raise .truncatedInput) := by
  rw [decompStep, if_pos hroom, hcontrol]
  simp only [Except.bind, fetchToken_missing h]

theorem step_decomp_token {s : State} (hmoves : s.moves = []) (hbusy : s.status = .busy) (hop : s.op = 2)
    (hstart : s.started = true) : step s = finish s (decompStep s) := by
  rw [step_decomp hmoves hbusy hop, hstart]
  rfl

/-- Settles O19: no control byte is due, so the token at `SP` is read with the next control bit. -/
theorem stepRunsDecodedToken : Obligations.StepRunsDecodedToken := by
  unfold Obligations.StepRunsDecodedToken
  intro s hmoves hbusy hop hstart hroom hcnt
  rw [step_decomp_token hmoves hbusy hop hstart]
  refine ⟨fun i rest h => ?_, fun e h => ?_⟩
  · rw [decompStep_of_decode hroom (controlFetch_not_due hcnt) h, exec_token h]
  · rw [decompStep_of_missing hroom (controlFetch_not_due hcnt) h]
    rfl

theorem State.unread_cons {s : State} (h : s.sp.toNat < s.srcLen.toNat) :
    s.unread = s.srcByte s.sp.toNat :: s.input.drop (s.sp.toNat + 1) := by
  have hlength : s.sp.toNat < s.input.length := by rwa [State.input_length]
  rw [State.unread, List.drop_eq_getElem_cons hlength]
  congr 1
  exact Option.some.inj ((List.getElem?_eq_getElem hlength).symm.trans (s.input_getElem? h))

/-- The end of a step that runs a token in `u` and began in `s`: the token's own end, but for a fault's working registers. -/
theorem finish_of_inner {s u t : State} {r : Except Stop State} (hr : FaultsByRaise r)
    (h : finish u r = .next t) : finish s r = .next (if t.status = .fault then s.raise t.fault else t) := by
  cases hr with
  | ok hok =>
    obtain rfl := Host.Outcome.next.inj h
    rw [if_neg hok]
    rfl
  | raise hcode =>
    obtain rfl := Host.Outcome.next.inj h
    rfl
  | halt e => cases h

/-- Settles O20: the control byte opens the group, in which the token is read. -/
theorem stepTakesControlByteThenToken : Obligations.StepTakesControlByteThenToken := by
  unfold Obligations.StepTakesControlByteThenToken
  intro s hmoves hbusy hop hstart hroom hdue
  have hcontrol (hsp : s.sp.toNat < s.srcLen.toNat) : controlFetch s = .ok (s.openGroup (s.srcByte s.sp.toNat)) :=
    controlFetch_due hdue (State.unread_cons hsp)
  rw [step_decomp_token hmoves hbusy hop hstart]
  refine ⟨fun hsp => ?_, fun hsp => ⟨_, congrArg (finish s) (controlByte_due _ hdue hsp), fun i rest h t ht => ?_⟩,
    fun hsp e h => ?_⟩
  · have hnone : s.unread = [] := List.drop_eq_nil_of_le (by rwa [State.input_length])
    rw [decompStep, if_pos hroom, controlFetch_missing hdue hnone]
    rfl
  · rw [exec_token h] at ht
    rw [decompStep_of_decode hroom (hcontrol hsp) h]
    exact finish_of_inner (tokenEffect_faultsByRaise i (by simp [State.openGroup, hbusy])) ht
  · rw [decompStep_of_missing (e := e) hroom (hcontrol hsp) ?_]
    · rfl
    · rw [State.unread_openGroup (State.unread_cons hsp)]
      exact h

/-! ## What a token does (R94 to R97) -/

@[simp] theorem stopIfFull_fault (s : State) : (stopIfFull s).fault = s.fault := by rw [stopIfFull_frame]
@[simp] theorem stopIfFull_dsize (s : State) : (stopIfFull s).dsize = s.dsize := by rw [stopIfFull_frame]
@[simp] theorem stopIfFull_moves (s : State) : (stopIfFull s).moves = s.moves := by rw [stopIfFull_frame]

/-- The bytes of SRC that a token takes (R59 to R61). -/
def tokenSize : Instr → Nat
  | .lit _ => 1
  | .ref _ _ _ => 2
  | .refx _ _ _ => 3
  | _ => 0

/-- What a token writes, its checks made. -/
def appendToken : Instr → State → Except Stop State
  | .lit d, s => appendDst d s
  | .ref n h l, s => copyBack (distance h l) (shortLength n) s
  | .refx h l c, s => copyBack (distance h l) (longLength c) s
  | _, s => .ok s

/-- How many bytes a token appends (R94, R97). -/
def State.appended (s : State) : Instr → Nat
  | .lit _ => 1
  | .ref n _ _ => copied s (shortLength n)
  | .refx _ _ c => copied s (longLength c)
  | _ => 0

theorem needBytes_ok {k : Nat} {s t : State} (h : needBytes k s = .ok t) : s.sp.toNat + k ≤ s.srcLen.toNat := by
  unfold needBytes at h
  split at h
  · next hle => exact hle
  · cases h

theorem copyChecked_eq_ok {dist len : Nat} {s t : State} (h : copyChecked dist len s = .ok t) :
    copyBack dist len s = .ok t := by
  unfold copyChecked at h
  split at h
  · cases h
  · exact h

/-- A token completes only where its bytes are there; it is then read and what it writes is written. -/
theorem tokenEffect_ok {i : Instr} {s t : State} (h : tokenEffect i s = .ok t) :
    ∃ sp u, s.sp.toNat + tokenSize i ≤ s.srcLen.toNat ∧ sp.toNat = s.sp.toNat + tokenSize i ∧
      appendToken i (s.tokenRead sp) = .ok u ∧ t = stopIfFull u := by
  cases i with
  | lit d =>
    obtain ⟨u, hbind, rfl⟩ := except_map_ok h
    obtain ⟨w, hneed, happ⟩ := except_bind_ok hbind
    have hsp : s.sp.toNat + 1 ≤ s.srcLen.toNat := needBytes_ok (s := s.takeBit) hneed
    obtain rfl := Except.ok.inj ((needBytes_of_le (s := s.takeBit) hsp).symm.trans hneed)
    exact ⟨_, u, hsp, State.sp_advance (k := 1) hsp, happ, rfl⟩
  | ref n b l =>
    by_cases hsp : s.sp.toNat + 2 ≤ s.srcLen.toNat
    · rw [tokenEffect, refToken_eq hsp] at h
      obtain ⟨u, hcopy, rfl⟩ := except_map_ok h
      exact ⟨_, u, hsp, State.sp_advance (k := 2) hsp, copyChecked_eq_ok hcopy, rfl⟩
    · rw [tokenEffect, refToken_missing (Nat.not_le.1 hsp)] at h
      cases h
  | refx b l c =>
    by_cases hsp : s.sp.toNat + 3 ≤ s.srcLen.toNat
    · rw [tokenEffect, refxToken_eq hsp] at h
      obtain ⟨u, hcopy, rfl⟩ := except_map_ok h
      exact ⟨_, u, hsp, State.sp_advance_three hsp, copyChecked_eq_ok hcopy, rfl⟩
    · rw [tokenEffect, refxToken_missing (Nat.not_le.1 hsp)] at h
      cases h
  | _ => cases h

theorem copyBack_writes {dist len : Nat} {s t : State} (h : copyBack dist len s = .ok t) :
    ∃ m d, t = { s with dst := m, dp := d } := by
  induction len generalizing s with
  | zero => exact ⟨_, _, (Except.ok.inj h).symm⟩
  | succ len ih =>
    unfold copyBack at h
    split at h
    · exact ⟨_, _, (Except.ok.inj h).symm⟩
    · obtain ⟨u, happ, hrest⟩ := except_bind_ok h
      obtain ⟨-, rfl⟩ := appendDst_ok_iff.1 happ
      obtain ⟨m, d, ht⟩ := ih hrest
      exact ⟨m, d, ht⟩

/-- What a token writes is DST and `DP`. -/
theorem appendToken_writes {i : Instr} {s t : State} (h : appendToken i s = .ok t) :
    ∃ m d, t = { s with dst := m, dp := d } := by
  cases i with
  | lit d => exact ⟨_, _, (appendDst_ok_iff.1 h).2⟩
  | ref n b l => exact copyBack_writes h
  | refx b l c => exact copyBack_writes h
  | _ => exact ⟨_, _, (Except.ok.inj h).symm⟩

/-- The bytes a token writes: those from `DP` up to the new `DP`, and no other. -/
structure AppendsBytes (s t : State) (n : Nat) : Prop where
  dp : t.dp.toNat = s.dp.toNat + n
  frame : ∀ a, a < s.dp.toNat ∨ s.dp.toNat + n ≤ a → Memory.read t.dst a = Memory.read s.dst a
  written : ∀ k, k < n → (Memory.read t.dst (s.dp.toNat + k)).isSome = true
  wf : Memory.wf s.dst = true → Memory.wf t.dst = true

theorem copyBack_appendsBytes {dist len : Nat} {s t : State} (h : copyBack dist len s = .ok t)
    (hdp : s.dp.toNat ≤ s.dsize.toNat) : AppendsBytes s t (copied s len) := by
  obtain ⟨m, ht, hdp', hframe, hwf, hsome, -⟩ := copyBack_ok h hdp
  have hdst : t.dst = m := by rw [ht]
  exact ⟨hdp', by rw [hdst]; exact hframe, by rw [hdst]; exact hsome, by rw [hdst]; exact hwf⟩

theorem appendToken_appendsBytes {i : Instr} {s t : State} (h : appendToken i s = .ok t)
    (hdp : s.dp.toNat ≤ s.dsize.toNat) : AppendsBytes s t (s.appended i) := by
  cases i with
  | lit d =>
    obtain ⟨-, rfl⟩ := appendDst_ok_iff.1 h
    have hlt := s.dsize.isLt
    refine ⟨State.dp_succ (by omega), fun a ha => Memory.read_write_other ?_ _ _, fun k hk => ?_, Memory.wf_write _ _ _⟩
    · simp only [State.appended] at ha
      omega
    · obtain rfl : k = 0 := Nat.lt_one_iff.1 hk
      exact congrArg Option.isSome (Memory.read_write_same _ _ _)
  | ref n b l => exact copyBack_appendsBytes h hdp
  | refx b l c => exact copyBack_appendsBytes h hdp
  | _ =>
    obtain rfl := Except.ok.inj h
    exact ⟨rfl, fun _ _ => rfl, fun k hk => absurd hk (Nat.not_lt_zero k), id⟩

/-- All that a token that completes can do, while the output has not passed the declared size. -/
theorem tokenEffect_ok_appends {i : Instr} {s t : State} (h : tokenEffect i s = .ok t)
    (hdp : s.dp.toNat ≤ s.dsize.toNat) :
    ∃ sp dp m, t = stopIfFull (s.afterToken sp dp m) ∧ s.sp.toNat + tokenSize i ≤ s.srcLen.toNat ∧
      sp.toNat = s.sp.toNat + tokenSize i ∧ AppendsBytes s (s.afterToken sp dp m) (s.appended i) := by
  obtain ⟨sp, u, hroom, hsp, happ, rfl⟩ := tokenEffect_ok h
  have hbytes : AppendsBytes s u (s.appended i) := by
    have := appendToken_appendsBytes happ hdp
    cases i <;> exact ⟨this.dp, this.frame, this.written, this.wf⟩
  obtain ⟨m, d, rfl⟩ := appendToken_writes happ
  exact ⟨sp, d, m, rfl, hroom, hsp, hbytes⟩

/-- Settles O27: a token that traps is fault entry, and one that completes appends its bytes. -/
theorem tokenFrame : Obligations.TokenFrame := by
  unfold Obligations.TokenFrame
  intro s t i len hi hdp h
  have hlen : exec i s = finish s (tokenEffect i s) ∧ len = s.appended i := by
    obtain ⟨d, rfl, rfl⟩ | ⟨n, b, l, rfl, rfl⟩ | ⟨b, l, c, rfl, rfl⟩ := hi <;> exact ⟨rfl, rfl⟩
  obtain ⟨hexec, rfl⟩ := hlen
  obtain hok | ⟨f, -, rfl⟩ := finish_next_iff.1 (hexec.symm.trans h)
  · obtain ⟨sp, dp, m, rfl, -, -, hbytes⟩ := tokenEffect_ok_appends hok hdp
    rw [stopIfFull_dst, stopIfFull_fault, ← stopIfFull_dst]
    exact ⟨by rw [stopIfFull_dst]; exact hbytes.frame, stopIfFull_afterToken_frame s sp dp m⟩
  · exact ⟨fun _ _ => rfl, rfl⟩

/-! ## What a step does -/

/-- Where the control byte is judged: it was due and there, or not due. -/
theorem controlFetch_ok {s v : State} (h : controlFetch s = .ok v) :
    (s.cnt = 0 ∧ ∃ k rest, s.unread = k :: rest ∧ v = s.openGroup k) ∨ (s.cnt ≠ 0 ∧ v = s) := by
  by_cases hdue : s.cnt = 0
  · cases hunread : s.unread with
    | nil => rw [controlFetch_missing hdue hunread] at h; cases h
    | cons k rest =>
      rw [controlFetch_due hdue hunread] at h
      exact .inl ⟨hdue, k, rest, rfl, (Except.ok.inj h).symm⟩
  · rw [controlFetch_not_due hdue] at h
    exact .inr ⟨hdue, (Except.ok.inj h).symm⟩

/-- All that a step that completes can do: the control byte is judged, and the token behind it is read and run. -/
theorem decompStep_ok {s t : State} (h : decompStep s = .ok t) :
    s.dp.toNat < s.dsize.toNat ∧ ∃ v i rest, controlFetch s = .ok v ∧
      decodeToken v.ctl.msb v.unread = .ok (i, rest) ∧ tokenEffect i v = .ok t := by
  by_cases hroom : s.dp.toNat < s.dsize.toNat
  · cases hcontrol : controlFetch s with
    | error e => rw [decompStep, if_pos hroom, hcontrol] at h; cases h
    | ok v =>
      cases hdecode : decodeToken v.ctl.msb v.unread with
      | error e => rw [decompStep_of_missing hroom hcontrol hdecode] at h; cases h
      | ok d => exact ⟨hroom, v, d.1, d.2, rfl, hdecode, (decompStep_of_decode hroom hcontrol hdecode).symm.trans h⟩
  · rw [decompStep, if_neg hroom] at h
    cases h

/-- The state in which a step's token is read, and what has been read before it. -/
theorem controlFetch_ok_frame {s v : State} (h : controlFetch s = .ok v) :
    v = { s with sp := v.sp, ctl := v.ctl, cnt := v.cnt } ∧ s.sp.toNat ≤ v.sp.toNat ∧ v.sp.toNat ≤ s.sp.toNat + 1 := by
  obtain ⟨-, k, rest, hunread, rfl⟩ | ⟨-, rfl⟩ := controlFetch_ok h
  · have hsp : (s.sp + 1).toNat = s.sp.toNat + 1 :=
      State.sp_advance (k := 1) (State.sp_add_le Nat.one_pos (by rw [hunread]; exact Nat.le_add_left 1 _))
    refine ⟨rfl, ?_, ?_⟩
    all_goals
      show _ ≤ _
      simp only [State.openGroup, hsp]
      omega
  · exact ⟨rfl, Nat.le_refl _, Nat.le_succ _⟩

/-- A decoded token takes one to three bytes, and appends one to 273, none past the declared size. -/
theorem decodeToken_bounds {ctl : Bool} {bytes rest : List Byte} {i : Instr} (h : decodeToken ctl bytes = .ok (i, rest))
    {s : State} (hroom : s.dp.toNat < s.dsize.toNat) :
    (1 ≤ tokenSize i ∧ tokenSize i ≤ 3) ∧ 1 ≤ s.appended i ∧ s.appended i ≤ 273 ∧
      s.dp.toNat + s.appended i ≤ s.dsize.toNat := by
  obtain ⟨d, rfl, -⟩ | ⟨a, b, rfl, -⟩ | ⟨a, b, c, rfl, -⟩ := decodeToken_ok h
  · simp only [tokenSize, State.appended]
    omega
  · have hlen := shortLength_le (highNibble a)
    have hpos : 0 < shortLength (highNibble a) := Nat.succ_pos _
    simp only [tokenSize, State.appended, copied]
    omega
  · have hlen := longLength_le c
    have hpos := longLength_ge c
    simp only [tokenSize, State.appended, copied]
    omega

/-- A step that completes, as one token in the state `v` behind the control byte. -/
structure TokenStep (s v : State) (i : Instr) (sp : BitVec 32) (dp : BitVec 33) (m : Memory) : Prop where
  control : controlFetch s = .ok v
  decode : ∃ rest, decodeToken v.ctl.msb v.unread = .ok (i, rest)
  room : v.dp.toNat < v.dsize.toNat
  effect : tokenEffect i v = .ok (stopIfFull (v.afterToken sp dp m))
  inSrc : v.sp.toNat + tokenSize i ≤ v.srcLen.toNat
  newSp : sp.toNat = v.sp.toNat + tokenSize i
  bytes : AppendsBytes v (v.afterToken sp dp m) (v.appended i)

theorem exists_tokenStep {s t : State} (h : decompStep s = .ok t) :
    ∃ v i sp dp m, TokenStep s v i sp dp m ∧ t = stopIfFull (v.afterToken sp dp m) := by
  obtain ⟨hroom, v, i, rest, hcontrol, hdecode, heffect⟩ := decompStep_ok h
  have hv := (controlFetch_ok_frame hcontrol).1
  have hroom' : v.dp.toNat < v.dsize.toNat := by rw [hv]; exact hroom
  obtain ⟨sp, dp, m, rfl, hsrc, hsp, hbytes⟩ := tokenEffect_ok_appends heffect (Nat.le_of_lt hroom')
  exact ⟨v, i, sp, dp, m, ⟨hcontrol, ⟨rest, hdecode⟩, hroom', heffect, hsrc, hsp, hbytes⟩, rfl⟩

/-- Settles O29: the control byte and the token's bytes in SRC, and the token's bytes in DST. -/
theorem tokenStepProgress : Obligations.TokenStepProgress := by
  unfold Obligations.TokenStepProgress
  intro s t hstart hroom h hfault
  obtain ⟨v, i, sp, dp, m, hstep, rfl⟩ :=
    exists_tokenStep (finish_not_fault ((exec_decomp_step hstart).symm.trans h) hfault)
  obtain ⟨hv, hlow, hhigh⟩ := controlFetch_ok_frame hstep.control
  obtain ⟨rest, hdecode⟩ := hstep.decode
  obtain ⟨⟨hsize, hsize3⟩, hmore, hmost, hbound⟩ := decodeToken_bounds hdecode hstep.room
  have hsp := hstep.newSp
  have hsrc := hstep.inSrc
  have hdp : dp.toNat = _ := hstep.bytes.dp
  rw [stopIfFull_sp, stopIfFull_dp]
  show s.sp.toNat + 1 ≤ sp.toNat ∧ sp.toNat ≤ s.sp.toNat + 4 ∧ sp.toNat ≤ s.srcLen.toNat ∧
    s.dp.toNat + 1 ≤ dp.toNat ∧ dp.toNat ≤ s.dp.toNat + 273 ∧ dp.toNat ≤ s.dsize.toNat
  have hlen : v.srcLen = s.srcLen := by rw [hv]
  have hvdp : v.dp = s.dp := by rw [hv]
  have hvds : v.dsize = s.dsize := by rw [hv]
  rw [hlen] at hsrc
  rw [hvdp, hvds] at hbound
  rw [hvdp] at hdp
  omega

/-- A running DECOMP that completes does so at the declared size, with R91's writes. -/
theorem stopIfFull_done {s : State} (hbusy : s.status = .busy) (hdone : (stopIfFull s).status = .done) :
    s.dp.toNat = s.dsize.toNat ∧ (stopIfFull s).dstLen.toNat = s.dsize.toNat ∧ (stopIfFull s).result = 0 := by
  have hwrites := stopIfFull_status s
  split at hwrites
  · next hfull => exact ⟨hfull, hwrites.2⟩
  · rw [hwrites.1, hbusy] at hdone
    cases hdone

/-- `t` is `s` but for the registers of DECOMP, DST and the status registers. -/
def DecompOnly (s t : State) : Prop :=
  ∃ sp dp dsize ctl cnt m b status fault dstLen result,
    t = { s with sp := sp, dp := dp, dsize := dsize, ctl := ctl, cnt := cnt, dst := m, started := b, status := status,
                 fault := fault, dstLen := dstLen, result := result }

theorem DecompOnly.eq {s t : State} (h : DecompOnly s t) :
    t = { s with sp := t.sp, dp := t.dp, dsize := t.dsize, ctl := t.ctl, cnt := t.cnt, dst := t.dst, started := t.started,
                 status := t.status, fault := t.fault, dstLen := t.dstLen, result := t.result } := by
  obtain ⟨sp, dp, dsize, ctl, cnt, m, b, status, fault, dstLen, result, rfl⟩ := h
  rfl

theorem DecompOnly.stopIfFull {s t : State} (h : DecompOnly s t) : DecompOnly s (stopIfFull t) := by
  rw [stopIfFull_frame]
  obtain ⟨sp, dp, dsize, ctl, cnt, m, b, status, fault, dstLen, result, rfl⟩ := h
  exact ⟨_, _, _, _, _, _, _, _, _, _, _, rfl⟩

theorem decompStart_decompOnly {s t : State} (h : decompStart s = .ok t) : DecompOnly s t := by
  obtain ⟨-, -, -, rfl⟩ := decompStart_ok h
  exact DecompOnly.stopIfFull ⟨_, _, _, _, _, _, _, _, _, _, _, rfl⟩

theorem decompStep_decompOnly {s t : State} (h : decompStep s = .ok t) : DecompOnly s t := by
  obtain ⟨v, i, sp, dp, m, hstep, rfl⟩ := exists_tokenStep h
  apply DecompOnly.stopIfFull
  rw [(controlFetch_ok_frame hstep.control).1]
  exact ⟨_, _, _, _, _, _, _, _, _, _, _, rfl⟩

theorem exec_decomp_decompOnly {s t : State} (h : exec .decomp s = .next t) : DecompOnly s t := by
  obtain hok | ⟨f, -, rfl⟩ := finish_next_iff.1 h
  · split at hok
    · exact decompStep_decompOnly hok
    · exact decompStart_decompOnly hok
  · exact ⟨_, _, _, _, _, _, _, _, _, _, _, rfl⟩

/-- Settles O28, by the start step and the token step. -/
theorem decompFrame : Obligations.DecompFrame := by
  unfold Obligations.DecompFrame
  intro s t h
  have hframe := (exec_decomp_decompOnly h).eq
  cases hstart : s.started with
  | false =>
    obtain hok | ⟨f, -, rfl⟩ := finish_next_iff.1 ((exec_decomp_start hstart).symm.trans h)
    · obtain ⟨-, -, -, rfl⟩ := decompStart_ok hok
      refine ⟨fun _ => stopIfFull_dst _, by simp, fun hbusy hdone => ?_, hframe⟩
      rw [stopIfFull_dsize]
      exact (stopIfFull_done (s := s.interpreterReset) hbusy hdone).2
    · exact ⟨fun _ => rfl, by simp, by simp, hframe⟩
  | true =>
    obtain hok | ⟨f, -, rfl⟩ := finish_next_iff.1 ((exec_decomp_step hstart).symm.trans h)
    · obtain ⟨v, i, sp, dp, m, hstep, rfl⟩ := exists_tokenStep hok
      have hv := (controlFetch_ok_frame hstep.control).1
      have hdp : v.dp = s.dp := by rw [hv]
      have hdst : v.dst = s.dst := by rw [hv]
      refine ⟨by simp, fun _ a ha => ?_, fun hbusy hdone => ?_, hframe⟩
      · rw [stopIfFull_dp] at ha
        rw [stopIfFull_dst, ← hdst]
        exact hstep.bytes.frame a (by rw [← hstep.bytes.dp, hdp]; exact ha)
      · have hbusy' : v.status = .busy := by rw [hv]; exact hbusy
        rw [stopIfFull_dsize]
        exact (stopIfFull_done (s := v.afterToken sp dp m) hbusy' hdone).2
    · exact ⟨by simp, fun _ _ _ => rfl, by simp, hframe⟩

end Sys2Proof.Machine

/-! # The course of a DECOMP run (41_decompress R98 to R102, 30_encoding R68)

A step that does not fault is a round of the loop of `Decompress`: it takes the control byte where one is due, and the
bytes of one token, and the loop goes on from what is left. -/

namespace Sys2Proof.Machine

/-! ## A round in terms of the loop -/

/-- A step of a running DECOMP that completes, as a round: `v` is the state behind the control byte, `u` the one behind the
token, before the stop test. -/
structure Round (s v : State) (i : Instr) (u : State) : Prop where
  control : controlFetch s = .ok v
  decode : decodeToken v.ctl.msb v.unread = .ok (i, u.unread)
  output : tokenOutput s.dsize.toNat s.produced i = .ok u.produced
  ctl : u.ctl = v.ctl <<< 1
  cnt : u.cnt = v.cnt - 1
  dsize : u.dsize = s.dsize
  input : u.input = s.input
  more : s.dp.toNat < u.dp.toNat
  spHigh : u.sp.toNat ≤ u.srcLen.toNat
  next : u.Interpreting

/-- `SP` behind a token that completes. -/
theorem sp_of_tokenEffect_ok {i : Instr} {v : State} {sp : BitVec 32} {dp : BitVec 33} {m : Memory}
    (h : tokenEffect i v = .ok (stopIfFull (v.afterToken sp dp m))) : sp.toNat ≤ v.srcLen.toNat := by
  obtain ⟨sp', u, hsrc, hsp, happ, ht⟩ := tokenEffect_ok h
  obtain ⟨m', d, rfl⟩ := appendToken_writes happ
  have hsame := congrArg State.sp ht
  rw [stopIfFull_sp, stopIfFull_sp] at hsame
  obtain rfl : sp = sp' := hsame
  omega

/-- Behind the control byte DECOMP runs as before. -/
theorem State.Interpreting.controlFetch {s v : State} (hs : s.Interpreting) (h : controlFetch s = .ok v) :
    v.Interpreting := by
  rw [(controlFetch_ok_frame h).1]
  exact ⟨hs.moves, hs.busy, hs.op, hs.started, hs.room, hs.fits⟩

theorem exists_round {s t : State} (hs : s.Interpreting) (h : decompStep s = .ok t) :
    ∃ v i u, Round s v i u ∧ t = stopIfFull u := by
  obtain ⟨hroom, v, i, rest, hcontrol, hdecode, heffect⟩ := decompStep_ok h
  have hv := (controlFetch_ok_frame hcontrol).1
  have hvs := hs.controlFetch hcontrol
  have hdp : v.dp = s.dp := by rw [hv]
  have hdsize : v.dsize = s.dsize := by rw [hv]
  have hproduced : v.produced = s.produced := by rw [hv]; rfl
  have hinput : v.input = s.input := by rw [hv]; rfl
  obtain ⟨f, hraise, -⟩ | ⟨sp, dp, m, hok, hout, hunread, hmore, hbound⟩ :=
    tokenEffect_agrees hdecode (by rwa [hdp, hdsize]) hvs.fits
  · rw [hraise] at heffect
    cases heffect
  · have hsp := sp_of_tokenEffect_ok hok
    obtain rfl := Except.ok.inj (hok.symm.trans heffect)
    rw [hdsize, hproduced] at hout
    rw [hdp] at hmore
    exact ⟨v, i, v.afterToken sp dp m, ⟨hcontrol, by rw [hunread]; exact hdecode, hout, rfl, rfl, hdsize, hinput, hmore, hsp,
      ⟨hvs.moves, hvs.busy, hvs.op, hvs.started, hbound, hvs.fits⟩⟩, rfl⟩

/-- A step of a running DECOMP short of the declared size faults, or is a round. -/
theorem decompStep_cases {s : State} (hs : s.Interpreting) (hroom : s.dp.toNat < s.dsize.toNat) :
    (∃ f, step s = .next (s.raise f)) ∨ ∃ v i u, Round s v i u ∧ step s = .next (stopIfFull u) := by
  rw [step_decomp_token hs.moves hs.busy hs.op hs.started]
  obtain ⟨f, hraise, -⟩ | ⟨u, hok, -⟩ := decompStep_round hs hroom
  · exact .inl ⟨f, by rw [hraise]; rfl⟩
  · obtain ⟨v, i, w, hround, hw⟩ := exists_round hs hok
    exact .inr ⟨v, i, w, hround, by rw [hok, hw]; rfl⟩

/-- A round takes one byte at least, and two where a control byte is due. -/
theorem Round.unread_length {s v u : State} {i : Instr} (h : Round s v i u) :
    u.unread.length + 1 ≤ s.unread.length ∧ (s.cnt = 0 → u.unread.length + 2 ≤ s.unread.length) := by
  have htoken : u.unread.length + 1 ≤ v.unread.length := by
    obtain ⟨d, -, hbytes⟩ | ⟨a, b, -, hbytes⟩ | ⟨a, b, c, -, hbytes⟩ := decodeToken_ok h.decode
    all_goals
      rw [hbytes]
      simp only [List.length_cons]
      omega
  obtain ⟨-, k, rest, hunread, rfl⟩ | ⟨hinside, rfl⟩ := controlFetch_ok h.control
  · rw [State.unread_openGroup hunread] at htoken
    rw [hunread, List.length_cons]
    omega
  · exact ⟨htoken, fun hdue => absurd hdue hinside⟩

theorem Round.toCome_lt {s v u : State} {i : Instr} (h : Round s v i u) : u.toCome < s.toCome := by
  have hmore := h.more
  have hroom := h.next.room
  rw [State.toCome, State.toCome, h.dsize]
  rw [h.dsize] at hroom
  omega

/-! ## The length of a run (R102, R174) -/

/-- A run on from `s` that ends in `t` after `k` steps: each step appends a byte and takes one; only the last one can take
none, by a fault, and one that is due a control byte takes two. -/
structure EndsWithin (s : State) (k : Nat) (t : State) : Prop where
  run : runFor k (stopIfFull s) = .next t
  ended : t.Ended
  toCome : k ≤ s.toCome
  unread : k ≤ s.unread.length + 1
  whole : (s.cnt = 0 ∧ s.unread ≠ []) ∨ t.status = .done → k ≤ s.unread.length

theorem endsWithin_full {s : State} (hfull : s.dp.toNat = s.dsize.toNat) : EndsWithin s 0 (stopIfFull s) :=
  ⟨rfl, (stopIfFull_delivers hfull 0).1, Nat.zero_le _, Nat.zero_le _, fun _ => Nat.zero_le _⟩

theorem exists_endsWithin (fuel : Nat) {s : State} (hs : s.Interpreting) (hfuel : s.toCome ≤ fuel) :
    ∃ k t, EndsWithin s k t := by
  induction fuel generalizing s with
  | zero => exact ⟨_, _, endsWithin_full (by have := hs.room; rw [State.toCome] at hfuel; omega)⟩
  | succ fuel ih =>
    by_cases hfull : s.dp.toNat = s.dsize.toNat
    · exact ⟨_, _, endsWithin_full hfull⟩
    · have hroom : s.dp.toNat < s.dsize.toNat := Nat.lt_of_le_of_ne hs.room hfull
      have hbusy : stopIfFull s = s := if_neg hfull
      obtain ⟨f, hstep⟩ | ⟨v, i, u, hround, hstep⟩ := decompStep_cases hs hroom
      · refine ⟨1, s.raise f, by rw [hbusy]; exact runFor_of_step hstep 0, .inr rfl, by rw [State.toCome]; omega,
          Nat.le_add_left 1 _, ?_⟩
        rintro (⟨-, hmore⟩ | hdone)
        · exact List.length_pos_of_ne_nil hmore
        · cases hdone
      · have hless := hround.toCome_lt
        obtain ⟨hone, htwo⟩ := hround.unread_length
        obtain ⟨k, t, h⟩ := ih hround.next (by omega)
        have hcome := h.toCome
        have hunread := h.unread
        refine ⟨k + 1, t, by rw [hbusy]; exact (runFor_of_step hstep k).trans h.run, h.ended, by omega, by omega, ?_⟩
        rintro (⟨hdue, -⟩ | hdone)
        · have := htwo hdue
          omega
        · have := h.whole (.inr hdone)
          omega

theorem decompStart_error {s : State} {e : Stop} (h : decompStart s = .error e) : ∃ f, e = .raise f := by
  rw [decompStart_eq] at h
  split at h
  · exact ⟨_, (Except.error.inj h).symm⟩
  · split at h
    · exact ⟨_, (Except.error.inj h).symm⟩
    · split at h
      · exact ⟨_, (Except.error.inj h).symm⟩
      · cases h

theorem State.interpreterReset_interpreting {s : State} (hmoves : s.moves = []) (hbusy : s.status = .busy) (hop : s.op = 2)
    (hfits : s.fitsDst s.declaredSize.toNat = true) : s.interpreterReset.Interpreting :=
  ⟨hmoves, hbusy, hop, rfl, Nat.zero_le _, hfits⟩

theorem step_decomp_start {s : State} (hmoves : s.moves = []) (hbusy : s.status = .busy) (hop : s.op = 2)
    (hstart : s.started = false) : step s = finish s (decompStart s) := by
  rw [step_decomp hmoves hbusy hop, hstart]
  rfl

/-- The start step faults, or every check passes and DECOMP runs on from the interpreter's registers. -/
theorem decompStart_cases {s : State} (hmoves : s.moves = []) (hbusy : s.status = .busy) (hop : s.op = 2)
    (hstart : s.started = false) :
    (∃ f, step s = .next (s.raise f)) ∨
      (step s = .next (stopIfFull s.interpreterReset) ∧ s.interpreterReset.Interpreting ∧ 16 ≤ s.srcLen.toNat ∧
        s.input.take 4 = magic) := by
  rw [step_decomp_start hmoves hbusy hop hstart]
  cases h : decompStart s with
  | ok t =>
    obtain ⟨hlong, hmagic, hfits, rfl⟩ := decompStart_ok h
    exact .inr ⟨rfl, State.interpreterReset_interpreting hmoves hbusy hop hfits, hlong, hmagic⟩
  | error e =>
    obtain ⟨f, rfl⟩ := decompStart_error h
    exact .inl ⟨f, rfl⟩

/-- Settles O31: the start step, and the steps from the interpreter's registers on. -/
theorem decompRunLength : Obligations.DecompRunLength := by
  unfold Obligations.DecompRunLength
  intro s hmoves hbusy hop hstart
  obtain ⟨f, hstep⟩ | ⟨hstep, hrun, hlong, -⟩ := decompStart_cases hmoves hbusy hop hstart
  · exact ⟨1, s.raise f, runFor_of_step hstep 0, .inr rfl, by omega, by omega, fun _ => by omega⟩
  · obtain ⟨k, t, h⟩ := exists_endsWithin _ hrun (Nat.le_refl _)
    have hcome : k ≤ (declaredSizeOf s.input).toNat := by
      rw [← State.declaredSize_eq hlong]
      exact h.toCome
    have hunread := h.unread
    have hwhole := h.whole
    have hlength : s.interpreterReset.unread.length = s.srcLen.toNat - 16 := State.unread_length _
    rw [hlength] at hunread hwhole
    refine ⟨k + 1, t, (runFor_of_step hstep k).trans h.run, h.ended, by omega, by omega, fun hend => ?_⟩
    have := hwhole (hend.imp_left fun hbody => ⟨rfl, List.ne_nil_of_length_pos (by rw [hlength]; omega)⟩)
    omega

/-! ## The bytes that a run has read, and those to come -/

/-- The loop of `Decompress` from `s` on, where the bytes still to come are `bytes`. -/
def State.loopOn (s : State) (fuel : Nat) (bytes : List Byte) : Except FaultCode (List Byte) :=
  decompressLoop s.dsize.toNat fuel bytes s.ctl s.cnt.toNat s.produced

/-- DECOMP has come from `s` to `w` by reading `c`: whatever bytes follow `c`, the loop comes to `w` as well. -/
structure ReachedBy (s w : State) (c : List Byte) : Prop where
  input : w.input = s.input
  unread : s.unread = c ++ w.unread
  loop : ∀ fuel bytes, s.toCome ≤ fuel →
    ∃ fuel', w.toCome ≤ fuel' ∧ s.loopOn fuel (c ++ bytes) = w.loopOn fuel' bytes

theorem ReachedBy.refl (s : State) : ReachedBy s s [] := ⟨rfl, rfl, fun fuel _ h => ⟨fuel, h, rfl⟩⟩

theorem ReachedBy.trans {s u w : State} {c c' : List Byte} (h : ReachedBy s u c) (h' : ReachedBy u w c') :
    ReachedBy s w (c ++ c') := by
  refine ⟨h'.input.trans h.input, by rw [h.unread, h'.unread, List.append_assoc], fun fuel bytes hfuel => ?_⟩
  obtain ⟨fuel', hfuel', hloop⟩ := h.loop fuel (c' ++ bytes) hfuel
  obtain ⟨fuel'', hfuel'', hloop'⟩ := h'.loop fuel' bytes hfuel'
  exact ⟨fuel'', hfuel'', by rw [List.append_assoc, hloop, hloop']⟩

theorem Round.room {s v u : State} {i : Instr} (h : Round s v i u) : s.produced.length < s.dsize.toNat := by
  have hmore := h.more
  have hbound := h.next.room
  rw [h.dsize] at hbound
  rw [State.produced_length]
  omega

/-- A round of the loop on any bytes that begin with its token, whatever the control bits behind the next. -/
theorem Round.loop {s v u : State} {i : Instr} (h : Round s v i u) {bytes rest : List Byte} {ctl : Byte}
    (hctl : ctl.msb = v.ctl.msb) (hdecode : decodeToken v.ctl.msb bytes = .ok (i, rest)) (hcnt : v.cnt ≠ 0) (fuel : Nat) :
    decompressLoop s.dsize.toNat (fuel + 1) bytes ctl v.cnt.toNat s.produced =
      decompressLoop u.dsize.toNat fuel rest (ctl <<< 1) u.cnt.toNat u.produced := by
  have hcnt' : v.cnt.toNat ≠ 0 := fun h0 => hcnt (BitVec.eq_of_toNat_eq h0)
  rw [decompressLoop_token h.room hcnt', hctl, hdecode]
  show (tokenOutput _ _ i).bind _ = _
  rw [h.output, h.dsize, h.cnt, State.cnt_pred hcnt]
  rfl

theorem Round.loopOn {s v u : State} {i : Instr} (h : Round s v i u) {bytes rest : List Byte}
    (hdecode : decodeToken v.ctl.msb bytes = .ok (i, rest)) (hcnt : v.cnt ≠ 0) (fuel : Nat) :
    decompressLoop s.dsize.toNat (fuel + 1) bytes v.ctl v.cnt.toNat s.produced = u.loopOn fuel rest := by
  rw [h.loop rfl hdecode hcnt, State.loopOn, h.ctl]

/-- A round reads its control byte, where one is due, and its token. -/
theorem Round.reachedBy {s v u : State} {i : Instr} (h : Round s v i u) : ∃ c, ReachedBy s u c := by
  obtain ⟨c, hbytes, hdecode⟩ := decodeToken_bytes h.decode
  have hless := h.toCome_lt
  obtain ⟨hdue, k, rest, hunread, rfl⟩ | ⟨hinside, rfl⟩ := controlFetch_ok h.control
  · rw [State.unread_openGroup hunread] at hbytes
    refine ⟨k :: c, h.input, by rw [hunread, hbytes]; rfl, fun fuel bytes hfuel => ⟨fuel - 1, by omega, ?_⟩⟩
    obtain ⟨fuel, rfl⟩ := Nat.exists_eq_add_one.2 (by omega : 0 < fuel)
    rw [State.loopOn, hdue]
    exact (decompressLoop_control h.room fuel k _ _).trans (h.loopOn (hdecode bytes) (by decide : (8 : BitVec 4) ≠ 0) fuel)
  · refine ⟨c, h.input, hbytes, fun fuel bytes hfuel => ⟨fuel - 1, by omega, ?_⟩⟩
    obtain ⟨fuel, rfl⟩ := Nat.exists_eq_add_one.2 (by omega : 0 < fuel)
    exact h.loopOn (hdecode bytes) hinside fuel

/-- A run that has not faulted has come to a state of the loop. -/
theorem exists_reachedBy (j : Nat) {s w : State} (hs : s.Interpreting) (hsp : s.sp.toNat ≤ s.srcLen.toNat)
    (hrun : runFor j (stopIfFull s) = .next w) :
    (w.status = .fault ∧ w.moves = []) ∨
      ∃ u c, w = stopIfFull u ∧ u.Interpreting ∧ u.sp.toNat ≤ u.srcLen.toNat ∧ ReachedBy s u c := by
  induction j generalizing s with
  | zero => exact .inr ⟨s, [], (Host.Outcome.next.inj hrun).symm, hs, hsp, .refl s⟩
  | succ j ih =>
    by_cases hfull : s.dp.toNat = s.dsize.toNat
    · have hended := (stopIfFull_delivers hfull 0).1
      rw [runFor_not_busy (by rw [stopIfFull_moves, hs.moves]) hended.not_busy] at hrun
      exact .inr ⟨s, [], (Host.Outcome.next.inj hrun).symm, hs, hsp, .refl s⟩
    · rw [stopIfFull, if_neg hfull] at hrun
      obtain ⟨f, hstep⟩ | ⟨v, i, u, hround, hstep⟩ := decompStep_cases hs (Nat.lt_of_le_of_ne hs.room hfull)
      · rw [runFor_of_step hstep, runFor_not_busy (s := s.raise f) hs.moves (by simp)] at hrun
        obtain rfl := Host.Outcome.next.inj hrun
        exact .inl ⟨rfl, hs.moves⟩
      · rw [runFor_of_step hstep] at hrun
        obtain ⟨c, hread⟩ := hround.reachedBy
        refine (ih hround.next hround.spHigh hrun).imp_right ?_
        rintro ⟨x, c', rfl, hx, hxsp, hread'⟩
        exact ⟨x, c ++ c', rfl, hx, hxsp, hread.trans hread'⟩

/-! ## The control bits that a run reads (R68) -/

/-- Where the declared size is reached, the loop delivers what the machine does. -/
theorem loop_delivers_full {s : State} (hfull : s.dp.toNat = s.dsize.toNat) (fuel : Nat) (bytes : List Byte) (ctl : Byte)
    (cnt : Nat) :
    decompressLoop s.dsize.toNat fuel bytes ctl cnt s.produced =
      .ok ((stopIfFull s).output (stopIfFull s).dstLen.toNat) := by
  have hdelivers := (stopIfFull_delivers hfull 0).2
  have hdone : (stopIfFull s).status = .done := by
    have hwrites := stopIfFull_status s
    rw [if_pos hfull] at hwrites
    exact hwrites.1
  rw [State.delivered, if_pos hdone] at hdelivers
  rw [hdelivers, State.decompressRest]
  have hroom : ¬ s.produced.length < s.dsize.toNat := by rw [State.produced_length]; omega
  rw [decompressLoop_full hroom, decompressLoop_full hroom]

/-- A run that completes within the open group reads no control bit but the first ones: with any others behind them the loop
delivers the same. -/
theorem loop_delivers_in_group (n : Nat) {s u : State} (hs : s.Interpreting) (hn : n ≤ s.cnt.toNat)
    (hrun : runFor n (stopIfFull s) = .next u) (hdone : u.status = .done) {ctl : Byte}
    (hctl : ∀ k, k < n → ctl.getMsbD k = s.ctl.getMsbD k) {fuel : Nat} (hfuel : s.toCome ≤ fuel) :
    decompressLoop s.dsize.toNat fuel s.unread ctl s.cnt.toNat s.produced = .ok (u.output u.dstLen.toNat) := by
  induction n generalizing s ctl fuel with
  | zero =>
    obtain rfl := Host.Outcome.next.inj hrun
    exact loop_delivers_full (stopIfFull_done hs.busy hdone).1 _ _ _ _
  | succ n ih =>
    by_cases hfull : s.dp.toNat = s.dsize.toNat
    · have hended := (stopIfFull_delivers hfull 0).1
      rw [runFor_not_busy (by rw [stopIfFull_moves, hs.moves]) hended.not_busy] at hrun
      obtain rfl := Host.Outcome.next.inj hrun
      exact loop_delivers_full hfull _ _ _ _
    · rw [stopIfFull, if_neg hfull] at hrun
      obtain ⟨f, hstep⟩ | ⟨v, i, w, hround, hstep⟩ := decompStep_cases hs (Nat.lt_of_le_of_ne hs.room hfull)
      · rw [runFor_of_step hstep, runFor_not_busy (s := s.raise f) hs.moves (by simp)] at hrun
        obtain rfl := Host.Outcome.next.inj hrun
        cases hdone
      · have hinside : s.cnt ≠ 0 := fun h0 => by rw [h0] at hn; exact absurd hn (Nat.not_succ_le_zero n)
        obtain rfl : s = v := Except.ok.inj ((controlFetch_not_due hinside).symm.trans hround.control)
        have hless := hround.toCome_lt
        have hcnt : w.cnt.toNat = s.cnt.toNat - 1 := by rw [hround.cnt]; exact State.cnt_pred hinside
        obtain ⟨fuel, rfl⟩ := Nat.exists_eq_add_one.2 (by omega : 0 < fuel)
        rw [runFor_of_step hstep] at hrun
        rw [hround.loop (hctl 0 (Nat.succ_pos n)) hround.decode hinside]
        refine ih hround.next (by omega) hrun (fun k hk => ?_) (by omega)
        rw [hround.ctl, BitVec.getMsbD_shiftLeft, BitVec.getMsbD_shiftLeft]
        exact hctl (k + 1) (Nat.succ_lt_succ hk)

/-! ## Inputs that differ in one byte of the body -/

/-- `x` is `y` but for the byte at `p`. -/
structure AgreesOff (p : Nat) (x y : List Byte) : Prop where
  length : x.length = y.length
  same : ∀ a, a ≠ p → x[a]? = y[a]?

theorem AgreesOff.getD {p : Nat} {x y : List Byte} (h : AgreesOff p x y) {a : Nat} (ha : a ≠ p) :
    x.getD a 0 = y.getD a 0 := by
  rw [List.getD_eq_getElem?_getD, List.getD_eq_getElem?_getD, h.same a ha]

theorem AgreesOff.take {p : Nat} {x y : List Byte} (h : AgreesOff p x y) {n : Nat} (hn : n ≤ p) : x.take n = y.take n := by
  refine List.ext_getElem? fun a => ?_
  rw [List.getElem?_take, List.getElem?_take]
  split
  · exact h.same a (by omega)
  · rfl

theorem AgreesOff.drop {p : Nat} {x y : List Byte} (h : AgreesOff p x y) {n : Nat} (hn : p < n) : x.drop n = y.drop n := by
  refine List.ext_getElem? fun a => ?_
  rw [List.getElem?_drop, List.getElem?_drop]
  exact h.same (n + a) (by omega)

theorem AgreesOff.declaredSizeOf {p : Nat} {x y : List Byte} (h : AgreesOff p x y) (hp : 16 ≤ p) :
    declaredSizeOf x = declaredSizeOf y := by
  rw [Machine.declaredSizeOf, h.getD (by omega), h.getD (by omega), h.getD (by omega), h.getD (by omega)]
  rfl

/-- `Decompress` of an input that differs from that of `s` in the body only, as the loop from the interpreter's registers. -/
theorem decompress_of_agreesOff {s : State} {p : Nat} {x : List Byte} (h : AgreesOff p x s.input) (hp : 16 ≤ p)
    (hlong : 16 ≤ s.srcLen.toNat) (hmagic : s.input.take 4 = magic) (hfits : s.fitsDst s.declaredSize.toNat = true) :
    decompress s.cfg.dstMax x = s.interpreterReset.loopOn s.declaredSize.toNat (x.drop 16) := by
  have hlength : x.length = s.srcLen.toNat := h.length.trans s.input_length
  have hsize : declaredSizeOf x = s.declaredSize := (h.declaredSizeOf hp).trans (State.declaredSize_eq hlong).symm
  rw [decompress, hlength, h.take (by omega), hmagic, hsize]
  dsimp only
  rw [← State.fitsDst_eq, hfits]
  simp only [show ¬ s.srcLen.toNat < 4 by omega, show ¬ s.srcLen.toNat < 16 by omega, ne_eq, not_true_eq_false, or_self,
    Bool.true_eq_false, if_false]
  rfl

/-- The body of such an input: what the run has read up to the byte at `p`, and what follows. -/
theorem AgreesOff.body {s w : State} {c : List Byte} {x : List Byte} (h : AgreesOff w.sp.toNat x s.input)
    (hbody : s.input.drop 16 = c ++ w.unread) (hp : w.sp.toNat = 16 + c.length) :
    x.drop 16 = c ++ x.drop w.sp.toNat := by
  have hc : (x.drop 16).take c.length = c := by
    rw [List.take_drop, ← hp, h.take (Nat.le_refl _), hp, ← List.take_drop, hbody, List.take_left]
  calc x.drop 16
      = (x.drop 16).take c.length ++ (x.drop 16).drop c.length := (List.take_append_drop _ _).symm
    _ = c ++ x.drop w.sp.toNat := by rw [hc, List.drop_drop, hp]

/-- The bytes from the one that differs on. -/
theorem AgreesOff.drop_at {p : Nat} {x y : List Byte} (h : AgreesOff p x y) {k : Byte} {rest : List Byte}
    (hy : y.drop p = k :: rest) : y.getD p 0 = k ∧ x.drop p = x.getD p 0 :: rest := by
  have hp : p < y.length := by
    have := congrArg List.length hy
    rw [List.length_drop, List.length_cons] at this
    omega
  have hpx : p < x.length := h.length ▸ hp
  rw [List.drop_eq_getElem_cons hp] at hy
  obtain ⟨hk, hrest⟩ := List.cons.inj hy
  rw [List.drop_eq_getElem_cons hpx, h.drop (Nat.lt_succ_self p), List.getD_eq_getElem _ _ hp, List.getD_eq_getElem _ _ hpx]
  exact ⟨hk, congrArg _ hrest⟩

/-- The run from a group boundary on, in the loop: of the control byte there it reads the first bits. -/
theorem loop_delivers_from_boundary {n : Nat} {s u : State} (hs : s.Interpreting) (hdue : s.cnt = 0) (hn : n ≤ 8)
    (hrun : runFor n (stopIfFull s) = .next u) (hdone : u.status = .done) {x : List Byte} (hx : AgreesOff s.sp.toNat x s.input)
    (hbits : ∀ j, j < n → (x.getD s.sp.toNat 0).getMsbD j = (s.input.getD s.sp.toNat 0).getMsbD j) {fuel : Nat}
    (hfuel : s.toCome ≤ fuel) : s.loopOn fuel (x.drop s.sp.toNat) = .ok (u.output u.dstLen.toNat) := by
  by_cases hfull : s.dp.toNat = s.dsize.toNat
  · have hended := (stopIfFull_delivers hfull 0).1
    rw [runFor_not_busy (by rw [stopIfFull_moves, hs.moves]) hended.not_busy] at hrun
    obtain rfl := Host.Outcome.next.inj hrun
    exact loop_delivers_full hfull _ _ _ _
  · rw [stopIfFull, if_neg hfull] at hrun
    cases n with
    | zero =>
      obtain rfl := Host.Outcome.next.inj hrun
      exact absurd (hs.busy.symm.trans hdone) (by decide)
    | succ n =>
      obtain ⟨f, hstep⟩ | ⟨v, i, w, hround, hstep⟩ := decompStep_cases hs (Nat.lt_of_le_of_ne hs.room hfull)
      · rw [runFor_of_step hstep, runFor_not_busy (s := s.raise f) hs.moves (by simp)] at hrun
        obtain rfl := Host.Outcome.next.inj hrun
        cases hdone
      · obtain ⟨-, k, rest, hunread, rfl⟩ | ⟨hinside, -⟩ := controlFetch_ok hround.control
        · obtain ⟨rfl, hbytes⟩ := hx.drop_at hunread
          have hless := hround.toCome_lt
          have hcnt : w.cnt.toNat = 7 := by rw [hround.cnt]; exact (by decide : (8 - 1 : BitVec 4).toNat = 7)
          have hdecode := hround.decode
          rw [State.unread_openGroup hunread] at hdecode
          obtain ⟨fuel, rfl⟩ := Nat.exists_eq_add_one.2 (by omega : 0 < fuel)
          rw [runFor_of_step hstep] at hrun
          rw [State.loopOn, hdue, hbytes]
          refine (decompressLoop_control hround.room fuel _ rest _).trans
            ((hround.loop (hbits 0 (Nat.succ_pos n)) hdecode (by decide : (8 : BitVec 4) ≠ 0) fuel).trans ?_)
          refine loop_delivers_in_group n hround.next (by omega) hrun hdone (fun j hj => ?_) (by omega)
          rw [hround.ctl, BitVec.getMsbD_shiftLeft, BitVec.getMsbD_shiftLeft]
          exact hbits (j + 1) (Nat.succ_lt_succ hj)
        · exact absurd hdue hinside

/-- Settles O60: the run reads the input up to the last control byte as `Decompress` does of `x`, and of that byte only the
first bits. -/
theorem decompressIgnoresUnusedControlBits : Obligations.DecompressIgnoresUnusedControlBits := by
  unfold Obligations.DecompressIgnoresUnusedControlBits
  intro s w u j n x hmoves hbusy hop hstart hrun hstarted hcnt hn hrest hdone hlength hsame hbits
  have hoff : AgreesOff w.sp.toNat x s.input := ⟨hlength, hsame⟩
  cases j with
  | zero =>
    obtain rfl := Host.Outcome.next.inj hrun
    exact absurd (hstarted.symm.trans hstart) (by decide)
  | succ j =>
    obtain ⟨f, hstep⟩ | ⟨hstep, hrunning, hlong, hmagic⟩ := decompStart_cases hmoves hbusy hop hstart
    · rw [runFor_of_step hstep, runFor_not_busy (s := s.raise f) hmoves (by simp)] at hrun
      obtain rfl := Host.Outcome.next.inj hrun
      exact absurd (hstarted.symm.trans hstart) (by decide)
    · rw [runFor_of_step hstep] at hrun
      obtain ⟨hfault, hwmoves⟩ | ⟨w, c, rfl, hw, hsp, hread⟩ := exists_reachedBy j hrunning hlong hrun
      · rw [runFor_not_busy hwmoves (by rw [hfault]; decide)] at hrest
        obtain rfl := Host.Outcome.next.inj hrest
        exact absurd (hfault.symm.trans hdone) (by decide)
      simp only [stopIfFull_sp, stopIfFull_cnt] at hoff hcnt hbits
      have hbody : s.input.drop 16 = c ++ w.unread := hread.unread
      have hinput : w.input = s.input := hread.input
      have hat : w.sp.toNat = 16 + c.length := by
        have hlengths := congrArg List.length hbody
        have hsrc : w.srcLen.toNat = s.srcLen.toNat := by rw [← State.input_length, hinput, State.input_length]
        rw [List.length_drop, List.length_append, State.input_length, State.unread_length] at hlengths
        omega
      rw [decompress_of_agreesOff hoff (by omega) hlong hmagic hrunning.fits, hoff.body hbody hat]
      obtain ⟨fuel, hfuel, hloop⟩ := hread.loop _ (x.drop w.sp.toNat) (Nat.sub_le _ _)
      rw [← hinput] at hoff hbits
      exact hloop.trans (loop_delivers_from_boundary hw hcnt hn hrest hdone hoff hbits hfuel)

end Sys2Proof.Machine

/-! # What COMP leaves unchanged (20_memory section 1, 42_compress section 3) -/

namespace Sys2Proof.Machine

/-! ## Memories with some bytes written -/

/-- `n` is `m` with some bytes written, at addresses that meet `P`. -/
inductive Writes (P : Nat → Prop) (m : Memory) : Memory → Prop
  | refl : Writes P m m
  | write {n : Memory} {a : Nat} (h : Writes P m n) (ha : P a) (v : Byte) : Writes P m (Memory.write a v n)

theorem Writes.trans {P : Nat → Prop} {m n o : Memory} (h : Writes P m n) (h' : Writes P n o) : Writes P m o := by
  induction h' with
  | refl => exact h
  | write _ ha v ih => exact ih.write ha v

theorem Writes.mono {P Q : Nat → Prop} {m n : Memory} (h : Writes P m n) (hPQ : ∀ a, P a → Q a) : Writes Q m n := by
  induction h with
  | refl => exact .refl
  | write _ ha v ih => exact ih.write (hPQ _ ha) v

/-- Off the addresses written nothing changes. -/
theorem Writes.read {P : Nat → Prop} {m n : Memory} (h : Writes P m n) {a : Nat} (ha : ¬ P a) :
    Memory.read n a = Memory.read m a := by
  induction h with
  | refl => rfl
  | write _ hb v ih => rw [Memory.read_write_other (by rintro rfl; exact ha hb), ih]

theorem Writes.wf {P : Nat → Prop} {m n : Memory} (h : Writes P m n) (hm : Memory.wf m = true) : Memory.wf n = true := by
  induction h with
  | refl => exact hm
  | write _ _ v ih => exact Memory.wf_write _ v _ ih

/-! ## The writes of an emission -/

theorem putByte_writes {P : Nat → Prop} {v : Byte} {s t : State} (h : putByte v s = .ok t) (hdp : P s.dp.toNat) :
    Writes P s.dst t.dst := by
  obtain ⟨-, rfl⟩ := putByte_ok_iff.1 h
  exact Writes.refl.write hdp v

theorem putBytes_writes {vs : List Byte} {s t : State} (h : putBytes vs s = .ok t) (hw : s.dp.toNat + vs.length < 2 ^ 33) :
    Writes (fun a => s.dp.toNat ≤ a ∧ a < s.dp.toNat + vs.length) s.dst t.dst := by
  induction vs generalizing s with
  | nil =>
    obtain rfl := Except.ok.inj h
    exact .refl
  | cons v vs ih =>
    obtain ⟨u, hput, hrest⟩ := except_bind_ok h
    rw [List.length_cons] at hw ⊢
    have hdp : u.dp.toNat = s.dp.toNat + 1 := by
      obtain ⟨-, rfl⟩ := putByte_ok_iff.1 hput
      exact State.dp_add (s := s) (n := 1) (by omega)
    refine (putByte_writes hput (by omega)).trans ((ih hrest (by omega)).mono fun a ha => ?_)
    omega

/-- The group for the next token is open where the last one is, or at `DP`. -/
theorem openGroup_writes {s t : State} (h : openGroup s = .ok t) (hw : s.dp.toNat + 1 < 2 ^ 33) :
    Writes (fun a => a = s.dp.toNat) s.dst t.dst ∧ (t.dp.toNat = s.dp.toNat ∨ t.dp.toNat = s.dp.toNat + 1) ∧
      (t.ctlpos = s.ctlpos ∨ t.ctlpos = s.dp) := by
  unfold openGroup at h
  split at h
  · refine ⟨putByte_writes (s := { s with ctlpos := s.dp }) h rfl, ?_⟩
    obtain ⟨-, rfl⟩ := putByte_ok_iff.1 h
    exact ⟨.inr (State.dp_add (s := s) (n := 1) hw), .inr rfl⟩
  · obtain rfl := Except.ok.inj h
    exact ⟨.refl, .inl rfl, .inl rfl⟩

theorem markItem_writes {it : Item} {s t : State} (h : markItem it s = .ok t) :
    Writes (fun a => a = s.ctlpos.toNat) s.dst t.dst ∧ t.dp = s.dp := by
  cases it with
  | lit b =>
    obtain ⟨-, rfl⟩ := writeDst_ok_iff.1 h
    exact ⟨Writes.write (P := fun a => a = s.ctlpos.toNat) .refl rfl _, rfl⟩
  | ref d l =>
    obtain rfl := Except.ok.inj h
    exact ⟨.refl, rfl⟩

/-- The bytes that the emission of a token from `s` can write: the open group's control byte and four bytes at `DP`. -/
def State.emissionRange (s : State) (a : Nat) : Prop :=
  a = s.ctlpos.toNat ∨ (s.dp.toNat ≤ a ∧ a < s.dp.toNat + 4)

theorem emitItem_writes {it : Item} {s t : State} (h : emitItem it s = .ok t) (hw : s.dp.toNat + 4 < 2 ^ 33) :
    Writes s.emissionRange s.dst t.dst := by
  rw [emitItem_eq] at h
  obtain ⟨w, hmark, hrest⟩ := except_bind_ok h
  obtain ⟨v, hopen, hset⟩ := except_bind_ok hmark
  obtain ⟨u, hput, rfl⟩ := except_map_ok hrest
  have hlength := itemBytes_length_le it
  obtain ⟨hopened, hdp, hctl⟩ := openGroup_writes hopen (by omega)
  obtain ⟨hmarked, hwdp⟩ := markItem_writes hset
  have hput' := putBytes_writes hput (by rw [hwdp]; omega)
  rw [hwdp] at hput'
  refine (hopened.mono fun a ha => .inr (by omega)).trans ((hmarked.mono fun a ha => ?_).trans
    (hput'.mono fun a ha => .inr (by omega)))
  obtain hsame | hnew := hctl
  · exact .inl (by rw [ha, hsame])
  · exact .inr (by rw [ha, hnew]; omega)

/-! ## The writes of a step -/

theorem writeDstList_writes {vs : List Byte} {a : Nat} {s t : State} (h : writeDstList a vs s = .ok t) :
    ∃ m, t = { s with dst := m } ∧ Writes (fun b => a ≤ b ∧ b < a + vs.length) s.dst m := by
  induction vs generalizing a s with
  | nil =>
    obtain rfl := Except.ok.inj h
    exact ⟨_, rfl, .refl⟩
  | cons v vs ih =>
    obtain ⟨u, hwrite, hrest⟩ := except_bind_ok h
    obtain ⟨-, rfl⟩ := writeDst_ok_iff.1 hwrite
    obtain ⟨m, rfl, hm⟩ := ih hrest
    rw [List.length_cons]
    exact ⟨m, rfl, (Writes.refl.write (by omega) v).trans (hm.mono fun b hb => by omega)⟩

/-- All that the start step can do: it writes the header, and sets the encoder's registers. -/
theorem compStart_ok {s t : State} (h : compStart s = .ok t) :
    ∃ m, Writes (fun a => a < 16) s.dst m ∧
      t = if s.srcLen = 0 then (s.encoderReset m).complete 16 0 else s.encoderReset m := by
  obtain ⟨u, hwrite, -⟩ := except_map_ok h
  obtain ⟨m, rfl, hm⟩ := writeDstList_writes hwrite
  refine ⟨m, hm.mono fun a ha => ?_, Except.ok.inj (h.symm.trans (compStart_of_header hwrite))⟩
  rw [header_length] at ha
  omega

theorem compStart_dst {s t : State} (h : compStart s = .ok t) : Writes (fun a => a < 16) s.dst t.dst := by
  obtain ⟨m, hm, rfl⟩ := compStart_ok h
  split <;> exact hm

theorem compStep_dst {s t : State} (h : compStep s = .ok t) (hw : s.dp.toNat + 4 < 2 ^ 33) :
    Writes s.emissionRange s.dst t.dst := by
  obtain ⟨hep, it, carried, -, -, -, hpick, -⟩ := compStep_ok h
  rw [compStep_eq hep hpick] at h
  obtain ⟨v, l, q, hset⟩ := s.setDeferred_eq carried
  rw [hset] at h
  obtain ⟨u, hemit, rfl⟩ := except_map_ok h
  rw [endIfRead_dst]
  exact emitItem_writes (s := { s with deferV := v, deferLen := l, deferPos := q }) hemit hw

/-- `t` is `s` but for the registers of COMP, DST and the status registers. -/
def CompOnly (s t : State) : Prop :=
  t = { s with dst := t.dst, dp := t.dp, ep := t.ep, nbits := t.nbits, ctlpos := t.ctlpos, deferV := t.deferV,
               deferLen := t.deferLen, deferPos := t.deferPos, started := t.started, status := t.status,
               fault := t.fault, dstLen := t.dstLen, result := t.result }

theorem CompOnly.endIfRead {s t : State} (h : CompOnly s t) : CompOnly s t.endIfRead := by
  rw [State.endIfRead]
  split
  · exact congrArg (State.complete · t.dp 0) h
  · exact h

theorem compStart_compOnly {s t : State} (h : compStart s = .ok t) : CompOnly s t := by
  obtain ⟨m, -, rfl⟩ := compStart_ok h
  split <;> rfl

theorem compStep_compOnly {s t : State} (h : compStep s = .ok t) : CompOnly s t := by
  obtain ⟨-, it, carried, m, d, c, -, rfl⟩ := compStep_ok h
  cases carried <;> exact CompOnly.endIfRead rfl

theorem exec_comp_compOnly {s t : State} (h : exec .comp s = .next t) : CompOnly s t := by
  cases hstart : s.started with
  | false =>
    obtain hok | ⟨f, -, rfl⟩ := finish_next_iff.1 ((exec_comp_start hstart).symm.trans h)
    · exact compStart_compOnly hok
    · rfl
  | true =>
    obtain hok | ⟨f, -, rfl⟩ := finish_next_iff.1 ((exec_comp_step hstart).symm.trans h)
    · exact compStep_compOnly hok
    · rfl

/-- Settles O58: the start step writes the header, a token step what its emission can. -/
theorem compFrame : Obligations.CompFrame := by
  unfold Obligations.CompFrame
  intro s t h hw
  refine ⟨fun hstart a ha => ?_, fun hstart a hctl ha => ?_, exec_comp_compOnly h⟩
  · obtain hok | ⟨f, -, rfl⟩ := finish_next_iff.1 ((exec_comp_start hstart).symm.trans h)
    · exact (compStart_dst hok).read (by omega)
    · rfl
  · obtain hok | ⟨f, -, rfl⟩ := finish_next_iff.1 ((exec_comp_step hstart).symm.trans h)
    · refine (compStep_dst hok hw).read ?_
      rintro (hat | hin)
      · exact hctl hat
      · omega
    · rfl

end Sys2Proof.Machine

/-! # What the operations raise, and what no instruction writes (60_exceptions, 20_memory) -/

namespace Sys2Proof.Machine

/-! ## A fault replaces the whole step (R153, log 14) -/

/-- Settles O55: an engine step that faults is fault entry, and a command turned down is fault entry behind its latch. -/
theorem faultReplacesTheStep : Obligations.FaultReplacesTheStep := by
  unfold Obligations.FaultReplacesTheStep
  refine ⟨fun s t hmoves hbusy h hfault => ?_, fun s t v later hmoves hidle h hfault => ?_, fun s t c hidle h => ?_⟩
  · obtain ⟨f, -, rfl⟩ := step_eq_raise hmoves hbusy h hfault
    rfl
  · obtain rfl := Host.Outcome.next.inj ((step_writeCmd hmoves).symm.trans h)
    obtain ⟨-, haccept⟩ | ⟨-, -, haccept⟩ | ⟨-, -, haccept⟩ :=
      acceptCommand_cases (c := v.setWidth 3) (s := { s with moves := later }) hidle
    · rw [haccept]
      exact ⟨rfl, rfl⟩
    · rw [haccept]
      exact ⟨rfl, rfl⟩
    · rw [haccept] at hfault
      cases hfault
  · obtain rfl := Host.Outcome.next.inj ((exec_reservedCmd c hidle).symm.trans h)
    exact ⟨rfl, rfl⟩

/-! ## Which faults a rule raises (R161) -/

/-- A rule raises only faults that meet `P`. -/
def RaisesOnly (P : FaultCode → Prop) (r : Except Stop State) : Prop := ∀ f, r = .error (.raise f) → P f

section RaisesOnly

variable {P : FaultCode → Prop} {s t : State} {r r' : Except Stop State}

theorem RaisesOnly.ok (t : State) : RaisesOnly P (.ok t) := fun _ h => nomatch h

theorem RaisesOnly.halt (e : Fault) : RaisesOnly P (.error (.halt e)) := fun _ h => nomatch h

theorem RaisesOnly.raise {f : FaultCode} (hf : P f) : RaisesOnly P (.error (.raise f)) := by
  rintro _ ⟨⟩
  exact hf

theorem RaisesOnly.bind {g : State → Except Stop State} (h : RaisesOnly P r) (hg : ∀ u, RaisesOnly P (g u)) :
    RaisesOnly P (r.bind g) := by
  cases r with
  | ok u => exact hg u
  | error e => exact fun f he => h f he

theorem RaisesOnly.map {g : State → State} (h : RaisesOnly P r) : RaisesOnly P (r.map g) := by
  cases r with
  | ok u => exact .ok _
  | error e => exact fun f he => h f he

theorem RaisesOnly.ite {c : Prop} [Decidable c] (h : RaisesOnly P r) (h' : RaisesOnly P r') :
    RaisesOnly P (if c then r else r') := by
  split
  · exact h
  · exact h'

/-- A step of a rule that raises only such faults ends in FAULT only with one of them. -/
theorem RaisesOnly.finish_fault (h : RaisesOnly P r) (hr : FaultsByRaise r) (hstep : finish s r = .next t)
    (hfault : t.status = .fault) : P t.fault := by
  obtain rfl | ⟨f, rfl, rfl⟩ := finish_next_iff.1 hstep
  · cases hr with
    | ok hne => exact absurd hfault hne
  · exact h f rfl

/-! ### DECOMP -/

/-- The faults of a token step. -/
def FaultCode.InToken (f : FaultCode) : Prop := f = .truncatedInput ∨ f = .badDistance

theorem writeDst_raisesOnly (a : Nat) (v : Byte) (s : State) : RaisesOnly P (writeDst a v s) := .ite (.ok _) (.halt _)

theorem appendDst_raisesOnly (v : Byte) (s : State) : RaisesOnly P (appendDst v s) := (writeDst_raisesOnly _ v s).map

theorem copyBack_raisesOnly (dist len : Nat) (s : State) : RaisesOnly P (copyBack dist len s) := by
  induction len generalizing s with
  | zero => exact .ok s
  | succ len ih => exact .ite (.ok s) ((appendDst_raisesOnly _ s).bind ih)

theorem copyChecked_raisesOnly (dist len : Nat) (s : State) : RaisesOnly FaultCode.InToken (copyChecked dist len s) :=
  .ite (.raise (.inr rfl)) (copyBack_raisesOnly dist len s)

theorem needBytes_raisesOnly (k : Nat) (s : State) : RaisesOnly FaultCode.InToken (needBytes k s) :=
  .ite (.ok s) (.raise (.inl rfl))

theorem tokenEffect_raisesOnly (i : Instr) (s : State) : RaisesOnly FaultCode.InToken (tokenEffect i s) := by
  cases i with
  | lit d => exact ((needBytes_raisesOnly 1 _).bind fun u => appendDst_raisesOnly d _).map
  | ref n b l => exact ((needBytes_raisesOnly 2 _).bind fun u => copyChecked_raisesOnly _ _ _).map
  | refx b l c =>
    exact ((needBytes_raisesOnly 2 _).bind fun u => (needBytes_raisesOnly 1 _).bind fun w =>
      copyChecked_raisesOnly _ _ _).map
  | _ => exact .halt _

theorem controlFetch_raisesOnly (s : State) : RaisesOnly FaultCode.InToken (controlFetch s) := by
  refine .ite ?_ (.ok s)
  split
  · exact .ite (needBytes_raisesOnly 1 s).map (.ok s)
  · exact .raise (.inl rfl)

theorem decompStep_raisesOnly (s : State) : RaisesOnly FaultCode.InToken (decompStep s) := by
  refine .ite ((controlFetch_raisesOnly s).bind fun u => ?_) (.halt _)
  unfold fetchToken
  split
  · exact tokenEffect_raisesOnly _ u
  · exact .raise (.inl rfl)

/-- The faults of the start step. -/
def FaultCode.InHeader (f : FaultCode) : Prop := f = .formatError ∨ f = .truncatedInput ∨ f = .dstOverflow

theorem decompStart_raisesOnly (s : State) : RaisesOnly FaultCode.InHeader (decompStart s) :=
  .ite (.raise (.inl rfl)) (.ite (.raise (.inr (.inl rfl))) (.ite (.raise (.inr (.inr rfl))) (.ok _)))

/-! ### COMP -/

theorem writeDstList_raisesOnly (a : Nat) (vs : List Byte) (s : State) : RaisesOnly P (writeDstList a vs s) := by
  induction vs generalizing a s with
  | nil => exact .ok s
  | cons v vs ih => exact (writeDst_raisesOnly a v s).bind fun u => ih (a + 1) u

theorem compStart_raisesOnly (s : State) : RaisesOnly P (compStart s) := (writeDstList_raisesOnly 0 (header s.srcLen) s).map

theorem emitItem_raisesOnly (it : Item) (s : State) : RaisesOnly (· = .dstOverflow) (emitItem it s) := by
  intro f h
  obtain hraise | hhalt := emitItem_error h
  · exact Stop.raise.inj hraise
  · cases hhalt

theorem compStep_raisesOnly (s : State) : RaisesOnly (· = .dstOverflow) (compStep s) :=
  .ite (emitItem_raisesOnly _ _).map (.halt _)

/-! ### CRC16 -/

theorem crcStep_raisesOnly (s : State) : RaisesOnly (fun _ => False) (crcStep s) := .ite (.ok _) (.halt _)

end RaisesOnly

/-- Settles O56, by operation, and for DECOMP by the start step and the token step. -/
theorem whichOperationRaisesWhat : Obligations.WhichOperationRaisesWhat := by
  unfold Obligations.WhichOperationRaisesWhat
  intro s t hbusy
  have hs : s.status ≠ .fault := by rw [hbusy]; decide
  refine ⟨fun h => ?_, fun h hfault => ?_, fun h hfault => ?_, fun h hfault => ?_⟩
  · obtain rfl := Host.Outcome.next.inj h
    rfl
  · exact RaisesOnly.finish_fault (P := fun _ => False) (.ite (crcStep_raisesOnly s) (.ok _))
      (.ite (crcStep_faultsByRaise hs) (.ok (t := crcStart s) hs)) h hfault
  · exact RaisesOnly.finish_fault (.ite (compStep_raisesOnly s) (compStart_raisesOnly s))
      (.ite (compStep_faultsByRaise hs) (compStart_faultsByRaise hs)) h hfault
  · cases hstart : s.started with
    | true =>
      rw [exec_decomp_step hstart] at h
      obtain hcode | hcode := (decompStep_raisesOnly s).finish_fault (decompStep_faultsByRaise hs) h hfault
      all_goals rw [hcode]; decide
    | false =>
      rw [exec_decomp_start hstart] at h
      refine ⟨?_, fun _ => rfl⟩
      obtain hcode | hcode | hcode := (decompStart_raisesOnly s).finish_fault (decompStart_faultsByRaise hs) h hfault
      all_goals rw [hcode]; decide

/-! ## What no instruction writes (R17, R40, R53) -/

/-- `t` has SRC, its length, the configuration and the host's moves of `s`. -/
structure SameSource (s t : State) : Prop where
  src : t.src = s.src
  srcLen : t.srcLen = s.srcLen
  cfg : t.cfg = s.cfg
  moves : t.moves = s.moves

theorem SameSource.of_raise (s : State) (f : FaultCode) : SameSource s (s.raise f) := ⟨rfl, rfl, rfl, rfl⟩

/-- A rule that keeps them makes a step that does. -/
theorem sameSource_of_finish {s t : State} {r : Except Stop State} (h : finish s r = .next t)
    (hr : ∀ u, r = .ok u → SameSource s u) : SameSource s t := by
  obtain hok | ⟨f, -, rfl⟩ := finish_next_iff.1 h
  · exact hr t hok
  · exact .of_raise s f

theorem SameSource.stopIfFull {s t : State} (h : SameSource s t) : SameSource s (stopIfFull t) := by
  rw [stopIfFull_frame]
  exact ⟨h.src, h.srcLen, h.cfg, h.moves⟩

theorem tokenEffect_sameSource {i : Instr} {s t : State} (h : tokenEffect i s = .ok t) : SameSource s t := by
  obtain ⟨sp, u, -, -, happ, rfl⟩ := tokenEffect_ok h
  obtain ⟨m, d, rfl⟩ := appendToken_writes happ
  exact SameSource.stopIfFull ⟨rfl, rfl, rfl, rfl⟩

/-- A control byte that is due and there is taken; where none is due nothing happens (R92). -/
theorem controlByte_ok {k : Byte} {s t : State} (h : controlByte k s = .ok t) : t = s.openGroup k ∨ t = s := by
  by_cases hdue : s.cnt = 0
  · by_cases hsp : s.sp.toNat < s.srcLen.toNat
    · exact .inl (Except.ok.inj (h.symm.trans (controlByte_due k hdue hsp)))
    · rw [controlByte_missing k hdue (Nat.le_of_not_lt hsp)] at h
      cases h
  · exact .inr (Except.ok.inj (h.symm.trans (controlByte_not_due k hdue)))

theorem crcStep_sameSource {s t : State} (h : crcStep s = .ok t) : SameSource s t ∧ t.dst = s.dst := by
  unfold crcStep at h
  split at h
  · obtain rfl := Except.ok.inj h
    split <;> exact ⟨⟨rfl, rfl, rfl, rfl⟩, rfl⟩
  · cases h

/-- What the operations that touch no DST keep, with the fault that can replace their step. -/
theorem dst_of_finish {s t : State} {r : Except Stop State} (h : finish s r = .next t) (hr : ∀ u, r = .ok u → u.dst = s.dst) :
    t.dst = s.dst := by
  obtain hok | ⟨f, -, rfl⟩ := finish_next_iff.1 h
  · exact hr t hok
  · rfl

theorem exec_crc16_sameSource {s t : State} (h : exec .crc16 s = .next t) : SameSource s t ∧ t.dst = s.dst := by
  cases hstart : s.started with
  | false =>
    obtain rfl := Host.Outcome.next.inj ((exec_crc16_start hstart).symm.trans h)
    exact ⟨⟨rfl, rfl, rfl, rfl⟩, rfl⟩
  | true =>
    rw [exec_crc16_step hstart] at h
    exact ⟨sameSource_of_finish h fun u hu => (crcStep_sameSource hu).1,
      dst_of_finish h fun u hu => (crcStep_sameSource hu).2⟩

theorem exec_ctlf_sameSource {k : Byte} {s t : State} (h : exec (.ctlf k) s = .next t) :
    SameSource s t ∧ t.dst = s.dst := by
  have hkeep {u : State} (hu : controlByte k s = .ok u) : SameSource s u ∧ u.dst = s.dst := by
    obtain rfl | rfl := controlByte_ok hu <;> exact ⟨⟨rfl, rfl, rfl, rfl⟩, rfl⟩
  exact ⟨sameSource_of_finish h fun u hu => (hkeep hu).1, dst_of_finish h fun u hu => (hkeep hu).2⟩

theorem exec_reservedCmd_sameSource {c : BitVec 3} {s t : State} (h : exec (.reservedCmd c) s = .next t) :
    SameSource s t ∧ t.dst = s.dst := by
  by_cases hbusy : s.status = .busy
  · obtain rfl := Host.Outcome.next.inj ((congrArg Host.Outcome.next (if_pos hbusy)).symm.trans h)
    exact ⟨⟨rfl, rfl, rfl, rfl⟩, rfl⟩
  · obtain rfl := Host.Outcome.next.inj ((exec_reservedCmd c hbusy).symm.trans h)
    exact ⟨⟨rfl, rfl, rfl, rfl⟩, rfl⟩

theorem exec_decomp_sameSource {s t : State} (h : exec .decomp s = .next t) : SameSource s t := by
  rw [(exec_decomp_decompOnly h).eq]
  exact ⟨rfl, rfl, rfl, rfl⟩

theorem exec_comp_sameSource {s t : State} (h : exec .comp s = .next t) : SameSource s t := by
  have hframe : t = _ := exec_comp_compOnly h
  exact ⟨(congrArg State.src hframe :), (congrArg State.srcLen hframe :), (congrArg State.cfg hframe :),
    (congrArg State.moves hframe :)⟩

/-- No instruction writes SRC, its length, the configuration or the host's moves. -/
theorem exec_sameSource {i : Instr} {s t : State} (h : exec i s = .next t) : SameSource s t := by
  cases i with
  | lit d => exact sameSource_of_finish h fun u hu => tokenEffect_sameSource (i := .lit d) hu
  | ref n b l => exact sameSource_of_finish h fun u hu => tokenEffect_sameSource (i := .ref n b l) hu
  | refx b l c => exact sameSource_of_finish h fun u hu => tokenEffect_sameSource (i := .refx b l c) hu
  | ctlf k => exact (exec_ctlf_sameSource h).1
  | iscomp =>
    obtain rfl := Host.Outcome.next.inj h
    exact ⟨rfl, rfl, rfl, rfl⟩
  | decomp => exact exec_decomp_sameSource h
  | comp => exact exec_comp_sameSource h
  | crc16 => exact (exec_crc16_sameSource h).1
  | reservedCmd c => exact (exec_reservedCmd_sameSource h).1

/-- Settles O57, by instruction. -/
theorem engineNeverWritesSource : Obligations.EngineNeverWritesSource := by
  unfold Obligations.EngineNeverWritesSource
  intro i s t h
  obtain ⟨hsrc, hsrcLen, hcfg, hmoves⟩ := exec_sameSource h
  refine ⟨hsrc, hsrcLen, hcfg, hmoves, ?_⟩
  rintro (rfl | rfl | ⟨k, rfl⟩ | ⟨c, rfl⟩)
  · obtain rfl := Host.Outcome.next.inj h
    rfl
  · exact (exec_crc16_sameSource h).2
  · exact (exec_ctlf_sameSource h).2
  · exact (exec_reservedCmd_sameSource h).2

end Sys2Proof.Machine

/-! # What a token step of COMP keeps (42_compress R116 to R122, 10_state R28) -/

namespace Sys2Proof.Machine

/-! ## The pick, by its numbers -/

/-- A carried match fits the data from `pos` on, as R28 has it. -/
def CarriedFits (x : List Byte) (pos : Nat) (carried : Option (Nat × Nat)) : Prop :=
  ∀ l q, carried = some (l, q) → (5 ≤ l ∧ l ≤ 273 ∧ pos + l ≤ x.length) ∧ q < pos ∧ pos ≤ q + 4096

/-- An item covers at least a byte, none past the data, and costs at most as many bytes as it covers. -/
structure PickFits (x : List Byte) (pos : Nat) (it : Item) : Prop where
  covers : 1 ≤ itemSpan it
  inData : pos + itemSpan it ≤ x.length
  cost : (itemBytes it).length ≤ itemSpan it

theorem PickFits.of_valid {x : List Byte} {pos : Nat} {it : Item} (h : validAt x pos it = true) : PickFits x pos it :=
  ⟨(validAt_span h).1, (validAt_span h).2, itemBytes_length_le_span h⟩

theorem takeMatch_fits {x : List Byte} {pos l q : Nat} (hl : 5 ≤ l) (hdata : pos + l ≤ x.length) :
    PickFits x pos (takeMatch x pos l q) := by
  rw [takeMatch, if_pos (by simp only [minLength]; omega)]
  refine ⟨by simp only [itemSpan]; omega, hdata, ?_⟩
  rw [itemBytes_ref_length, itemSpan]
  split <;> omega

theorem choose_fits {ch : Chooser} {x : List Byte} {pos : Nat} {carried : Option (Nat × Nat)} (hpos : pos < x.length)
    (h : CarriedFits x pos carried) : PickFits x pos (choose ch x pos carried).1 := by
  cases carried with
  | none => exact .of_valid (choose_valid ch hpos (carried := none) fun _ _ hnone => nomatch hnone).1
  | some m =>
    cases ch with
    | other id => exact .of_valid (choose_valid (.other id) hpos (carried := none) fun _ _ hnone => nomatch hnone).1
    | reference =>
      obtain ⟨⟨hmin, -, hdata⟩, -⟩ := h m.1 m.2 rfl
      exact takeMatch_fits hmin hdata

/-- What is carried on from the pick fits the data behind it. -/
theorem choose_carries_fitting {ch : Chooser} {x : List Byte} {pos : Nat} {carried next : Option (Nat × Nat)} {it : Item}
    (h : choose ch x pos carried = (it, next)) : CarriedFits x (pos + itemSpan it) next := by
  rintro l q rfl
  obtain ⟨-, -, rfl, hm, hmin, hgain⟩ := choose_carried h
  simp only [minLength, lazyGain] at hmin hgain
  have hmatch := search_isMatch (x := x) (pos := pos + 1) (by rw [← hm]; omega)
  rw [← hm] at hmatch
  have hdata := hmatch.inData
  exact ⟨⟨by omega, hmatch.cap, by simp only [literalAt, itemSpan]; omega⟩, hmatch.before, hmatch.inWindow⟩

/-! ## The numbers of a running COMP -/

theorem State.CompInv.carriedFits {s : State} (h : s.CompInv) : CarriedFits s.input s.ep.toNat s.deferred := by
  intro l q hcarried
  cases hV : s.deferV with
  | false => rw [State.deferred_of_not_deferV hV] at hcarried; cases hcarried
  | true =>
    rw [State.deferred_of_deferV hV] at hcarried
    obtain ⟨rfl, rfl⟩ := Prod.mk.inj (Option.some.inj hcarried)
    rw [State.input_length]
    exact ⟨h.deferLength hV, h.deferDistance hV⟩

/-- The pick in a running COMP. -/
theorem State.CompInv.pickFits {s : State} (h : s.CompInv) {it : Item} {carried : Option (Nat × Nat)}
    (hpick : choose s.cfg.chooser s.input s.ep.toNat s.deferred = (it, carried)) : PickFits s.input s.ep.toNat it := by
  have hfits := choose_fits (ch := s.cfg.chooser) (by rw [State.input_length]; exact h.epHigh) h.carriedFits
  rwa [hpick] at hfits

theorem State.CompInv.controlBelow {s : State} (h : s.CompInv) (it : Item) : s.ControlBelow it :=
  fun _ hinside => (h.group hinside).2

/-- Where the next token ends: the size R28 gives, with the token counted. -/
theorem State.CompInv.tokenEnd {s : State} (h : s.CompInv) {it : Item} (hit : PickFits s.input s.ep.toNat it) :
    ∃ tokens, tokens ≤ s.ep.toNat + itemSpan it ∧ tokens % 8 = (s.nbits + 1).toNat ∧
      s.tokenAt + (itemBytes it).length ≤ 16 + (s.ep.toNat + itemSpan it) + (tokens + 7) / 8 := by
  obtain ⟨tokens, hfew, hbits, hdp⟩ := h.size
  have hcovers := hit.covers
  have hcost := hit.cost
  refine ⟨tokens + 1, by omega, by bv_omega, ?_⟩
  unfold State.tokenAt
  split
  · next hdue =>
    rw [hdue] at hbits
    change tokens % 8 = 0 at hbits
    omega
  · next hinside =>
    have : s.nbits.toNat ≠ 0 := fun h0 => hinside (BitVec.eq_of_toNat_eq h0)
    omega

/-- No address of a token overflows `DP`. -/
theorem State.CompInv.token_lt {s : State} (h : s.CompInv) {it : Item} (hit : PickFits s.input s.ep.toNat it) :
    s.tokenAt + (itemBytes it).length < 2 ^ 33 := by
  obtain ⟨tokens, hfew, -, hend⟩ := h.tokenEnd hit
  have hdata := hit.inData
  rw [State.input_length] at hdata
  omega

/-- `EP` behind the pick. -/
theorem PickFits.ep_add {s : State} {it : Item} (hit : PickFits s.input s.ep.toNat it) :
    (s.ep + BitVec.ofNat 32 (itemSpan it)).toNat = s.ep.toNat + itemSpan it := by
  have hdata := hit.inData
  rw [State.input_length] at hdata
  rw [BitVec.toNat_add, BitVec.toNat_ofNat]
  omega

/-! ## The bytes written -/

theorem Memory.isSome_read_write {m : Memory} {a b : Nat} (v : Byte) (h : b ≠ a → (Memory.read m b).isSome = true) :
    (Memory.read (Memory.write a v m) b).isSome = true := by
  rw [Memory.read_write]
  split
  · rfl
  · next hne => exact h hne

/-- With its group open and its control bit written, DST is written up to the token. -/
theorem State.markedDst_written {s : State} (h : s.DstWritten s.dp.toNat) (it : Item) {a : Nat} (ha : a < s.tokenAt) :
    (Memory.read (s.markedDst it) a).isSome = true := by
  have hopened : (Memory.read s.openedDst a).isSome = true := by
    unfold State.tokenAt at ha
    unfold State.openedDst
    split
    · next hdue =>
      rw [if_pos hdue] at ha
      exact Memory.isSome_read_write 0 fun hne => h a (by omega)
    · next hinside => exact h a (by rwa [if_neg hinside] at ha)
  cases it with
  | lit b => exact Memory.isSome_read_write _ fun _ => hopened
  | ref d l => exact hopened

/-! ## The state behind an item -/

/-- The state behind the emission of `it` in `s`, before COMP's end is judged. -/
structure Emitted (s : State) (it : Item) (m : Memory) (d : BitVec 33) : Prop where
  dp : d.toNat = s.tokenAt + (itemBytes it).length
  fits : s.fitsDst d.toNat = true
  read : ∀ a, Memory.read m a =
    if s.tokenAt ≤ a ∧ a < s.tokenAt + (itemBytes it).length then (itemBytes it)[a - s.tokenAt]?
    else Memory.read (s.markedDst it) a

theorem Emitted.written {s : State} {it : Item} {m : Memory} {d : BitVec 33} (h : Emitted s it m d)
    (hs : s.DstWritten s.dp.toNat) {a : Nat} (ha : a < d.toNat) : (Memory.read m a).isSome = true := by
  have hdp := h.dp
  rw [h.read]
  split
  · next hin => rw [List.getElem?_eq_getElem (by omega)]; rfl
  · exact State.markedDst_written hs it (by omega)

/-- The control byte of the next token's group lies behind the header and before the token. -/
theorem State.CompInv.controlAt_bounds {s : State} (h : s.CompInv) :
    16 ≤ s.controlAt.toNat ∧ s.controlAt.toNat < s.tokenAt := by
  unfold State.controlAt State.tokenAt
  split
  · exact ⟨h.dpLow, Nat.lt_succ_self _⟩
  · next hopen => exact h.group hopen

/-- A token step of a running COMP: DstOverflow where the pick does not fit, otherwise the pick is emitted. -/
theorem exec_comp_cases {s : State} (hstart : s.started = true) (h : s.CompInv) {it : Item} {carried : Option (Nat × Nat)}
    (hpick : choose s.cfg.chooser s.input s.ep.toNat s.deferred = (it, carried)) :
    (s.fitsDst (s.tokenAt + (itemBytes it).length) = false ∧ exec .comp s = .next (s.raise .dstOverflow)) ∨
      ∃ m d, Emitted s it m d ∧
        exec .comp s = .next (s.afterItem carried (itemSpan it) m d s.controlAt).endIfRead := by
  have hw := h.token_lt (h.pickFits hpick)
  cases hf : s.fitsDst (s.tokenAt + (itemBytes it).length) with
  | true =>
    obtain ⟨m, d, hexec, hd, hread⟩ := exec_comp_emits hstart h.epHigh hpick hw (h.controlBelow it) hf
    exact .inr ⟨m, d, ⟨hd, by rwa [hd], hread⟩, hexec⟩
  | false =>
    obtain ⟨v, l, q, hset⟩ := s.setDeferred_eq carried
    have hover := emitItem_overflow (s := { s with deferV := v, deferLen := l, deferPos := q }) hw h.fits hf
      (h.controlBelow it)
    rw [exec_comp_step hstart, compStep_eq h.epHigh hpick, hset, hover]
    exact .inl ⟨rfl, rfl⟩

/-- The carried match as the registers hold it. -/
theorem State.afterItem_carries {s : State} {it : Item} {carried : Option (Nat × Nat)} (m : Memory) (d c : BitVec 33)
    (hspan : s.ep.toNat + itemSpan it ≤ s.input.length) (h : CarriedFits s.input (s.ep.toNat + itemSpan it) carried) :
    (s.afterItem carried (itemSpan it) m d c).deferred = carried := by
  cases carried with
  | none => rfl
  | some best =>
    obtain ⟨l, q⟩ := best
    obtain ⟨⟨-, hcap, -⟩, hbefore, -⟩ := h l q rfl
    rw [State.input_length] at hspan
    show some ((BitVec.ofNat 9 l).toNat, (BitVec.ofNat 32 q).toNat) = some (l, q)
    rw [BitVec.toNat_ofNat, BitVec.toNat_ofNat, Nat.mod_eq_of_lt (by omega), Nat.mod_eq_of_lt (by omega)]

@[simp] theorem State.afterItem_cfg (s : State) (carried : Option (Nat × Nat)) (span : Nat) (m : Memory)
    (d c : BitVec 33) : (s.afterItem carried span m d c).cfg = s.cfg := by
  simp [State.afterItem]

/-- An item that does not end the data keeps R28. -/
theorem Emitted.compInv {s : State} {it : Item} {carried : Option (Nat × Nat)} {m : Memory} {d : BitVec 33}
    (he : Emitted s it m d) (h : s.CompInv)
    (hpick : choose s.cfg.chooser s.input s.ep.toNat s.deferred = (it, carried))
    (hmore : s.ep.toNat + itemSpan it < s.srcLen.toNat) :
    (s.afterItem carried (itemSpan it) m d s.controlAt).CompInv := by
  have hit := h.pickFits hpick
  have hcarried := choose_carries_fitting hpick
  have hep : (s.afterItem carried (itemSpan it) m d s.controlAt).ep.toNat = s.ep.toNat + itemSpan it := by
    rw [State.afterItem_ep, hit.ep_add]
  have hdp := he.dp
  have hcost := itemBytes_length_pos it
  have hdefer := State.afterItem_carries m d s.controlAt hit.inData hcarried
  obtain ⟨tokens, hfew, hbits, hend⟩ := h.tokenEnd hit
  have hmatch (hV : (s.afterItem carried (itemSpan it) m d s.controlAt).deferV = true) :=
    hcarried _ _ (hdefer.symm.trans (State.deferred_of_deferV hV))
  rw [← hep, State.input_length] at hmatch
  have hgroup := h.controlAt_bounds
  exact {
    epHigh := by rw [hep, State.afterItem_srcLen]; exact hmore
    dpLow := by show 16 ≤ d.toNat; omega
    fits := by
      rw [State.fitsDst_congr (State.afterItem_cfg ..)]
      exact he.fits
    group := fun _ => ⟨hgroup.1, by show s.controlAt.toNat < d.toNat; omega⟩
    size := ⟨tokens, by omega, by rw [State.afterItem_nbits]; exact hbits, by rw [hep]; exact hdp ▸ hend⟩
    deferLength := fun hV => by rw [State.afterItem_srcLen]; exact (hmatch hV).1
    deferDistance := fun hV => (hmatch hV).2
    written := fun a ha => he.written h.written ha }

/-! ## The start step -/

/-- `m` is the DST of `s` with the header of its input. -/
def State.HasHeader (s : State) (m : Memory) : Prop :=
  ∀ a, Memory.read m a = if a < 16 then (header s.srcLen)[a]? else Memory.read s.dst a

/-- The start step always completes (R7, R110). -/
theorem compStart_completes {s : State} (hcfg : s.cfg.wf = true) :
    ∃ m, s.HasHeader m ∧ compStart s = .ok (if s.srcLen = 0 then (s.encoderReset m).complete 16 0 else s.encoderReset m) := by
  have hroom := (s.fitsDst_iff 16).1 (State.fitsDst_header hcfg)
  obtain ⟨m, hwrite, hread, -⟩ := writeDstList_ok (a := 0) (vs := header s.srcLen) (s := s) fun k hk =>
    hroom _ (by rw [header_length] at hk; omega)
  refine ⟨m, fun a => ?_, compStart_of_header hwrite⟩
  rw [hread, header_length]
  simp only [Nat.zero_le, Nat.zero_add, true_and, Nat.sub_zero]

/-- Behind the start step R28 holds, unless there is no data. -/
theorem State.HasHeader.compInv {s : State} {m : Memory} (h : s.HasHeader m) (hcfg : s.cfg.wf = true) (hdata : s.srcLen ≠ 0) :
    (s.encoderReset m).CompInv where
  epHigh := Nat.pos_of_ne_zero fun h0 => hdata (BitVec.eq_of_toNat_eq h0)
  dpLow := Nat.le_refl 16
  fits := State.fitsDst_header hcfg
  group := fun hinside => absurd rfl hinside
  size := ⟨0, Nat.le_refl 0, rfl, Nat.le_refl 16⟩
  deferLength := fun hV => absurd hV Bool.false_ne_true
  deferDistance := fun hV => absurd hV Bool.false_ne_true
  written := fun a ha => by
    have hlt : a < 16 := ha
    show (Memory.read m a).isSome = true
    rw [h, if_pos hlt, List.getElem?_eq_getElem (by rwa [header_length])]
    rfl

end Sys2Proof.Machine

/-! # A whole run of COMP (42_compress R124, R128) -/

namespace Sys2Proof.Machine

/-! ## The output behind a write -/

theorem State.output_storeDst (s : State) (a n : Nat) (v : Byte) :
    (s.storeDst a v).output n = (s.output n).set a v := by
  refine List.ext_getElem (by simp) fun b hb hb' => ?_
  rw [List.getElem_set]
  simp only [State.output, List.getElem_map, List.getElem_range, State.dstByte_storeDst]
  by_cases hab : b = a
  · rw [if_pos hab, if_pos hab.symm]
  · rw [if_neg hab, if_neg (Ne.symm hab)]

theorem State.output_storeDst_succ (s : State) (n : Nat) (v : Byte) :
    (s.storeDst n v).output (n + 1) = s.output n ++ [v] := by
  rw [State.output_succ, State.dstByte_storeDst, if_pos rfl]
  congr 1
  refine State.output_congr fun b hb => ?_
  rw [State.dstByte_storeDst, if_neg (by omega)]

/-- Bytes written one behind the other follow the output. -/
theorem State.output_append {s : State} {m : Memory} {n : Nat} {vs : List Byte}
    (h : ∀ a, Memory.read m a = if n ≤ a ∧ a < n + vs.length then vs[a - n]? else Memory.read s.dst a) :
    ({ s with dst := m } : State).output (n + vs.length) = s.output n ++ vs := by
  refine List.ext_getElem (by simp) fun a ha _ => ?_
  rw [State.output_length] at ha
  rw [List.getElem_append]
  simp only [State.output, List.getElem_map, List.getElem_range, List.length_map, List.length_range]
  by_cases hlt : a < n
  · rw [dif_pos hlt, State.dstByte, h, if_neg (by omega)]
    rfl
  · rw [dif_neg hlt, State.dstByte, h, if_pos (by omega), List.getElem?_eq_getElem (by omega)]

/-! ## The emission of an item, on the machine and in `Emit` (R114, R119 to R121) -/

/-- Of the number of the item, `Emit` reads its place in the group. -/
theorem emitFrom_congr {i j : Nat} (h : i % 8 = j % 8) (ctlpos : Nat) (out : List Byte) (p : List Item) :
    emitFrom i ctlpos out p = emitFrom j ctlpos out p := by
  induction p generalizing i j ctlpos out with
  | nil => rfl
  | cons it p ih =>
    simp only [emitFrom, h]
    exact ih (by omega) _ _

/-- The output with the next token's group open. -/
def State.opened (s : State) : List Byte := if s.nbits = 0 then s.produced ++ [0] else s.produced

/-- The output with the control bit of the next token written. -/
def State.marked (s : State) : Item → List Byte
  | .lit _ => s.opened.set s.controlAt.toNat (s.opened.getD s.controlAt.toNat 0 ||| ((0x80 : Byte) >>> s.nbits.toNat))
  | .ref _ _ => s.opened

theorem State.opened_length (s : State) : s.opened.length = s.tokenAt := by
  unfold State.opened State.tokenAt
  split <;> simp

theorem State.marked_length (s : State) (it : Item) : (s.marked it).length = s.tokenAt := by
  cases it with
  | lit b => rw [State.marked, List.length_set, s.opened_length]
  | ref d l => exact s.opened_length

/-- One round of `Emit`, in the terms of the machine. -/
theorem emitFrom_item (s : State) (it : Item) (p : List Item) :
    emitFrom s.nbits.toNat s.ctlpos.toNat s.produced (it :: p) =
      emitFrom (s.nbits + 1).toNat s.controlAt.toNat (s.marked it ++ itemBytes it) p := by
  have hmod : s.nbits.toNat % 8 = s.nbits.toNat := Nat.mod_eq_of_lt s.nbits.isLt
  have hdue : s.nbits.toNat = 0 ↔ s.nbits = 0 := ⟨fun h0 => BitVec.eq_of_toNat_eq h0, fun h0 => by rw [h0]; rfl⟩
  have hcontrol : s.controlAt.toNat = if s.nbits = 0 then s.produced.length else s.ctlpos.toNat := by
    rw [State.controlAt, State.produced_length]
    split <;> rfl
  rw [emitFrom_congr (i := (s.nbits + 1).toNat) (j := s.nbits.toNat + 1) (by rw [BitVec.toNat_add]; exact Nat.mod_mod _ _),
    hcontrol]
  cases it with
  | lit b => simp only [emitFrom, hmod, hdue, State.marked, hcontrol]; rfl
  | ref d l => simp only [emitFrom, hmod, hdue, State.marked]; rfl

/-- DST with the group open, as output. -/
theorem State.output_openedDst (s : State) : ({ s with dst := s.openedDst } : State).output s.tokenAt = s.opened := by
  unfold State.openedDst State.tokenAt State.opened
  split
  · exact s.output_storeDst_succ s.dp.toNat 0
  · rfl

/-- The open group's control byte. -/
theorem State.CompInv.opened_getD_controlAt {s : State} (h : s.CompInv) :
    s.opened.getD s.controlAt.toNat 0 = if s.nbits = 0 then 0 else s.dstByte s.ctlpos.toNat := by
  unfold State.opened State.controlAt
  split
  · rw [← State.produced_length, List.getD_append_right _ _ _ _ (Nat.le_refl _), Nat.sub_self]
    rfl
  · next hinside =>
    rw [List.getD_eq_getElem?_getD, State.produced, s.output_getElem? (h.group hinside).2]
    rfl

/-- DST with the control bit written, as output. -/
theorem State.output_markedDst {s : State} (h : s.CompInv) (it : Item) :
    ({ s with dst := s.markedDst it } : State).output s.tokenAt = s.marked it := by
  cases it with
  | ref d l => exact s.output_openedDst
  | lit b =>
    refine (State.output_storeDst { s with dst := s.openedDst } _ _ s.literalControl).trans ?_
    rw [s.output_openedDst, State.marked, State.literalControl, h.opened_getD_controlAt]

theorem Emitted.produced {s : State} {it : Item} {carried : Option (Nat × Nat)} {m : Memory} {d : BitVec 33}
    (he : Emitted s it m d) (h : s.CompInv) :
    (s.afterItem carried (itemSpan it) m d s.controlAt).produced = s.marked it ++ itemBytes it := by
  rw [← State.output_markedDst h it, ← State.output_append he.read, ← he.dp]
  cases carried <;> rfl

/-! ## The stream still to come -/

/-- What COMP delivers from `s` on, where nothing more overflows: the output so far, and the parse of the rest. -/
def State.compressRest (s : State) (fuel : Nat) : List Byte :=
  emitFrom s.nbits.toNat s.ctlpos.toNat s.produced (parseFrom s.cfg.chooser s.input fuel s.ep.toNat s.deferred)

/-- Nothing is left to come where the data ends. -/
theorem State.compressRest_end {s : State} (h : s.srcLen.toNat ≤ s.ep.toNat) (fuel : Nat) :
    s.compressRest fuel = s.produced := by
  have hparse : parseFrom s.cfg.chooser s.input fuel s.ep.toNat s.deferred = [] := by
    cases fuel with
    | zero => rfl
    | succ fuel => rw [parseFrom, if_neg (by rw [State.input_length]; omega)]
  rw [State.compressRest, hparse]
  rfl

/-- What is still to come begins with the pick. -/
theorem State.CompInv.compressRest_succ {s : State} (h : s.CompInv) {it : Item} {carried : Option (Nat × Nat)}
    (hpick : choose s.cfg.chooser s.input s.ep.toNat s.deferred = (it, carried)) (fuel : Nat) :
    s.compressRest (fuel + 1) = emitFrom (s.nbits + 1).toNat s.controlAt.toNat (s.marked it ++ itemBytes it)
      (parseFrom s.cfg.chooser s.input fuel (s.ep.toNat + itemSpan it) carried) := by
  rw [State.compressRest, parseFrom, if_pos (by rw [State.input_length]; exact h.epHigh), hpick]
  exact emitFrom_item s it _

/-- The emission never gets shorter. -/
theorem emitFrom_length_le (i ctlpos : Nat) (out : List Byte) (p : List Item) :
    out.length ≤ (emitFrom i ctlpos out p).length := by
  induction p generalizing i ctlpos out with
  | nil => exact Nat.le_refl _
  | cons it p ih =>
    refine Nat.le_trans ?_ (ih _ _ _)
    have hopened : out.length ≤ (if i % 8 = 0 then out ++ [0] else out).length := by
      split
      · exact List.length_append ▸ Nat.le_add_right _ _
      · exact Nat.le_refl _
    rw [List.length_append]
    cases it with
    | lit b =>
      rw [List.length_set]
      exact Nat.le_add_right_of_le hopened
    | ref d l => exact Nat.le_add_right_of_le hopened

/-- Behind an emitted item the rest is still to come. -/
theorem Emitted.compressRest {s : State} {it : Item} {carried : Option (Nat × Nat)} {m : Memory} {d : BitVec 33}
    (he : Emitted s it m d) (h : s.CompInv)
    (hpick : choose s.cfg.chooser s.input s.ep.toNat s.deferred = (it, carried)) (fuel : Nat) :
    s.compressRest (fuel + 1) = (s.afterItem carried (itemSpan it) m d s.controlAt).compressRest fuel := by
  have hit := h.pickFits hpick
  rw [h.compressRest_succ hpick, State.compressRest, he.produced h, State.afterItem_nbits, State.afterItem_ep, hit.ep_add,
    State.afterItem_carries m d _ hit.inData (choose_carries_fitting hpick), State.afterItem_cfg]
  cases carried <;> rfl

/-- A stream whose next token does not fit does not fit. -/
theorem State.CompInv.compressRest_overflows {s : State} (h : s.CompInv) {it : Item} {carried : Option (Nat × Nat)}
    (hpick : choose s.cfg.chooser s.input s.ep.toNat s.deferred = (it, carried))
    (hf : s.fitsDst (s.tokenAt + (itemBytes it).length) = false) (fuel : Nat) :
    s.fitsDst (s.compressRest (fuel + 1)).length = false := by
  refine Bool.eq_false_iff.2 fun hfits => Bool.eq_false_iff.1 hf (State.fitsDst_of_le hfits ?_)
  rw [h.compressRest_succ hpick]
  refine Nat.le_trans (Nat.le_of_eq ?_) (emitFrom_length_le _ _ _ _)
  rw [List.length_append, s.marked_length]

/-! ## The run (R122, R128) -/

/-- A COMP whose start step has run, with no moves of the host. -/
structure State.Encoding (s : State) : Prop where
  moves : s.moves = []
  busy : s.status = .busy
  op : s.op = 3
  started : s.started = true
  inv : s.CompInv

theorem State.Encoding.step_eq {s : State} (h : s.Encoding) : step s = exec .comp s := by
  rw [step_busy h.moves h.busy, h.op]
  rfl

/-- What is delivered of a stream: the stream where it fits DST, otherwise DstOverflow (R128). -/
def State.deliver (s : State) (bytes : List Byte) : Except FaultCode (List Byte) :=
  if s.fitsDst bytes.length then .ok bytes else .error .dstOverflow

/-- A run from `s` ends within `k` steps and delivers `o`. -/
def EndsDelivering (s : State) (k : Nat) (o : Except FaultCode (List Byte)) : Prop :=
  ∃ j t, runFor j s = .next t ∧ t.Ended ∧ t.delivered = o ∧ j ≤ k

theorem EndsDelivering.of_step {s u : State} {k : Nat} {o : Except FaultCode (List Byte)} (h : step s = .next u)
    (hu : EndsDelivering u k o) : EndsDelivering s (k + 1) o := by
  obtain ⟨j, t, hrun, hend, ho, hj⟩ := hu
  exact ⟨j + 1, t, (runFor_of_step h j).trans hrun, hend, ho, Nat.succ_le_succ hj⟩

@[simp] theorem endIfRead_output (s : State) (n : Nat) : s.endIfRead.output n = s.output n := by
  rw [endIfRead_frame]
  rfl

theorem EndsDelivering.mono {s : State} {j k : Nat} {o : Except FaultCode (List Byte)} (h : EndsDelivering s j o)
    (hjk : j ≤ k) : EndsDelivering s k o := by
  obtain ⟨i, t, hrun, hend, ho, hi⟩ := h
  exact ⟨i, t, hrun, hend, ho, hi.trans hjk⟩

/-- Behind an item that does not end the data, COMP runs on. -/
theorem Emitted.encoding {s : State} {it : Item} {carried : Option (Nat × Nat)} {m : Memory} {d : BitVec 33}
    (he : Emitted s it m d) (h : s.Encoding)
    (hpick : choose s.cfg.chooser s.input s.ep.toNat s.deferred = (it, carried))
    (hmore : s.ep.toNat + itemSpan it < s.srcLen.toNat) :
    (s.afterItem carried (itemSpan it) m d s.controlAt).Encoding := by
  have hinv := he.compInv h.inv hpick hmore
  cases carried <;> exact ⟨h.moves, h.busy, h.op, h.started, hinv⟩

/-- Where the data ends with an item, the run has ended. -/
theorem Emitted.endsDelivering {s : State} {it : Item} {carried : Option (Nat × Nat)} {m : Memory} {d : BitVec 33}
    (he : Emitted s it m d) (hspan : (s.ep + BitVec.ofNat 32 (itemSpan it)) = s.srcLen) :
    let u := s.afterItem carried (itemSpan it) m d s.controlAt
    EndsDelivering u.endIfRead 0 (s.deliver u.produced) := by
  have hend := State.afterItem_status s carried (itemSpan it) m d s.controlAt
  dsimp only at hend ⊢
  rw [if_pos hspan] at hend
  obtain ⟨hdone, hlen, -⟩ := hend
  refine ⟨0, _, rfl, .inl hdone, ?_, Nat.le_refl 0⟩
  rw [State.delivered, if_pos hdone, hlen, State.deliver, State.produced_length]
  have hfits : s.fitsDst (s.afterItem carried (itemSpan it) m d s.controlAt).dp.toNat = true := he.fits
  rw [if_pos hfits, endIfRead_output]
  rfl

/-- A running COMP ends, and delivers the stream still to come; each step covers a byte of the data. -/
theorem State.Encoding.endsDelivering (fuel : Nat) {s : State} (h : s.Encoding) (hfuel : s.srcLen.toNat - s.ep.toNat ≤ fuel) :
    EndsDelivering s (s.srcLen.toNat - s.ep.toNat) (s.deliver (s.compressRest fuel)) := by
  induction fuel generalizing s with
  | zero => exact absurd h.inv.epHigh (by omega)
  | succ fuel ih =>
    obtain ⟨it, carried, hpick⟩ : ∃ it carried, choose s.cfg.chooser s.input s.ep.toNat s.deferred = (it, carried) :=
      ⟨_, _, rfl⟩
    have hep := h.inv.epHigh
    obtain ⟨hf, hexec⟩ | ⟨m, d, he, hexec⟩ := exec_comp_cases h.started h.inv hpick
    · rw [State.deliver, if_neg (Bool.eq_false_iff.1 (h.inv.compressRest_overflows hpick hf fuel))]
      exact ⟨1, s.raise .dstOverflow, runFor_of_step (h.step_eq.trans hexec) 0, .inr rfl, rfl, by omega⟩
    · have hit := h.inv.pickFits hpick
      have hcovers := hit.covers
      have hdata := hit.inData
      rw [State.input_length] at hdata
      rw [he.compressRest h.inv hpick]
      have hnext := h.step_eq.trans hexec
      have huep : (s.afterItem carried (itemSpan it) m d s.controlAt).ep.toNat = s.ep.toNat + itemSpan it := by
        rw [State.afterItem_ep, hit.ep_add]
      by_cases hend : s.ep + BitVec.ofNat 32 (itemSpan it) = s.srcLen
      · have hlast := congrArg BitVec.toNat hend
        rw [hit.ep_add] at hlast
        rw [State.compressRest_end (by rw [State.afterItem_srcLen]; omega)]
        exact (EndsDelivering.of_step hnext (he.endsDelivering hend)).mono (by omega)
      · have hmore : s.ep.toNat + itemSpan it < s.srcLen.toNat := by
          refine Nat.lt_of_le_of_ne hdata fun hsame => hend (BitVec.eq_of_toNat_eq ?_)
          rw [hit.ep_add, hsame]
        have hrest := ih (he.encoding h hpick hmore) (by rw [State.afterItem_srcLen]; omega)
        rw [State.endIfRead, if_neg (by rw [State.afterItem_ep, State.afterItem_srcLen]; exact hend)] at hnext
        rw [State.afterItem_srcLen, huep, State.deliver, State.fitsDst_congr (State.afterItem_cfg ..)] at hrest
        exact (EndsDelivering.of_step hnext hrest).mono (by omega)

/-- `Compress`, as what is delivered of the stream of the parse. -/
theorem compress_eq_deliver (s : State) :
    compress s.cfg s.input = s.deliver (streamOf s.srcLen.toNat (parseOf s.cfg.chooser s.input)) := by
  rw [← s.input_length]
  rfl

/-- Behind the start step the whole stream is still to come. -/
theorem State.HasHeader.compressRest {s : State} {m : Memory} (h : s.HasHeader m) :
    (s.encoderReset m).compressRest s.srcLen.toNat = streamOf s.srcLen.toNat (parseOf s.cfg.chooser s.input) := by
  have hheader : (s.encoderReset m).produced = header s.srcLen := by
    refine State.output_append (s := s) (n := 0) (vs := header s.srcLen) fun a => (h a).trans ?_
    rw [header_length]
    simp only [Nat.zero_le, Nat.zero_add, true_and, Nat.sub_zero]
  calc (s.encoderReset m).compressRest s.srcLen.toNat
      = emitFrom 0 0 (s.encoderReset m).produced (parseFrom s.cfg.chooser s.input s.srcLen.toNat 0 none) := rfl
    _ = streamOf s.srcLen.toNat (parseOf s.cfg.chooser s.input) := by
      rw [emitFrom_boundary rfl, hheader, streamOf, BitVec.ofNat_toNat, BitVec.setWidth_eq, parseOf, s.input_length]

/-- Settles O42: the start step, and the run from the encoder's registers on. -/
theorem compRunIsCompress : Obligations.CompRunIsCompress := by
  unfold Obligations.CompRunIsCompress
  intro s hcfg hmoves hbusy hop hstart
  obtain ⟨m, hm, hcomp⟩ := compStart_completes hcfg
  have hstep : step s = finish s (compStart s) := by rw [step_busy hmoves hbusy, exec_op_comp hop, hstart]; rfl
  rw [hcomp, finish_ok] at hstep
  rw [compress_eq_deliver, ← hm.compressRest, Nat.add_comm]
  refine EndsDelivering.of_step hstep ?_
  by_cases hempty : s.srcLen = 0
  · rw [if_pos hempty, State.compressRest_end (by show s.srcLen.toNat ≤ _; rw [hempty]; exact Nat.zero_le _)]
    refine ⟨0, _, rfl, .inl rfl, ?_, Nat.zero_le _⟩
    exact (if_pos (State.fitsDst_header hcfg)).symm
  · rw [if_neg hempty]
    exact State.Encoding.endsDelivering _ ⟨hmoves, hbusy, hop, rfl, hm.compInv hcfg hempty⟩ (Nat.sub_le _ _)

/-! ## There and back (R124) -/

/-- The engine makes no moves for the host. -/
theorem runFor_moves {k : Nat} {s t : State} (hmoves : s.moves = []) (h : runFor k s = .next t) : t.moves = [] := by
  induction k generalizing s with
  | zero =>
    obtain rfl := Host.Outcome.next.inj h
    exact hmoves
  | succ k ih =>
    by_cases hbusy : s.status = .busy
    · cases hstep : step s with
      | next u =>
        rw [runFor_of_step hstep] at h
        rw [step_busy hmoves hbusy] at hstep
        exact ih ((exec_sameSource hstep).moves.trans hmoves) h
      | fault r => rw [runFor_succ, hstep] at h; cases h
      | refused r => rw [runFor_succ, hstep] at h; cases h
    · obtain rfl := Host.Outcome.next.inj ((runFor_not_busy hmoves hbusy _).symm.trans h)
      exact hmoves

/-- A run goes no further than its end. -/
theorem runFor_ended {j i : Nat} {s t u : State} (hmoves : s.moves = []) (ht : runFor j s = .next t) (hend : t.Ended)
    (hu : runFor (j + i) s = .next u) : u = t := by
  rw [runFor_add ht, runFor_not_busy (runFor_moves hmoves ht) hend.not_busy] at hu
  exact (Host.Outcome.next.inj hu).symm

/-- A run has one end. -/
theorem runFor_end_unique {j k : Nat} {s t u : State} (hmoves : s.moves = []) (ht : runFor j s = .next t) (htEnd : t.Ended)
    (hu : runFor k s = .next u) (huEnd : u.Ended) : u = t := by
  obtain hle | hle := Nat.le_total j k
  · obtain ⟨i, rfl⟩ := Nat.exists_eq_add_of_le hle
    exact runFor_ended hmoves ht htEnd hu
  · obtain ⟨i, rfl⟩ := Nat.exists_eq_add_of_le hle
    exact (runFor_ended hmoves hu huEnd ht).symm

theorem State.delivered_ok_iff {s : State} {o : List Byte} :
    s.delivered = .ok o ↔ s.status = .done ∧ s.output s.dstLen.toNat = o := by
  rw [State.delivered]
  split
  · next hdone => simp only [Except.ok.injEq, hdone, true_and]
  · next hdone => simp only [reduceCtorEq, hdone, false_and]

/-- Settles O46: COMP delivers the stream of a valid parse, which `Decompress` gives back. -/
theorem roundTripOnTheMachine : Obligations.RoundTripOnTheMachine := by
  unfold Obligations.RoundTripOnTheMachine
  intro s u v k hcfg hmoves hbusy hop hstart hrun hdone hvmoves hvbusy hvop hvstart hinput hfits
  obtain ⟨j, t, hrun', hend, hcompress, -⟩ := compRunIsCompress s hcfg hmoves hbusy hop hstart
  obtain rfl := runFor_end_unique hmoves hrun' hend hrun (.inl hdone)
  have hstream := compress_ok (hcompress.symm.trans (State.delivered_ok_iff.2 ⟨hdone, rfl⟩))
  obtain ⟨i, w, hrunBack, -, hback⟩ := decompRunIsDecompress v hvmoves hvbusy hvop hvstart
  have hlength : s.input.length < 2 ^ 32 := by rw [s.input_length]; exact s.srcLen.isLt
  rw [State.fitsDst_eq, ← s.input_length] at hfits
  rw [hinput, hstream, decompress_streamOf hlength (parseOf_valid _ _) hfits] at hback
  exact ⟨i, w, hrunBack, State.delivered_ok_iff.1 hback⟩

end Sys2Proof.Machine

/-! # The invariant of the machine (10_state R28) -/

namespace Sys2Proof.Machine

/-! ## Outside BUSY -/

/-- Outside BUSY the invariant is about the configuration, the memories and the status registers. -/
theorem State.Inv.of_not_busy {s : State} (hidle : s.status ≠ .busy) (cfg : s.cfg.wf = true) (src : Memory.wf s.src = true)
    (dst : Memory.wf s.dst = true) (faultCode : s.status = .fault ↔ s.fault ≠ .none)
    (noResult : s.status = .fault → s.dstLen = 0 ∧ s.result = 0)
    (resultFits : s.status = .done → s.fitsDst s.dstLen.toNat = true) : s.Inv where
  cfg := cfg
  src := src
  dst := dst
  faultCode := faultCode
  noResult := fun h => noResult (h.resolve_left hidle)
  resultFits := resultFits
  opLegal := fun h => absurd h hidle
  lengthLegal := fun h => absurd h hidle
  decomp := fun h => absurd h hidle
  comp := fun h => absurd h hidle
  crc := fun h => absurd h hidle

/-- Settles O7: the engine is idle, and both memories are empty. -/
theorem invariantAtReset : Obligations.InvariantAtReset := by
  unfold Obligations.InvariantAtReset
  exact .of_not_busy (by decide) (by decide) (by decide) (by decide) (by decide) (fun h => by cases h) (fun h => by cases h)

theorem State.Inv.resetMove {s : State} (h : s.Inv) : s.resetMove.Inv :=
  .of_not_busy (s := s.resetMove) (fun h => by cases h) h.cfg rfl rfl ⟨fun h => (by cases h), fun h => absurd rfl h⟩
    (fun h => by cases h) (fun h => by cases h)

theorem State.Inv.raise {s : State} (h : s.Inv) {f : FaultCode} (hf : f ≠ .none) : (s.raise f).Inv :=
  .of_not_busy (s := s.raise f) (fun h => by cases h) h.cfg h.src h.dst ⟨fun _ => hf, fun _ => rfl⟩ (fun _ => ⟨rfl, rfl⟩)
    (fun h => by cases h)

/-! ## The host's moves -/

/-- A host access keeps the invariant: while BUSY it changes neither buffer nor SRC_LEN. -/
theorem State.Inv.hostAccess {s : State} (h : s.Inv) {src dst : Memory} {srcLen : BitVec 32}
    (hbusy : s.status = .busy → srcLen = s.srcLen ∧ src = s.src ∧ dst = s.dst) (hsrc : Memory.wf src = true)
    (hdst : Memory.wf dst = true) (rdata : BitVec 33) (moves : List HostMove) :
    ({ s with src := src, dst := dst, srcLen := srcLen, rdata := rdata, moves := moves } : State).Inv := by
  by_cases hb : s.status = .busy
  · obtain ⟨rfl, rfl, rfl⟩ := hbusy hb
    exact {
      cfg := h.cfg
      src := h.src
      dst := h.dst
      faultCode := h.faultCode
      noResult := h.noResult
      resultFits := h.resultFits
      opLegal := h.opLegal
      lengthLegal := h.lengthLegal
      decomp := fun hs hop hstart =>
        have d := h.decomp hs hop hstart
        ⟨d.spLow, d.spHigh, d.dpHigh, d.fits, d.cntHigh, d.ctlLow, d.written⟩
      comp := fun hs hop hstart =>
        have c := h.comp hs hop hstart
        ⟨c.epHigh, c.dpLow, c.fits, c.group, c.size, c.deferLength, c.deferDistance, c.written⟩
      crc := h.crc }
  · exact .of_not_busy hb h.cfg hsrc hdst h.faultCode (fun hf => h.noResult (.inr hf)) h.resultFits

theorem State.Inv.withMoves {s : State} (h : s.Inv) (moves : List HostMove) : ({ s with moves := moves } : State).Inv :=
  h.hostAccess (fun _ => ⟨rfl, rfl, rfl⟩) h.src h.dst s.rdata moves

theorem State.Inv.acceptCommand {s : State} (h : s.Inv) (c : BitVec 3) : (acceptCommand c s).Inv := by
  by_cases hbusy : s.status = .busy
  · rw [acceptCommand_busy hbusy]
    exact h
  · have latched (f : FaultCode) (hf : f ≠ .none) : ((s.latchCommand c).raise f).Inv :=
      .of_not_busy (s := (s.latchCommand c).raise f) (fun h => by cases h) h.cfg h.src h.dst ⟨fun _ => hf, fun _ => rfl⟩
        (fun _ => ⟨rfl, rfl⟩) (fun h => by cases h)
    obtain ⟨-, ht⟩ | ⟨-, -, ht⟩ | ⟨hcode, hfits, ht⟩ := acceptCommand_cases (c := c) hbusy
    · rw [ht]
      exact latched _ (by decide)
    · rw [ht]
      exact latched _ (by decide)
    · rw [ht]
      exact {
        cfg := h.cfg
        src := h.src
        dst := h.dst
        faultCode := ⟨fun hf => (by cases hf), fun hf => absurd rfl hf⟩
        noResult := fun _ => ⟨rfl, rfl⟩
        resultFits := fun hd => (by cases hd)
        opLegal := fun _ => hcode
        lengthLegal := fun _ => hfits
        decomp := fun _ _ hstart => absurd hstart Bool.false_ne_true
        comp := fun _ _ hstart => absurd hstart Bool.false_ne_true
        crc := fun _ _ hstart => absurd hstart Bool.false_ne_true }

/-- Every move of the host keeps the invariant. -/
theorem State.Inv.hostMove {s t : State} (h : s.Inv) {m : HostMove} (hm : hostMove m s = .next t) : t.Inv := by
  by_cases hreset : m = .reset
  · subst hreset
    obtain rfl := Host.Outcome.next.inj hm
    exact h.resetMove
  · by_cases hcmd : ∃ v, m = .writeReg .cmd v
    · obtain ⟨v, rfl⟩ := hcmd
      obtain rfl := Host.Outcome.next.inj ((hostWriteReg_cmd v s).symm.trans hm)
      exact h.acceptCommand _
    · obtain ⟨hframe, hbusy, hsrc, hdst⟩ := hostMove_frame hreset (fun v hv => hcmd ⟨v, hv⟩) hm
      rw [hframe]
      exact h.hostAccess hbusy (hsrc h.src) (hdst h.dst) t.rdata s.moves

/-! ## The engine's steps -/

/-- `t` has what a step of an operation that completes leaves to the other rules: SRC and the configuration, the command
in `OP`, no fault, and DST in its canonical form. -/
structure EngineKeeps (s t : State) : Prop extends SameSource s t where
  op : t.op = s.op
  fault : t.fault = s.fault
  dst : Memory.wf t.dst = true

theorem State.Inv.no_fault {s : State} (h : s.Inv) (hbusy : s.status = .busy) : s.fault = .none := by
  by_contra hf
  exact absurd (hbusy.symm.trans (h.faultCode.2 hf)) (by decide)

/-- An operation that delivers nothing needs no room. -/
theorem State.fitsDst_zero (s : State) : s.fitsDst 0 = true :=
  (s.fitsDst_iff 0).2 fun a ha => absurd ha (Nat.not_lt_zero a)

/-- An operation that ends with a result that fits DST. -/
theorem State.Inv.done {s t : State} (h : s.Inv) (hbusy : s.status = .busy) (hkeep : EngineKeeps s t)
    (hdone : t.status = .done) (hfits : t.fitsDst t.dstLen.toNat = true) : t.Inv := by
  refine .of_not_busy (by rw [hdone]; decide) (hkeep.cfg ▸ h.cfg) (hkeep.src ▸ h.src) hkeep.dst ?_ ?_ fun _ => hfits
  · rw [hdone, hkeep.fault, h.no_fault hbusy]
    decide
  · rw [hdone]
    exact fun hf => by cases hf

/-- An operation that runs on, with its own part of the invariant. -/
theorem State.Inv.runsOn {s t : State} (h : s.Inv) (hbusy : s.status = .busy) (hkeep : EngineKeeps s t)
    (htbusy : t.status = .busy) (hresult : t.dstLen = s.dstLen ∧ t.result = s.result)
    (decomp : s.op = 2 → t.DecompInv) (comp : s.op = 3 → t.CompInv)
    (crc : s.op = 4 → t.crcIndex < t.srcLen.toNat + crcAugment) : t.Inv where
  cfg := hkeep.cfg ▸ h.cfg
  src := hkeep.src ▸ h.src
  dst := hkeep.dst
  faultCode := by
    rw [htbusy, hkeep.fault, h.no_fault hbusy]
    decide
  noResult := fun _ => by
    rw [hresult.1, hresult.2]
    exact h.noResult (.inl hbusy)
  resultFits := fun hdone => absurd (htbusy.symm.trans hdone) (by decide)
  opLegal := fun _ => hkeep.op ▸ h.opLegal hbusy
  lengthLegal := fun _ => by
    rw [hkeep.srcLen, hkeep.cfg]
    exact h.lengthLegal hbusy
  decomp := fun _ hop _ => decomp (hkeep.op ▸ hop)
  comp := fun _ hop _ => comp (hkeep.op ▸ hop)
  crc := fun _ hop _ => crc (hkeep.op ▸ hop)

/-! ### DECOMP -/

/-- The stop test behind a rule of DECOMP: at the declared size the result fits, otherwise DECOMP runs on. -/
theorem State.Inv.stopIfFull {s u : State} (h : s.Inv) (hbusy : s.status = .busy) (hop : s.op = 2) (hkeep : EngineKeeps s u)
    (hubusy : u.status = .busy) (hresult : u.dstLen = s.dstLen ∧ u.result = s.result)
    (hfits : u.fitsDst u.dsize.toNat = true) (hrun : u.dp.toNat ≠ u.dsize.toNat → u.DecompInv) : (stopIfFull u).Inv := by
  obtain ⟨-, hstop⟩ | ⟨hmore, hstop⟩ := stopIfFull_cases u
  · rw [hstop]
    refine h.done (t := u.complete _ 0) hbusy
      ⟨⟨hkeep.src, hkeep.srcLen, hkeep.cfg, hkeep.moves⟩, hkeep.op, hkeep.fault, hkeep.dst⟩ rfl ?_
    rw [State.complete_dstLen, BitVec.toNat_setWidth_of_le (by decide)]
    exact hfits
  · rw [hstop]
    exact h.runsOn hbusy hkeep hubusy hresult (fun _ => hrun hmore) (fun h3 => absurd (hop.symm.trans h3) (by decide))
      (fun h4 => absurd (hop.symm.trans h4) (by decide))

/-- The control bits that are left stay at the top of `CTL`. -/
theorem shiftLeft_mod_two_pow {ctl : Byte} {cnt : Nat} (hcnt : 1 ≤ cnt) (hmax : cnt ≤ 8)
    (h : ctl.toNat % 2 ^ (8 - cnt) = 0) : (ctl <<< 1).toNat % 2 ^ (8 - (cnt - 1)) = 0 := by
  have hexp : 8 - (cnt - 1) = (8 - cnt) + 1 := by omega
  have hbyte : 2 ^ (8 - (cnt - 1)) ∣ 256 := Nat.pow_dvd_pow 2 (show 8 - (cnt - 1) ≤ 8 by omega)
  rw [BitVec.toNat_shiftLeft, Nat.shiftLeft_eq, ← Nat.dvd_iff_mod_eq_zero]
  refine (Nat.dvd_mod_iff hbyte).2 ?_
  rw [hexp, Nat.pow_succ]
  exact Nat.mul_dvd_mul (Nat.dvd_of_mod_eq_zero h) (Nat.dvd_refl 2)

/-- R28 behind a control byte, where a control bit is left. -/
theorem controlFetch_bits {s v : State} (h : s.DecompInv) (hcontrol : controlFetch s = .ok v) :
    1 ≤ v.cnt.toNat ∧ v.cnt.toNat ≤ 8 ∧ v.ctl.toNat % 2 ^ (8 - v.cnt.toNat) = 0 := by
  obtain ⟨-, k, rest, -, rfl⟩ | ⟨hinside, rfl⟩ := controlFetch_ok hcontrol
  · exact ⟨(by decide : 1 ≤ (8 : BitVec 4).toNat), (by decide : (8 : BitVec 4).toNat ≤ 8), Nat.mod_one _⟩
  · exact ⟨Nat.one_le_iff_ne_zero.2 fun h0 => hinside (BitVec.eq_of_toNat_eq h0), h.cntHigh, h.ctlLow⟩

/-- A token that does not fill the output keeps R28. -/
theorem TokenStep.decompInv {s v : State} {i : Instr} {sp : BitVec 32} {dp : BitVec 33} {m : Memory}
    (hstep : TokenStep s v i sp dp m) (h : s.DecompInv) (hmore : dp.toNat ≠ s.dsize.toNat) :
    (v.afterToken sp dp m).DecompInv := by
  obtain ⟨hv, hlow, -⟩ := controlFetch_ok_frame hstep.control
  obtain ⟨hcnt, hcntMax, hctl⟩ := controlFetch_bits h hstep.control
  obtain ⟨rest, hdecode⟩ := hstep.decode
  obtain ⟨-, -, -, hbound⟩ := decodeToken_bounds hdecode hstep.room
  have hnewSp := hstep.newSp
  have hinSrc := hstep.inSrc
  have hspLow := h.spLow
  have hdp : dp.toNat = v.dp.toNat + v.appended i := hstep.bytes.dp
  have hvdp : v.dp = s.dp := by rw [hv]
  have hdsize : v.dsize = s.dsize := by rw [hv]
  have hdst : v.dst = s.dst := by rw [hv]
  have hpred : (v.cnt - 1).toNat = v.cnt.toNat - 1 := State.cnt_pred fun h0 => by rw [h0] at hcnt; exact absurd hcnt (by decide)
  exact {
    spLow := by show 16 ≤ sp.toNat; omega
    spHigh := by show sp.toNat ≤ v.srcLen.toNat; omega
    dpHigh := by show dp.toNat < v.dsize.toNat; rw [hdsize] at hbound ⊢; omega
    fits := by show v.fitsDst v.dsize.toNat = true; rw [hv]; exact h.fits
    cntHigh := by show (v.cnt - 1).toNat ≤ 8; omega
    ctlLow := by
      show (v.ctl <<< 1).toNat % 2 ^ (8 - (v.cnt - 1).toNat) = 0
      rw [hpred]
      exact shiftLeft_mod_two_pow hcnt hcntMax hctl
    written := fun a ha => by
      by_cases hold : a < v.dp.toNat
      · rw [hstep.bytes.frame a (.inl hold), hdst]
        exact h.written a (hvdp ▸ hold)
      · obtain ⟨k, rfl⟩ := Nat.exists_eq_add_of_le (Nat.le_of_not_lt hold)
        exact hstep.bytes.written k (by have : v.dp.toNat + k < dp.toNat := ha; omega) }

/-- A step of DECOMP that does not fault keeps the invariant. -/
theorem State.Inv.of_decompStart {s t : State} (h : s.Inv) (hbusy : s.status = .busy) (hop : s.op = 2)
    (ht : decompStart s = .ok t) : t.Inv := by
  obtain ⟨hlong, -, hfits, rfl⟩ := decompStart_ok ht
  refine h.stopIfFull hbusy hop ⟨⟨rfl, rfl, rfl, rfl⟩, rfl, rfl, h.dst⟩ hbusy ⟨rfl, rfl⟩ hfits fun hmore => ?_
  exact ⟨Nat.le_refl 16, hlong, Nat.pos_of_ne_zero (Ne.symm hmore), hfits, Nat.zero_le 8, rfl,
    fun a ha => absurd ha (Nat.not_lt_zero a)⟩

theorem State.Inv.of_decompStep {s t : State} (h : s.Inv) (hbusy : s.status = .busy) (hop : s.op = 2)
    (hstart : s.started = true) (ht : decompStep s = .ok t) : t.Inv := by
  obtain ⟨v, i, sp, dp, m, hstep, rfl⟩ := exists_tokenStep ht
  have hinv := h.decomp hbusy hop hstart
  have hnext := hstep.decompInv hinv
  have hv := (controlFetch_ok_frame hstep.control).1
  have hdst : v.dst = s.dst := by rw [hv]
  have hwf : Memory.wf m = true := hstep.bytes.wf (hdst ▸ h.dst)
  rw [hv] at hnext ⊢
  exact h.stopIfFull hbusy hop ⟨⟨rfl, rfl, rfl, rfl⟩, rfl, rfl, hwf⟩ hbusy ⟨rfl, rfl⟩ hinv.fits hnext

/-! ### COMP -/

theorem State.Inv.of_compStart {s t : State} (h : s.Inv) (hbusy : s.status = .busy) (hop : s.op = 3)
    (ht : compStart s = .ok t) : t.Inv := by
  have hwf := (compStart_dst ht).wf h.dst
  obtain ⟨m, hm, hcomp⟩ := compStart_completes h.cfg
  obtain rfl := Except.ok.inj (hcomp.symm.trans ht)
  by_cases hempty : s.srcLen = 0
  · rw [if_pos hempty] at hwf ⊢
    exact h.done hbusy ⟨⟨rfl, rfl, rfl, rfl⟩, rfl, rfl, hwf⟩ rfl (State.fitsDst_header h.cfg)
  · rw [if_neg hempty] at hwf ⊢
    exact h.runsOn hbusy ⟨⟨rfl, rfl, rfl, rfl⟩, rfl, rfl, hwf⟩ hbusy ⟨rfl, rfl⟩
      (fun h2 => absurd (hop.symm.trans h2) (by decide)) (fun _ => hm.compInv h.cfg hempty)
      (fun h4 => absurd (hop.symm.trans h4) (by decide))

theorem State.CompInv.dp_lt {s : State} (h : s.CompInv) : s.dp.toNat + 4 < 2 ^ 33 := by
  obtain ⟨tokens, hfew, -, hdp⟩ := h.size
  have := h.epHigh
  omega

theorem State.Inv.of_compStep {s t : State} (h : s.Inv) (hbusy : s.status = .busy) (hop : s.op = 3)
    (hstart : s.started = true) (ht : compStep s = .ok t) : t.Inv := by
  have hinv := h.comp hbusy hop hstart
  have hwf := (compStep_dst ht hinv.dp_lt).wf h.dst
  have hexec : exec .comp s = .next t := by rw [exec_comp_step hstart, ht, finish_ok]
  obtain ⟨it, carried, hpick⟩ : ∃ it carried, choose s.cfg.chooser s.input s.ep.toNat s.deferred = (it, carried) :=
    ⟨_, _, rfl⟩
  have hit := hinv.pickFits hpick
  obtain ⟨-, hover⟩ | ⟨m, d, he, hemit⟩ := exec_comp_cases hstart hinv hpick
  · obtain rfl := Host.Outcome.next.inj (hover.symm.trans hexec)
    exact h.raise (by decide)
  · obtain rfl := Host.Outcome.next.inj (hemit.symm.trans hexec)
    have hframe := State.afterItem_frame s carried (itemSpan it) m d s.controlAt
    have hstatus := State.afterItem_status s carried (itemSpan it) m d s.controlAt
    have hkeep : EngineKeeps s (s.afterItem carried (itemSpan it) m d s.controlAt).endIfRead :=
      ⟨exec_sameSource hexec, (congrArg State.op hframe :), (congrArg State.fault hframe :), hwf⟩
    dsimp only at hstatus
    by_cases hend : s.ep + BitVec.ofNat 32 (itemSpan it) = s.srcLen
    · rw [if_pos hend] at hstatus
      obtain ⟨hdone, hlen, -⟩ := hstatus
      refine h.done hbusy hkeep hdone ?_
      rw [hlen, State.fitsDst_congr hkeep.cfg]
      exact he.fits
    · rw [if_neg hend] at hstatus
      obtain ⟨hsame, hresult⟩ := hstatus
      refine h.runsOn hbusy hkeep (hsame.trans hbusy) hresult (fun h2 => absurd (hop.symm.trans h2) (by decide)) (fun _ => ?_)
        (fun h4 => absurd (hop.symm.trans h4) (by decide))
      rw [State.endIfRead, if_neg (by rw [State.afterItem_ep, State.afterItem_srcLen]; exact hend)]
      refine he.compInv hinv hpick (Nat.lt_of_le_of_ne (s.input_length ▸ hit.inData) fun hlast => hend ?_)
      exact BitVec.eq_of_toNat_eq (hit.ep_add.trans hlast)

/-! ### CRC16 -/

theorem State.Inv.of_crcStart {s : State} (h : s.Inv) (hbusy : s.status = .busy) (hop : s.op = 4) : (crcStart s).Inv :=
  h.runsOn (t := crcStart s) hbusy ⟨⟨rfl, rfl, rfl, rfl⟩, rfl, rfl, h.dst⟩ hbusy ⟨rfl, rfl⟩
    (fun h2 => absurd (hop.symm.trans h2) (by decide)) (fun h3 => absurd (hop.symm.trans h3) (by decide))
    fun _ => by rw [crcStart_crcIndex]; exact Nat.lt_add_left _ Nat.two_pos

theorem State.Inv.of_crcStep {s t : State} (h : s.Inv) (hbusy : s.status = .busy) (hop : s.op = 4)
    (hstart : s.started = true) (ht : crcStep s = .ok t) : t.Inv := by
  have hindex : s.crcIndex < s.srcLen.toNat + 2 := h.crc hbusy hop hstart
  rw [crcStep_eq s hindex] at ht
  obtain rfl := Except.ok.inj ht
  split
  · exact h.done hbusy ⟨⟨rfl, rfl, rfl, rfl⟩, rfl, rfl, h.dst⟩ rfl (State.fitsDst_zero _)
  · next hmore =>
    refine h.runsOn hbusy ⟨⟨rfl, rfl, rfl, rfl⟩, rfl, rfl, h.dst⟩ hbusy ⟨rfl, rfl⟩
      (fun h2 => absurd (hop.symm.trans h2) (by decide)) (fun h3 => absurd (hop.symm.trans h3) (by decide)) fun _ => ?_
    have hnext := s.advanceCrc_crcIndex hindex
    show s.advanceCrc.crcIndex < s.srcLen.toNat + 2
    omega

/-! ### Any operation -/

/-- One engine step of any operation keeps the invariant. -/
theorem State.Inv.exec_op {s t : State} (h : s.Inv) (hbusy : s.status = .busy)
    (ht : exec (decodeCommand s.op) s = .next t) : t.Inv := by
  by_cases hfault : t.status = .fault
  · obtain ⟨r, hr, hexec⟩ := exec_op_faultsByRaise hbusy
    obtain ⟨f, hf, rfl⟩ := hr.finish_fault (hexec.symm.trans ht) hfault
    exact h.raise hf
  · obtain hop | hop | hop | hop := h.opLegal hbusy
    · obtain rfl := Host.Outcome.next.inj ((exec_op_iscomp hop).symm.trans ht)
      exact h.done (t := isCompStep s) hbusy ⟨⟨rfl, rfl, rfl, rfl⟩, rfl, rfl, h.dst⟩ rfl (State.fitsDst_zero _)
    · have hok := finish_not_fault ((exec_op_decomp hop).symm.trans ht) hfault
      cases hstart : s.started with
      | false => rw [hstart] at hok; exact h.of_decompStart hbusy hop hok
      | true => rw [hstart] at hok; exact h.of_decompStep hbusy hop hstart hok
    · have hok := finish_not_fault ((exec_op_comp hop).symm.trans ht) hfault
      cases hstart : s.started with
      | false => rw [hstart] at hok; exact h.of_compStart hbusy hop hok
      | true => rw [hstart] at hok; exact h.of_compStep hbusy hop hstart hok
    · have hok := finish_not_fault ((exec_op_crc16 hop).symm.trans ht) hfault
      cases hstart : s.started with
      | false =>
        rw [hstart] at hok
        obtain rfl := Except.ok.inj hok
        exact h.of_crcStart hbusy hop
      | true => rw [hstart] at hok; exact h.of_crcStep hbusy hop hstart hok

theorem State.Inv.engineStep {s t : State} (h : s.Inv) (ht : engineStep s = .next t) : t.Inv := by
  unfold Machine.engineStep at ht
  split at ht
  · next hbusy => exact h.exec_op hbusy ht
  · obtain rfl := Host.Outcome.next.inj ht
    exact h

/-- Settles O8, by the host's moves and the engine's steps. -/
theorem invariantKeptByStep : Obligations.InvariantKeptByStep := by
  unfold Obligations.InvariantKeptByStep
  intro s t h ht
  cases hmoves : s.moves with
  | nil => exact h.engineStep ((step_nil hmoves).symm.trans ht)
  | cons m later =>
    have hlater := h.withMoves later
    by_cases htick : m = .tick
    · subst htick
      exact hlater.engineStep ((step_tick hmoves).symm.trans ht)
    · exact hlater.hostMove ((step_move hmoves htick).symm.trans ht)

/-! ## The engine never stops (R49, R174) -/

/-- A token step within R28 has a meaning: it completes or raises a fault. -/
theorem State.DecompInv.answers {s : State} (h : s.DecompInv) : ∃ t, finish s (decompStep s) = .next t := by
  have hraise {f : FaultCode} (hr : decompStep s = .error (.raise f)) : ∃ t, finish s (decompStep s) = .next t :=
    ⟨_, by rw [hr, finish_raise]⟩
  have htoken {v : State} (hcontrol : controlFetch s = .ok v) : ∃ t, finish s (decompStep s) = .next t := by
    have hv := (controlFetch_ok_frame hcontrol).1
    cases hdecode : decodeToken v.ctl.msb v.unread with
    | error e => exact hraise (decompStep_of_missing h.dpHigh hcontrol hdecode)
    | ok d =>
      have heffect := decompStep_of_decode h.dpHigh hcontrol (i := d.1) (rest := d.2) hdecode
      obtain ⟨f, hr, -⟩ | ⟨sp, dp, m, hok, -⟩ := tokenEffect_agrees (s := v) (i := d.1) (rest := d.2) hdecode
        (by rw [hv]; exact h.dpHigh) (by rw [hv]; exact h.fits)
      · exact hraise (heffect.trans hr)
      · exact ⟨_, by rw [heffect, hok, finish_ok]⟩
  by_cases hdue : s.cnt = 0
  · cases hunread : s.unread with
    | nil => exact hraise (by rw [decompStep, if_pos h.dpHigh, controlFetch_missing hdue hunread]; rfl)
    | cons k rest => exact htoken (controlFetch_due hdue hunread)
  · exact htoken (controlFetch_not_due hdue)

/-- Under the invariant the command in `OP` has a step. -/
theorem State.Inv.answers {s : State} (h : s.Inv) (hbusy : s.status = .busy) :
    ∃ t, exec (decodeCommand s.op) s = .next t := by
  obtain hop | hop | hop | hop := h.opLegal hbusy
  · exact ⟨_, exec_op_iscomp hop⟩
  · rw [exec_op_decomp hop]
    cases hstart : s.started with
    | false =>
      cases hr : decompStart s with
      | ok t => exact ⟨t, by rw [if_neg Bool.false_ne_true, finish_ok]⟩
      | error e =>
        obtain ⟨f, rfl⟩ := decompStart_error hr
        exact ⟨s.raise f, by rw [if_neg Bool.false_ne_true, finish_raise]⟩
    | true => exact (h.decomp hbusy hop hstart).answers
  · cases hstart : s.started with
    | false =>
      obtain ⟨m, -, hcomp⟩ := compStart_completes h.cfg
      exact ⟨_, by rw [exec_op_comp hop, hstart, if_neg Bool.false_ne_true, hcomp, finish_ok]⟩
    | true =>
      rw [hop]
      obtain ⟨-, hexec⟩ | ⟨m, d, -, hexec⟩ := exec_comp_cases hstart (h.comp hbusy hop hstart) rfl
      · exact ⟨_, hexec⟩
      · exact ⟨_, hexec⟩
  · rw [exec_op_crc16 hop]
    cases hstart : s.started with
    | false => exact ⟨crcStart s, rfl⟩
    | true => exact ⟨_, by rw [if_pos rfl, crcStep_eq s (h.crc hbusy hop hstart), finish_ok]⟩

theorem State.Inv.engine_answers {s : State} (h : s.Inv) : ∃ t, Machine.engineStep s = .next t := by
  unfold Machine.engineStep
  split
  · next hbusy => exact h.answers hbusy
  · exact ⟨s, rfl⟩

/-- Settles O9, by the turn the engine takes with and without a tick. -/
theorem engineNeverStopsUnderInvariant : Obligations.EngineNeverStopsUnderInvariant := by
  unfold Obligations.EngineNeverStopsUnderInvariant
  intro s h hturn
  cases hmoves : s.moves with
  | nil =>
    rw [step_nil hmoves]
    exact h.engine_answers
  | cons m later =>
    obtain hnone | htick := hturn
    · rw [hmoves] at hnone
      cases hnone
    · rw [hmoves] at htick
      obtain rfl := Option.some.inj htick
      rw [step_tick hmoves]
      exact (h.withMoves later).engine_answers

end Sys2Proof.Machine
